-- ==== Sys2Proof/Word.lean ====
section
/-! DEFINITION. The word types of the block (spec/00_scope.md R5, R7, R8). -/

namespace Sys2Proof

/-- A byte of BUF or of a frame. -/
abbrev Byte := BitVec 8

/-- A value as wide as a register or a command word (R5: registers and command words are 32 bits). -/
abbrev Word := BitVec 32

end Sys2Proof
end

