-- ==== Sys2Proof/Config.lean ====
section
/-! DEFINITION. What an implementation fixes (the parameters of spec/00_scope.md R6) and the free values the
spec leaves open (spec/00_scope.md R11). -/

namespace Sys2Proof

/-- The parameters the model takes as arguments (R6). They are constant through a run: no step writes them. -/
structure Params where
  /-- BUF_SIZE: the size of BUF in bytes. -/
  bufSize : Nat
  /-- CCITT_INIT: the initial CRC register value of the CCITT variant. -/
  ccittInit : BitVec 16
  /-- CCITT_XOROUT: the final XOR of the CCITT variant. -/
  ccittXorOut : BitVec 16
  deriving DecidableEq, Repr

/-- The legal values of R6: 1 ≤ BUF_SIZE ≤ 0xFFFF_F000; the CCITT parameters are any 16-bit values. -/
abbrev Params.legal (p : Params) : Prop := 1 ≤ p.bufSize ∧ p.bufSize ≤ 0xFFFFF000

/-- The values R6 gives for spec/95_test_vectors.md. DESIGN CHOICE (unsafe, log entry 1): the parameters of
`State.reset`; every statement about all states holds for every parameter. -/
def Config.vectorParams : Params := { bufSize := 4096, ccittInit := 0xFFFF, ccittXorOut := 0xFFFF }

/-- FREE VALUE (safe, log entries 2 and 3): the byte that draw number `draw` gives address `addr` of BUF. It has
no body, so nothing can be proved of its value: R11, "a claim must hold for every draw". -/
opaque Config.freeByte (draw addr : Nat) : Byte

end Sys2Proof
end

