-- ==== Sys2Proof/Machine/State.lean ====
section
/-! DEFINITION. The state of the block: the registers of spec/10_state.md R19, BUF (R34), the parameters of
spec/00_scope.md R6, and the model's own fields (INVENTORY.md, State). Plain data. -/

namespace Sys2Proof.Machine

/-- The CRC variants: VAR = 0, 1, 2 (spec/41_checksum.md R73). The value 3 is never stored (R26,
spec/93_implementation_defined.md I10). -/
inductive CrcVar where
  | modbus
  | ccitt
  | dnp3
  deriving DecidableEq, Repr

/-- The HDLC link states (spec/10_state.md R21, R22). -/
inductive LinkState where
  | disconnected
  | connecting
  | connected
  deriving DecidableEq, Repr

/-- The result codes of STATUS.ERR (spec/60_exceptions.md R114). Codes 11 to 15 never occur. -/
inductive ResultCode where
  | ok
  | generic
  | invalidArg
  | incompleteData
  | bufferTooSmall
  | notSupported
  | overflow
  | invalidState
  | checksum
  | invalidFrame
  | outOfBounds
  deriving DecidableEq, Repr

/-- The bytes of BUF written since the hardware reset: (address, byte) pairs, addresses strictly rising. -/
abbrev Memory := List Host.Cell

/-- One thing the outside world does to the block, each atomic and in one total order (spec/20_memory.md R47).
Offsets are relative to the block's window (spec/20_memory.md R37). -/
inductive Input where
  /-- A host read of `bits` bits at a window offset. -/
  | read (bits offset : Nat)
  /-- A host write of `bits` bits at a window offset; a narrow write carries its data in the low bits. -/
  | write (bits offset : Nat) (value : Word)
  /-- The platform's hardware reset (spec/70_reset_and_hazards.md R127). -/
  | hardReset
  /-- An access of a second bus master, or a second host access in flight (spec/93_implementation_defined.md I5). -/
  | secondMaster
  deriving DecidableEq, Repr

/-- The machine. -/
structure State where
  /-- The parameters of spec/00_scope.md R6; no step writes them. -/
  params : Params
  /-- STATUS.ERR (R21). -/
  err : ResultCode
  /-- STATUS.LINK (R21). -/
  link : LinkState
  /-- STATUS.REASM_DONE (R21). -/
  reasmDone : Bool
  /-- CTRL.FILL_CRC (R23). -/
  fillCrc : Bool
  /-- CTRL.VERIFY_CRC (R23). -/
  verifyCrc : Bool
  /-- SRC_ADDR (R24). -/
  srcAddr : Word
  /-- SRC_LEN (R24). -/
  srcLen : Word
  /-- DST_ADDR (R24). -/
  dstAddr : Word
  /-- DST_CAP (R24). -/
  dstCap : Word
  /-- OUT_LEN (R25). -/
  outLen : Word
  /-- CRC_CFG.VAR (R26). -/
  crcVar : CrcVar
  /-- CRC_STATE.C (R27). -/
  crcState : BitVec 16
  /-- SEQ.NS (R29). -/
  ns : BitVec 3
  /-- SEQ.NR (R29). -/
  nr : BitVec 3
  /-- SERVER_ADDR.A (R30). -/
  serverAddr : BitVec 28
  /-- CLIENT_ADDR.A (R30). -/
  clientAddr : BitVec 28
  /-- REASM_BASE (R31). -/
  reasmBase : Word
  /-- REASM_CAP (R31). -/
  reasmCap : Word
  /-- REASM_FILL (R31). -/
  reasmFill : Word
  /-- RX_FMT (R32). -/
  rxFmt : BitVec 16
  /-- RX_DST (R32). -/
  rxDst : BitVec 28
  /-- RX_SRC (R32). -/
  rxSrc : BitVec 28
  /-- RX_CTRL (R32). -/
  rxCtrl : Byte
  /-- RX_PAY_ADDR (R32). -/
  rxPayAddr : Word
  /-- RX_PAY_LEN (R32). -/
  rxPayLen : Word
  /-- RX_CONSUMED (R32). -/
  rxConsumed : Word
  /-- BUF (R34): the bytes written since the hardware reset. -/
  buf : Memory
  /-- The model's own (log entry 2): the draw that BUF's unwritten bytes take their free values from. -/
  bufDraw : Nat
  /-- The model's own (log entry 3): the next draw not used yet. -/
  draws : Nat
  /-- The model's own (log entry 4): the inputs still to come, first one next. -/
  pending : List Input
  /-- The model's own (log entry 5): the data the last input returned to the host, where it was a read. -/
  readData : Option Word
  deriving DecidableEq, Repr

/-- The block raises no fault: it has no trap and no state in which it stops responding
(spec/60_exceptions.md R119; spec/93_implementation_defined.md part 1). No meaning raises one. -/
inductive Fault where
  deriving DecidableEq, Repr

/-- Why a step gives the host operation no meaning (spec/00_scope.md R11, "refused"). -/
inductive Refusal where
  /-- Raised by an arm of `exec` for a command without a meaning yet; no arm raises it. Safe: the run stops. -/
  | notModelled (mnemonic : String)
  /-- Raised by a host access whose width the area does not take (R38, R39, item I2). Safe: the spec refuses it. -/
  | accessWidth
  /-- Raised by a host access that is not naturally aligned (R38, R39, item I2). Safe: the spec refuses it. -/
  | misaligned
  /-- Raised by a host access outside the window (R37, item I3). Safe: the spec refuses it. -/
  | outsideWindow
  /-- Raised by a second bus master (R124, item I5). Safe: the spec refuses it. -/
  | secondMaster
  deriving DecidableEq, Repr

/-- What a step answers. -/
abbrev Result := Host.Outcome State Fault Refusal

/-- The block with parameters `p` right after a hardware reset (spec/10_state.md R36,
spec/70_reset_and_hazards.md R127), its BUF the unspecified bytes of draw 0 (R128). -/
def State.resetWith (p : Params) : State where
  params := p
  err := .ok
  link := .disconnected
  reasmDone := false
  fillCrc := true
  verifyCrc := true
  srcAddr := 0
  srcLen := 0
  dstAddr := 0
  dstCap := 0
  outLen := 0
  crcVar := .modbus
  crcState := 0xFFFF
  ns := 0
  nr := 0
  serverAddr := 0
  clientAddr := 0
  reasmBase := 0
  reasmCap := 0
  reasmFill := 0
  rxFmt := 0
  rxDst := 0
  rxSrc := 0
  rxCtrl := 0
  rxPayAddr := 0
  rxPayLen := 0
  rxConsumed := 0
  buf := []
  bufDraw := 0
  draws := 1
  pending := []
  readData := none

/-- The machine right after reset, with the parameters of the spec's vectors (log entry 1). -/
def State.reset : State := State.resetWith Config.vectorParams

end Sys2Proof.Machine
end

