-- ==== Sys2Proof/Machine/Ops.lean ====
section
/-! DEFINITION. The named operations every command shares: BUF reads and writes, range checks, byte order, the ways
a command ends (spec/00_scope.md R10, spec/20_memory.md, spec/40_common.md R65 to R69) and the hardware reset
(spec/70_reset_and_hazards.md R127, R128). -/

namespace Sys2Proof.Machine

/-! ### The list behind BUF -/

/-- The byte written at an address; none where nothing has been written since the hardware reset. This is the one
definition of what an unlisted address holds: no written value (its reading is a free value, `State.bufByte`). -/
def Memory.read? : Memory → Nat → Option Byte
  | [], _ => none
  | (x, y) :: m, a => if a = x then some y else Memory.read? m a

/-- Writes one byte, keeping the addresses strictly rising. -/
def Memory.write : Memory → Nat → Byte → Memory
  | [], a, b => [(a, b)]
  | (x, y) :: m, a, b =>
    if a < x then (a, b) :: (x, y) :: m
    else if a = x then (a, b) :: m
    else (x, y) :: Memory.write m a b

/-- Writes a byte sequence from an address upward. -/
def Memory.writeRange : Memory → Nat → List Byte → Memory
  | m, _, [] => m
  | m, a, b :: bs => Memory.writeRange (Memory.write m a b) (a + 1) bs

/-- Every address of the list is above a bound, and the addresses rise strictly. -/
def Memory.risesFrom : Nat → Memory → Bool
  | _, [] => true
  | lo, (x, _) :: m => decide (lo ≤ x) && Memory.risesFrom (x + 1) m

/-- The canonical form: addresses strictly rising. An unlisted address has no written value, so no entry can equal
what an unlisted address reads as (log entry 2). -/
def Memory.wf (m : Memory) : Bool := Memory.risesFrom 0 m

/-- Every listed address is an address of BUF. -/
def Memory.within (size : Nat) (m : Memory) : Bool := m.all fun c => decide (c.1 < size)

/-! ### BUF -/

/-- One byte of BUF: what was last written there, and otherwise the unspecified value that the last hardware reset
left (R128), a free value of the state's reset draw. -/
def State.bufByte (s : State) (a : Nat) : Byte :=
  match s.buf.read? a with
  | some b => b
  | none => Config.freeByte s.bufDraw a

/-- `MemRead(a, n)` (R10). A meaning applies it to the state before the command, the snapshot of R43. -/
def State.memRead (s : State) : Nat → Nat → List Byte
  | _, 0 => []
  | a, n + 1 => s.bufByte a :: State.memRead s (a + 1) n

/-- `MemWrite(a, bs)` (R10). -/
def State.memWrite (s : State) (a : Nat) (bs : List Byte) : State :=
  { s with buf := s.buf.writeRange a bs }

/-- `InRange(a, n)` (R10, R66): unbounded arithmetic, so no wrap-around (R8). -/
abbrev State.inRange (s : State) (a n : Nat) : Prop := a + n ≤ s.params.bufSize

/-- The `n` free values of draw `d` for the addresses from `a` up. -/
def freeWindow (d : Nat) : Nat → Nat → List Byte
  | _, 0 => []
  | a, n + 1 => Config.freeByte d a :: freeWindow d (a + 1) n

/-- Every byte of the window `[a, a + n)` becomes unspecified (R69): a free value of a draw used for nothing else. -/
def State.unspecify (s : State) (a n : Nat) : State :=
  { s with buf := s.buf.writeRange a (freeWindow s.draws a n), draws := s.draws + 1 }

/-! ### Byte order (R10, R40) -/

/-- `le16(v)`: low byte first. -/
def le16 (v : BitVec 16) : List Byte := [v.extractLsb' 0 8, v.extractLsb' 8 8]

/-- `be16(v)`: high byte first. -/
def be16 (v : BitVec 16) : List Byte := [v.extractLsb' 8 8, v.extractLsb' 0 8]

/-- Byte `i` of a sequence. No rule reads past the end; there it would be 0. -/
def byteAt (bs : List Byte) (i : Nat) : Byte := bs.getD i 0

/-- `rdle16(s, i)`: `s[i] | (s[i+1] << 8)`. -/
def rdle16 (bs : List Byte) (i : Nat) : BitVec 16 :=
  (byteAt bs i).setWidth 16 ||| ((byteAt bs (i + 1)).setWidth 16 <<< 8)

/-- The bytes `s[i .. j)` of a sequence (R9). -/
def slice (bs : List Byte) (i j : Nat) : List Byte := (bs.drop i).take (j - i)

/-! ### How a command ends (R65, R67, R68, R69) -/

/-- STATUS.ERR takes a code. Every command writes it (R21). -/
def State.withErr (s : State) (e : ResultCode) : State := { s with err := e }

/-- `raise E` (R68): STATUS.ERR takes the code and every other register and BUF keep their values. There is no trap
entry and so no return from one (R119, R120): this is the block's whole error delivery. -/
def raise (s : State) (e : ResultCode) : Result := .next (s.withErr e)

/-- `raise BufferTooSmall` (R69): beside R68, the window `[a, a + n)` becomes unspecified. -/
def raiseTooSmall (s : State) (a n : Nat) : Result := .next ((s.unspecify a n).withErr .bufferTooSmall)

/-- Stage 7 (R67): the command succeeds with the writes already made to `s`. -/
def complete (s : State) : Result := .next (s.withErr .ok)

/-- The output of an output command (R25): the bytes go to BUF at DST_ADDR, their number to OUT_LEN. -/
def State.emit (s : State) (bs : List Byte) : State :=
  { s with buf := s.buf.writeRange s.dstAddr.toNat bs, outLen := BitVec.ofNat 32 bs.length }

/-! ### Register updates the commands share -/

/-- The CRC variant and running value (R26, R27). -/
def State.withCrc (s : State) (v : CrcVar) (c : BitVec 16) : State := { s with crcVar := v, crcState := c }

/-- The link leaves Connected or starts over: LINK takes a state, the counters and the reassembly are cleared
(R101, R102). -/
def State.restartLink (s : State) (l : LinkState) : State :=
  { s with link := l, ns := 0, nr := 0, reasmFill := 0, reasmDone := false }

/-- RX_CONSUMED takes an offset from SRC_ADDR (R109). -/
def State.withConsumed (s : State) (p : Nat) : State := { s with rxConsumed := BitVec.ofNat 32 p }

/-- NS advances modulo 8 (R100). -/
def State.advanceNs (s : State) : State := { s with ns := s.ns + 1 }

/-- NR advances modulo 8 (R100). -/
def State.advanceNr (s : State) : State := { s with nr := s.nr + 1 }

/-! ### Hardware reset -/

/-- A hardware reset (R127, R128): every register takes its reset value and every byte of BUF becomes unspecified.
The parameters stay, and so do the inputs that come after it (log entry 9). -/
def State.hardReset (s : State) : State :=
  { State.resetWith s.params with bufDraw := s.draws, draws := s.draws + 1, pending := s.pending }

/-- The next input leaves the list; what it returns to the host is not known yet. -/
def State.taken (s : State) (rest : List Input) : State := { s with pending := rest, readData := none }

end Sys2Proof.Machine
end

