-- ==== Sys2Proof/Machine/Crc.lean ====
section
/-! DEFINITION. The CRC-16 algorithms (spec/41_checksum.md R73 to R76) and the DNP3 block layout (R86). -/

namespace Sys2Proof.Machine

/-- The reflected polynomial P of a variant (R73). -/
def CrcVar.poly : CrcVar → BitVec 16
  | .modbus => 0xA001
  | .ccitt => 0x8408
  | .dnp3 => 0xA6BC

/-- The initial value of a variant (R73); CCITT's is a parameter (R6). -/
def CrcVar.init (P : Params) : CrcVar → BitVec 16
  | .modbus => 0xFFFF
  | .ccitt => P.ccittInit
  | .dnp3 => 0x0000

/-- The final XOR of a variant (R73); CCITT's is a parameter (R6). -/
def CrcVar.xorOut (P : Params) : CrcVar → BitVec 16
  | .modbus => 0x0000
  | .ccitt => P.ccittXorOut
  | .dnp3 => 0xFFFF

/-- One shift of the CRC register (R74, the body of its loop). -/
def crcShift (poly c : BitVec 16) : BitVec 16 := if c.getLsbD 0 then (c >>> 1) ^^^ poly else c >>> 1

/-- `k` shifts in a row. -/
def crcShifts (poly : BitVec 16) : Nat → BitVec 16 → BitVec 16
  | 0, c => c
  | k + 1, c => crcShifts poly k (crcShift poly c)

/-- `CrcStep(var, c, b)` (R74). -/
def crcStep (v : CrcVar) (c : BitVec 16) (b : Byte) : BitVec 16 := crcShifts v.poly 8 (c ^^^ b.setWidth 16)

/-- `CrcFold(var, c, s)` (R75). -/
def crcFold (v : CrcVar) : BitVec 16 → List Byte → BitVec 16
  | c, [] => c
  | c, b :: bs => crcFold v (crcStep v c b) bs

/-- `Crc(var, s)` (R76). -/
def crc (P : Params) (v : CrcVar) (bs : List Byte) : BitVec 16 := crcFold v (v.init P) bs ^^^ v.xorOut P

/-- CRC_RESULT (spec/10_state.md R28): a view of CRC_STATE and CRC_CFG. -/
def State.crcResult (s : State) : BitVec 16 := s.crcState ^^^ s.crcVar.xorOut s.params

/-- The number of DNP3 blocks of `n` data bytes: `ceil(n / 16)` (R86). -/
def dnp3Count (n : Nat) : Nat := (n + 15) / 16

/-- `k` blocks of up to 16 bytes, each followed by its DNP3 CRC, low byte first (R86). -/
def dnp3Cut (P : Params) : Nat → List Byte → List Byte
  | 0, _ => []
  | k + 1, bs => bs.take 16 ++ le16 (crc P .dnp3 (bs.take 16)) ++ dnp3Cut P k (bs.drop 16)

/-- The DNP3 layout of a byte sequence (R86). -/
def dnp3Layout (P : Params) (bs : List Byte) : List Byte := dnp3Cut P (dnp3Count bs.length) bs

end Sys2Proof.Machine
end

