-- ==== Sys2Proof/Machine/Operands.lean ====
section
/-! DEFINITION. The operand forms: the variant selector of the command word (spec/30_encoding.md R54) and the ranges
that the operand registers name (spec/40_common.md R66). -/

namespace Sys2Proof.Machine

/-- The variant a 2-bit selector names; 3 names none (R53, spec/10_state.md R26). -/
def selectVar (var : BitVec 2) : Option CrcVar :=
  match var.toNat with
  | 0 => some .modbus
  | 1 => some .ccitt
  | 2 => some .dnp3
  | _ => none

/-- The 2-bit code of a variant (R73). -/
def CrcVar.code : CrcVar → BitVec 2
  | .modbus => 0
  | .ccitt => 1
  | .dnp3 => 2

/-- The source range (SRC_ADDR, SRC_LEN) is inside BUF. -/
abbrev State.srcInRange (s : State) : Prop := s.inRange s.srcAddr.toNat s.srcLen.toNat

/-- The destination range (DST_ADDR, DST_CAP) is inside BUF. -/
abbrev State.dstInRange (s : State) : Prop := s.inRange s.dstAddr.toNat s.dstCap.toNat

/-- The reassembly range (REASM_BASE, REASM_CAP) is inside BUF. -/
abbrev State.reasmInRange (s : State) : Prop := s.inRange s.reasmBase.toNat s.reasmCap.toNat

/-- The bytes of the source range. -/
def State.srcBytes (s : State) : List Byte := s.memRead s.srcAddr.toNat s.srcLen.toNat

/-- A failing output command leaves its whole destination range unspecified (R69). -/
def raiseOutputTooSmall (s : State) : Result := raiseTooSmall s s.dstAddr.toNat s.dstCap.toNat

end Sys2Proof.Machine
end

