-- ==== Sys2Proof/Machine/Flags.lean ====
section
/-! DEFINITION. The flags and packed registers: STATUS, CTRL, SEQ, CRC_CFG (spec/10_state.md R21, R23, R26, R29, R33),
and the control byte of an I-frame (spec/42_hdlc.md R93). -/

namespace Sys2Proof.Machine

/-- The 4-bit code of a result (spec/60_exceptions.md R114). -/
def ResultCode.code : ResultCode → BitVec 4
  | .ok => 0
  | .generic => 1
  | .invalidArg => 2
  | .incompleteData => 3
  | .bufferTooSmall => 4
  | .notSupported => 5
  | .overflow => 6
  | .invalidState => 7
  | .checksum => 8
  | .invalidFrame => 9
  | .outOfBounds => 10

/-- The 2-bit code of a link state (R21). -/
def LinkState.code : LinkState → BitVec 2
  | .disconnected => 0
  | .connecting => 1
  | .connected => 2

/-- STATUS as read (R21): ERR in [3:0], LINK in [5:4], REASM_DONE in [6], the rest 0. -/
def State.statusWord (s : State) : Word :=
  s.err.code.setWidth 32 ||| (s.link.code.setWidth 32 <<< 4) ||| ((BitVec.ofBool s.reasmDone).setWidth 32 <<< 6)

/-- CTRL as read (R23): FILL_CRC in [0], VERIFY_CRC in [1], the rest 0. -/
def State.ctrlWord (s : State) : Word :=
  (BitVec.ofBool s.fillCrc).setWidth 32 ||| ((BitVec.ofBool s.verifyCrc).setWidth 32 <<< 1)

/-- A host write to CTRL (R23): the two bits are stored, the reserved bits are ignored. -/
def State.writeCtrl (s : State) (w : Word) : State :=
  { s with fillCrc := w.getLsbD 0, verifyCrc := w.getLsbD 1 }

/-- A host write to CRC_CFG (R26): bits [1:0] = 3 leave VAR unchanged, and 0 to 2 are stored. -/
def State.writeCrcCfg (s : State) (w : Word) : State :=
  match selectVar (w.extractLsb' 0 2) with
  | some v => { s with crcVar := v }
  | none => s

/-- SEQ as read (R29): NS in [2:0], NR in [6:4], the rest 0. -/
def State.seqWord (s : State) : Word := s.ns.setWidth 32 ||| (s.nr.setWidth 32 <<< 4)

/-- The control byte `(NR << 5) | (NS << 1) | F` (R93). -/
def iframeControl (nr ns : BitVec 3) (final : Bool) : Byte :=
  (nr.setWidth 8 <<< 5) ||| (ns.setWidth 8 <<< 1) ||| (BitVec.ofBool final).setWidth 8

/-- The final bit of a control byte (R93). -/
def finalBit (c : Byte) : Bool := c.getLsbD 0

/-- Reassembly is on: the session is Connected and owns a reassembly buffer (spec/42_hdlc.md R111). -/
def State.reassembling (s : State) : Bool := decide (s.link = .connected) && decide (s.reasmCap ≠ 0)

/-- `f0` (R111): a finished message is released by the next append. -/
def State.reasmStart (s : State) : Nat := if s.reasmDone then 0 else s.reasmFill.toNat

end Sys2Proof.Machine
end

