-- ==== Sys2Proof/Machine/Frame.lean ====
section
/-! DEFINITION. HDLC frames: VLQ addresses (spec/42_hdlc.md R90, R91), the two frame forms (R88, R89, R95 to R97) and
reading one frame from a byte sequence (R106 to R108, R113 stage 5). -/

namespace Sys2Proof.Machine

/-! ### Addresses -/

/-- The number of bytes of `Vlq(a)` (R90): the least k ≥ 1 with a < 2^(7k). -/
def vlqLen (a : BitVec 28) : Nat :=
  if a.toNat < 2 ^ 7 then 1 else if a.toNat < 2 ^ 14 then 2 else if a.toNat < 2 ^ 21 then 3 else 4

/-- One byte of `Vlq(a)`: seven address bits in [7:1], and bit 0 set on the last byte (R90). -/
def vlqByte (a : BitVec 28) (shift : Nat) (last : Bool) : Byte :=
  (((a >>> shift).setWidth 8 &&& 0x7F#8) <<< 1) ||| (BitVec.ofBool last).setWidth 8

/-- The bytes that carry the low `k` groups of `a`, the most significant group first (R90). -/
def vlqGroups (a : BitVec 28) : Nat → List Byte
  | 0 => []
  | k + 1 => vlqByte a (7 * k) (decide (k = 0)) :: vlqGroups a k

/-- `Vlq(a)` (R90). -/
def vlq (a : BitVec 28) : List Byte := vlqGroups a (vlqLen a)

/-- The loop of `VlqDecode` (R91): `fuel` rounds left, `j` bytes taken, `a` read so far. -/
def vlqDecodeLoop (bs : List Byte) (q lim : Nat) : Nat → Nat → BitVec 28 → Option (BitVec 28 × Nat)
  | 0, _, _ => none
  | fuel + 1, j, a =>
    if lim ≤ q + j then none
    else
      let b := byteAt bs (q + j)
      let a' := (a <<< 7) ||| (b >>> 1).setWidth 28
      if b.getLsbD 0 then some (a', j + 1) else vlqDecodeLoop bs q lim fuel (j + 1) a'

/-- `VlqDecode(s, q, lim)` (R91): the address and its byte count, or none for FAIL. -/
def vlqDecode (bs : List Byte) (q lim : Nat) : Option (BitVec 28 × Nat) := vlqDecodeLoop bs q lim 4 0 0

/-! ### Building -/

/-- The flag byte (R88). -/
def flagByte : Byte := 0x7E

/-- The SNRM control byte (R94). -/
def snrmControl : Byte := 0x93

/-- The header from the first format byte through the control byte (R95): `be16(0xA000 | L) ++ A ++ B ++ [C]`. -/
def frameHeader (dst src : BitVec 28) (L : Nat) (c : Byte) : List Byte :=
  be16 (0xA000#16 ||| BitVec.ofNat 16 L) ++ vlq dst ++ vlq src ++ [c]

/-- The length L of a short form (R95): `kd + ks + 5`. -/
def shortLen (dst src : BitVec 28) : Nat := (vlq dst).length + (vlq src).length + 5

/-- The length L of an info form with `n` payload bytes (R95): `kd + ks + 7 + n`. -/
def infoLen (dst src : BitVec 28) (n : Nat) : Nat := (vlq dst).length + (vlq src).length + 7 + n

/-- The short form (R95). -/
def shortFrame (P : Params) (dst src : BitVec 28) (c : Byte) : List Byte :=
  let hdr := frameHeader dst src (shortLen dst src) c
  [flagByte] ++ hdr ++ le16 (crc P .ccitt hdr) ++ [flagByte]

/-- A check sequence: the CCITT CRC, or the placeholder `00 00` where the block does not fill it (R104). -/
def checkSequence (P : Params) (fill : Bool) (bs : List Byte) : List Byte :=
  if fill then le16 (crc P .ccitt bs) else [0x00, 0x00]

/-- The info form up to its FCS: header, HCS, payload (R95, R96). -/
def infoBody (P : Params) (fill : Bool) (dst src : BitVec 28) (c : Byte) (payload : List Byte) : List Byte :=
  let hdr := frameHeader dst src (infoLen dst src payload.length) c
  hdr ++ checkSequence P fill hdr ++ payload

/-- The info form (R95, R97, R104). -/
def infoFrame (P : Params) (fill : Bool) (dst src : BitVec 28) (c : Byte) (payload : List Byte) : List Byte :=
  let body := infoBody P fill dst src c payload
  [flagByte] ++ body ++ checkSequence P fill body ++ [flagByte]

/-! ### Reading -/

/-- What the data stage of HDLC_PARSE finds in a frame it accepts. Offsets count from the first input byte. -/
structure RxFrame where
  /-- FMT, the format field. -/
  fmt : BitVec 16
  /-- The destination address. -/
  dst : BitVec 28
  /-- The source address. -/
  src : BitVec 28
  /-- C, the control byte. -/
  ctrl : Byte
  /-- The frame is in info form (r ≥ 4). -/
  info : Bool
  /-- p + h + 2, where the payload starts. -/
  payOff : Nat
  /-- n, the payload length. -/
  payLen : Nat
  /-- p + L, where the closing flag stands. -/
  consumed : Nat
  deriving DecidableEq, Repr

/-- The outcome of the data stage of HDLC_PARSE (R113); `p` is where the frame starts, past the opening flags. -/
inductive ParseResult where
  | incomplete
  | invalid (p : Nat)
  | badCrc (p : Nat)
  | frame (f : RxFrame)
  deriving DecidableEq, Repr

/-- The least index of a flag (R106). -/
def firstFlag : List Byte → Option Nat
  | [] => none
  | b :: bs => if b = flagByte then some 0 else (firstFlag bs).map (· + 1)

/-- How many flags a sequence starts with (R106: the run of opening flags). -/
def flagRun : List Byte → Nat
  | [] => 0
  | b :: bs => if b = flagByte then flagRun bs + 1 else 0

/-- The length field L of a format field (R89). -/
def fmtLength (fmt : BitVec 16) : Nat := (fmt.extractLsb' 0 11).toNat

/-- The frame type of a format field (R89). -/
def fmtType (fmt : BitVec 16) : BitVec 4 := fmt.extractLsb' 12 4

/-- The format field at an index: `s[p] << 8 | s[p+1]` (R107). -/
def fmtAt (bs : List Byte) (p : Nat) : BitVec 16 :=
  ((byteAt bs p).setWidth 16 <<< 8) ||| (byteAt bs (p + 1)).setWidth 16

/-- The CRC that follows `bs[p .. e)` is the CCITT CRC of those bytes (R108). -/
def crcMatches (P : Params) (bs : List Byte) (p e : Nat) : Bool := decide (crc P .ccitt (slice bs p e) = rdle16 bs e)

/-- R113 from the control byte on: the header of `h` bytes at `p` is read, L is the length field. -/
def parseTail (P : Params) (verify : Bool) (bs : List Byte) (p L : Nat) (dst src : BitVec 28) (h : Nat) :
    ParseResult :=
  let r := L - h
  if r = 3 then .invalid p
  else if verify && !crcMatches P bs p (p + h) then .badCrc p
  else if r = 2 then
    .frame { fmt := fmtAt bs p, dst := dst, src := src, ctrl := byteAt bs (p + h - 1), info := false,
             payOff := p + h + 2, payLen := 0, consumed := p + L }
  else if verify && !crcMatches P bs p (p + h + 2 + (r - 4)) then .badCrc p
  else
    .frame { fmt := fmtAt bs p, dst := dst, src := src, ctrl := byteAt bs (p + h - 1), info := true,
             payOff := p + h + 2, payLen := r - 4, consumed := p + L }

/-- R113 from the two addresses on. -/
def parseAddresses (P : Params) (verify : Bool) (bs : List Byte) (p L : Nat) : ParseResult :=
  match vlqDecode bs (p + 2) (p + L) with
  | none => .invalid p
  | some (dst, kd) =>
    match vlqDecode bs (p + 2 + kd) (p + L) with
    | none => .invalid p
    | some (src, ks) =>
      let h := 2 + kd + ks + 1
      if L < h + 2 then .invalid p else parseTail P verify bs p L dst src h

/-- R113 from the format field at `p` on. -/
def parseAt (P : Params) (verify : Bool) (bs : List Byte) (p : Nat) : ParseResult :=
  if bs.length < p + 2 then .incomplete
  else
    let fmt := fmtAt bs p
    let L := fmtLength fmt
    if fmtType fmt ≠ 0xA#4 then .invalid p
    else if L < 7 then .invalid p
    else if bs.length < p + L + 1 then .incomplete
    else if byteAt bs (p + L) ≠ flagByte then .invalid p
    else parseAddresses P verify bs p L

/-- The data stage of HDLC_PARSE (R106, R113): the flag scan, then the frame after the run of flags. -/
def parseFrame (P : Params) (verify : Bool) (bs : List Byte) : ParseResult :=
  match firstFlag bs with
  | none => .incomplete
  | some i => parseAt P verify bs (i + flagRun (bs.drop i))

end Sys2Proof.Machine
end

