-- ==== Sys2Proof/Machine/Checksum.lean ====
section
/-! DEFINITION. The commands of the checksum family (spec/41_checksum.md R80 to R87). A selector of 3 fails with
InvalidArg in stage 1 (spec/30_encoding.md R57 step 3), before anything else is read. -/

namespace Sys2Proof.Machine

/-- CRC_INIT (R80). -/
def execCrcInit (var : BitVec 2) (s : State) : Result :=
  match selectVar var with
  | none => raise s .invalidArg
  | some v => complete (s.withCrc v (v.init s.params))

/-- CRC_UPDATE (R81). -/
def execCrcUpdate (s : State) : Result :=
  if ¬ s.srcInRange then raise s .outOfBounds
  else complete (s.withCrc s.crcVar (crcFold s.crcVar s.crcState s.srcBytes))

/-- CRC_BYTE (R82). -/
def execCrcByte (imm : Byte) (s : State) : Result :=
  complete (s.withCrc s.crcVar (crcStep s.crcVar s.crcState imm))

/-- CRC_COMPUTE (R83). -/
def execCrcCompute (var : BitVec 2) (s : State) : Result :=
  match selectVar var with
  | none => raise s .invalidArg
  | some v =>
    if ¬ s.srcInRange then raise s .outOfBounds
    else complete (s.withCrc v (crcFold v (v.init s.params) s.srcBytes))

/-- CRC_STORE (R84). -/
def execCrcStore (s : State) : Result :=
  if ¬ s.dstInRange then raise s .outOfBounds
  else if s.dstCap.toNat < 2 then raiseOutputTooSmall s
  else complete (s.emit (le16 s.crcResult))

/-- The CRC that CRC_VERIFY expects after the source range: `rdle16(MemRead(SRC_ADDR + SRC_LEN, 2), 0)` (R85). -/
def State.storedCrc (s : State) : BitVec 16 := rdle16 (s.memRead (s.srcAddr.toNat + s.srcLen.toNat) 2) 0

/-- CRC_VERIFY (R85). -/
def execCrcVerify (var : BitVec 2) (s : State) : Result :=
  match selectVar var with
  | none => raise s .invalidArg
  | some v =>
    if ¬ s.inRange s.srcAddr.toNat (s.srcLen.toNat + 2) then raise s .outOfBounds
    else if crc s.params v s.srcBytes ≠ s.storedCrc then raise s .checksum
    else complete s

/-- DNP3_BLOCKS (R87). -/
def execDnp3Blocks (s : State) : Result :=
  if ¬ s.srcInRange then raise s .outOfBounds
  else if ¬ s.dstInRange then raise s .outOfBounds
  else if s.dstCap.toNat < s.srcLen.toNat + 2 * dnp3Count s.srcLen.toNat then raiseOutputTooSmall s
  else complete (s.emit (dnp3Layout s.params s.srcBytes))

end Sys2Proof.Machine
end

