-- ==== Sys2Proof/Machine/Common.lean ====
section
/-! DEFINITION. NOP (spec/40_common.md R72). -/

namespace Sys2Proof.Machine

/-- NOP (R72): only STATUS.ERR, which becomes Ok. -/
def execNop (s : State) : Result := complete s

end Sys2Proof.Machine
end

