-- ==== Sys2Proof/Machine/Link.lean ====
section
/-! DEFINITION. The commands of the link family (spec/42_hdlc.md R99 to R113). -/

namespace Sys2Proof.Machine

/-- HDLC_RESET (R101). -/
def execHdlcReset (s : State) : Result := complete (s.restartLink .disconnected)

/-- The SNRM frame of the session (R92, R94, R95). -/
def State.snrmFrame (s : State) : List Byte := shortFrame s.params s.serverAddr s.clientAddr snrmControl

/-- HDLC_BUILD_SNRM (R102); legal in every link state. -/
def execHdlcBuildSnrm (s : State) : Result :=
  if ¬ s.dstInRange then raise s .outOfBounds
  else if s.dstCap.toNat < shortLen s.serverAddr s.clientAddr + 2 then raiseOutputTooSmall s
  else complete ((s.emit s.snrmFrame).restartLink .connecting)

/-- HDLC_SET_CONNECTED (R103). -/
def execHdlcSetConnected (s : State) : Result :=
  if s.link ≠ .connecting then raise s .invalidState
  else complete { s with link := .connected }

/-- The I-frame of the session around the source range (R92, R93, R95, R104). -/
def State.iframe (s : State) (final : Bool) : List Byte :=
  infoFrame s.params s.fillCrc s.serverAddr s.clientAddr (iframeControl s.nr s.ns final) s.srcBytes

/-- HDLC_BUILD_IFRAME (R105). -/
def execHdlcBuildIframe (final : Bool) (s : State) : Result :=
  if s.link ≠ .connected then raise s .invalidState
  else if ¬ s.srcInRange then raise s .outOfBounds
  else if ¬ s.dstInRange then raise s .outOfBounds
  else if s.srcLen.toNat = 0 then raise s .invalidArg
  else if 2047 < infoLen s.serverAddr s.clientAddr s.srcLen.toNat then raise s .invalidArg
  else if s.dstCap.toNat < infoLen s.serverAddr s.clientAddr s.srcLen.toNat + 2 then raiseOutputTooSmall s
  else if final then complete (s.emit (s.iframe final)).advanceNs
  else complete (s.emit (s.iframe final))

/-- The payload of a received frame, as bytes of the parse input. -/
def RxFrame.payload (f : RxFrame) (bs : List Byte) : List Byte := slice bs f.payOff (f.payOff + f.payLen)

/-- The RX registers of an accepted frame (R113 stage 7, R109). -/
def State.receive (s : State) (f : RxFrame) : State :=
  { s with
    rxFmt := f.fmt, rxDst := f.dst, rxSrc := f.src, rxCtrl := f.ctrl,
    rxPayAddr := BitVec.ofNat 32 (s.srcAddr.toNat + f.payOff), rxPayLen := BitVec.ofNat 32 f.payLen,
    rxConsumed := BitVec.ofNat 32 f.consumed }

/-- The append of R111: the payload goes to the reassembly region at `f0`, REASM_DONE takes the final bit. -/
def State.append (s : State) (f0 : Nat) (payload : List Byte) (done : Bool) : State :=
  { s with
    buf := s.buf.writeRange (s.reasmBase.toNat + f0) payload,
    reasmFill := BitVec.ofNat 32 (f0 + payload.length), reasmDone := done }

/-- NR advances where the control byte has its final bit set (R112). -/
def State.countFrame (s : State) (c : Byte) : State := if finalBit c then s.advanceNr else s

/-- Stages 6 and 7 of HDLC_PARSE for an accepted frame (R111, R112, R113). The payload is read from the input bytes
`bs`, taken before any write (R43). -/
def acceptFrame (s : State) (bs : List Byte) (f : RxFrame) : Result :=
  if s.link = .connected ∧ f.info = true then
    if s.reasmCap ≠ 0 then
      if s.reasmCap.toNat < s.reasmStart + f.payLen then
        raiseTooSmall s (s.reasmBase.toNat + s.reasmStart) (s.reasmCap.toNat - s.reasmStart)
      else
        complete (((s.append s.reasmStart (f.payload bs) (finalBit f.ctrl)).countFrame f.ctrl).receive f)
    else complete ((s.countFrame f.ctrl).receive f)
  else complete (s.receive f)

/-- HDLC_PARSE (R113). -/
def execHdlcParse (s : State) : Result :=
  if ¬ s.srcInRange then raise s .outOfBounds
  else if s.reassembling = true ∧ ¬ s.reasmInRange then raise s .outOfBounds
  else
    match parseFrame s.params s.verifyCrc s.srcBytes with
    | .incomplete => raise s .incompleteData
    | .invalid p => raise (s.withConsumed p) .invalidFrame
    | .badCrc p => raise (s.withConsumed p) .checksum
    | .frame f => acceptFrame s s.srcBytes f

end Sys2Proof.Machine
end

