-- ==== Sys2Proof/Syntax.lean ====
section
/-! DEFINITION. The commands of the block: one constructor per row of spec/opcode_table.json
(spec/30_encoding.md R55), with the operand fields R54 gives it. -/

namespace Sys2Proof

/-- A command. Every other operand comes from the registers (R54). -/
inductive Instr where
  /-- NOP (R72). -/
  | nop
  /-- CRC_INIT (R80); `var` is the 2-bit selector VAR. -/
  | crcInit (var : BitVec 2)
  /-- CRC_UPDATE (R81). -/
  | crcUpdate
  /-- CRC_BYTE (R82); `imm` is IMM8. -/
  | crcByte (imm : Byte)
  /-- CRC_COMPUTE (R83). -/
  | crcCompute (var : BitVec 2)
  /-- CRC_STORE (R84). -/
  | crcStore
  /-- CRC_VERIFY (R85). -/
  | crcVerify (var : BitVec 2)
  /-- DNP3_BLOCKS (R87). -/
  | dnp3Blocks
  /-- HDLC_RESET (R101). -/
  | hdlcReset
  /-- HDLC_BUILD_SNRM (R102). -/
  | hdlcBuildSnrm
  /-- HDLC_SET_CONNECTED (R103). -/
  | hdlcSetConnected
  /-- HDLC_BUILD_IFRAME (R105); `final` is the final bit F. -/
  | hdlcBuildIframe (final : Bool)
  /-- HDLC_PARSE (R113). -/
  | hdlcParse
  deriving DecidableEq, Repr

end Sys2Proof
end

