-- ==== Sys2Proof/Machine/Dispatch.lean ====
section
/-! DEFINITION. One arm per command. -/

namespace Sys2Proof.Machine

def exec (i : Instr) (s : State) : Host.Outcome State Fault Refusal :=
  match i with
  | .nop => Sys2Proof.Machine.execNop s
  | .crcInit var => Sys2Proof.Machine.execCrcInit var s
  | .crcUpdate => Sys2Proof.Machine.execCrcUpdate s
  | .crcByte imm => Sys2Proof.Machine.execCrcByte imm s
  | .crcCompute var => Sys2Proof.Machine.execCrcCompute var s
  | .crcStore => Sys2Proof.Machine.execCrcStore s
  | .crcVerify var => Sys2Proof.Machine.execCrcVerify var s
  | .dnp3Blocks => Sys2Proof.Machine.execDnp3Blocks s
  | .hdlcReset => Sys2Proof.Machine.execHdlcReset s
  | .hdlcBuildSnrm => Sys2Proof.Machine.execHdlcBuildSnrm s
  | .hdlcSetConnected => Sys2Proof.Machine.execHdlcSetConnected s
  | .hdlcBuildIframe final => Sys2Proof.Machine.execHdlcBuildIframe final s
  | .hdlcParse => Sys2Proof.Machine.execHdlcParse s

end Sys2Proof.Machine
end

