-- ==== Sys2Proof/WellFormed.lean ====
section
/-! DEFINITION. The one check on a command's operands: VAR = 3 is illegal (spec/30_encoding.md R53, R58). IMM8 and
F take every value of their width. -/

namespace Sys2Proof

/-- VAR names a variant: 0, 1 or 2 (R53). -/
def legalVar (var : BitVec 2) : Bool := var != 3#2

/-- The operands of a command are ones the encoding admits. -/
def Instr.wellFormed : Instr → Bool
  | .nop => true
  | .crcInit var => legalVar var
  | .crcUpdate => true
  | .crcByte _ => true
  | .crcCompute var => legalVar var
  | .crcStore => true
  | .crcVerify var => legalVar var
  | .dnp3Blocks => true
  | .hdlcReset => true
  | .hdlcBuildSnrm => true
  | .hdlcSetConnected => true
  | .hdlcBuildIframe _ => true
  | .hdlcParse => true

end Sys2Proof
end

