-- ==== Sys2Proof/Decode.lean ====
section
/-! DEFINITION. Decoding a command word in the order of spec/30_encoding.md R57, and assembling one (R61). -/

namespace Sys2Proof

/-- The 13 opcodes of R55. -/
inductive Opcode where
  | nop | crcInit | crcUpdate | crcByte | crcCompute | crcStore | crcVerify | dnp3Blocks
  | hdlcReset | hdlcBuildSnrm | hdlcSetConnected | hdlcBuildIframe | hdlcParse
  deriving DecidableEq, Repr

/-- The column OPC of R55. -/
def Opcode.code : Opcode → BitVec 8
  | .nop => 0x00
  | .crcInit => 0x01
  | .crcUpdate => 0x02
  | .crcByte => 0x03
  | .crcCompute => 0x04
  | .crcStore => 0x05
  | .crcVerify => 0x06
  | .dnp3Blocks => 0x07
  | .hdlcReset => 0x10
  | .hdlcBuildSnrm => 0x11
  | .hdlcSetConnected => 0x12
  | .hdlcBuildIframe => 0x13
  | .hdlcParse => 0x14

/-- The opcode a byte names; the other 243 values are reserved (R58). -/
def Opcode.ofCode (b : BitVec 8) : Option Opcode :=
  match b.toNat with
  | 0x00 => some .nop
  | 0x01 => some .crcInit
  | 0x02 => some .crcUpdate
  | 0x03 => some .crcByte
  | 0x04 => some .crcCompute
  | 0x05 => some .crcStore
  | 0x06 => some .crcVerify
  | 0x07 => some .dnp3Blocks
  | 0x10 => some .hdlcReset
  | 0x11 => some .hdlcBuildSnrm
  | 0x12 => some .hdlcSetConnected
  | 0x13 => some .hdlcBuildIframe
  | 0x14 => some .hdlcParse
  | _ => none

/-- The bit mask of the field VAR (R55). -/
def varMask : Word := 0x00000300#32

/-- The bit mask of the field F (R55). -/
def finalMask : Word := 0x00000400#32

/-- The bit mask of the field IMM8 (R55). -/
def imm8Mask : Word := 0x00FF0000#32

/-- The bits outside OPC that a command's word may set: the column "fields" of R55. -/
def Opcode.allowed : Opcode → Word
  | .nop => 0
  | .crcInit => varMask
  | .crcUpdate => 0
  | .crcByte => imm8Mask
  | .crcCompute => varMask
  | .crcStore => 0
  | .crcVerify => varMask
  | .dnp3Blocks => 0
  | .hdlcReset => 0
  | .hdlcBuildSnrm => 0
  | .hdlcSetConnected => 0
  | .hdlcBuildIframe => finalMask
  | .hdlcParse => 0

/-- The field OPC of a word (R53). -/
def opcField (w : Word) : BitVec 8 := w.extractLsb' 0 8

/-- The field VAR of a word (R53). -/
def varField (w : Word) : BitVec 2 := w.extractLsb' 8 2

/-- The field F of a word (R53). -/
def finalField (w : Word) : Bool := w.getLsbD 10

/-- The field IMM8 of a word (R53). -/
def imm8Field (w : Word) : Byte := w.extractLsb' 16 8

/-- The command of an opcode, its operands read from the word (R54: the fields are used as they are). -/
def Opcode.instr (w : Word) : Opcode → Instr
  | .nop => .nop
  | .crcInit => .crcInit (varField w)
  | .crcUpdate => .crcUpdate
  | .crcByte => .crcByte (imm8Field w)
  | .crcCompute => .crcCompute (varField w)
  | .crcStore => .crcStore
  | .crcVerify => .crcVerify (varField w)
  | .dnp3Blocks => .dnp3Blocks
  | .hdlcReset => .hdlcReset
  | .hdlcBuildSnrm => .hdlcBuildSnrm
  | .hdlcSetConnected => .hdlcSetConnected
  | .hdlcBuildIframe => .hdlcBuildIframe (finalField w)
  | .hdlcParse => .hdlcParse

/-- Why a word is no command (R57 steps 1 to 3). The block goes on: it reports the code in STATUS.ERR. -/
inductive DecodeError where
  /-- Step 1: the low byte is no opcode. -/
  | notSupported
  /-- Steps 2 and 3: a bit outside the allowed fields is 1, or VAR = 3. -/
  | invalidArg
  deriving DecidableEq, Repr

/-- R57: the first step that applies decides. -/
def decode (w : Word) : Except DecodeError Instr :=
  match Opcode.ofCode (opcField w) with
  | none => .error .notSupported
  | some op =>
    if w &&& ~~~(0x000000FF#32 ||| op.allowed) ≠ 0#32 then .error .invalidArg
    else if (op.instr w).wellFormed then .ok (op.instr w)
    else .error .invalidArg

/-- The word the host hands the decoder for a table row (bit 0 the least significant bit of the one 32-bit word). -/
def decodeTableWord (nbits w : Nat) : Option Instr :=
  let v := w % 2 ^ nbits
  if v < 2 ^ 32 then
    match decode (BitVec.ofNat 32 v) with
    | .ok i => some i
    | .error _ => none
  else none

/-- R61: the word is `OPC | VAR << 8 | F << 10 | IMM8 << 16`. -/
def assembleWord (op : Opcode) (var : BitVec 2) (final : Bool) (imm : Byte) : Word :=
  op.code.setWidth 32 ||| (var.setWidth 32 <<< 8) ||| ((BitVec.ofBool final).setWidth 32 <<< 10)
    ||| (imm.setWidth 32 <<< 16)

/-- The encoder: the word of a command, every field it does not use 0 (R55). -/
def encode : Instr → Word
  | .nop => assembleWord .nop 0 false 0
  | .crcInit var => assembleWord .crcInit var false 0
  | .crcUpdate => assembleWord .crcUpdate 0 false 0
  | .crcByte imm => assembleWord .crcByte 0 false imm
  | .crcCompute var => assembleWord .crcCompute var false 0
  | .crcStore => assembleWord .crcStore 0 false 0
  | .crcVerify var => assembleWord .crcVerify var false 0
  | .dnp3Blocks => assembleWord .dnp3Blocks 0 false 0
  | .hdlcReset => assembleWord .hdlcReset 0 false 0
  | .hdlcBuildSnrm => assembleWord .hdlcBuildSnrm 0 false 0
  | .hdlcSetConnected => assembleWord .hdlcSetConnected 0 false 0
  | .hdlcBuildIframe final => assembleWord .hdlcBuildIframe 0 final 0
  | .hdlcParse => assembleWord .hdlcParse 0 false 0

/-- The opcode of a command. -/
def Instr.opcode : Instr → Opcode
  | .nop => .nop
  | .crcInit _ => .crcInit
  | .crcUpdate => .crcUpdate
  | .crcByte _ => .crcByte
  | .crcCompute _ => .crcCompute
  | .crcStore => .crcStore
  | .crcVerify _ => .crcVerify
  | .dnp3Blocks => .dnp3Blocks
  | .hdlcReset => .hdlcReset
  | .hdlcBuildSnrm => .hdlcBuildSnrm
  | .hdlcSetConnected => .hdlcSetConnected
  | .hdlcBuildIframe _ => .hdlcBuildIframe
  | .hdlcParse => .hdlcParse

/-- The `match` of a row of R55: `match = OPC`. -/
def Opcode.tableMatch (op : Opcode) : Word := op.code.setWidth 32

/-- The `mask` of a row of R55: all ones, the allowed fields cleared. -/
def Opcode.tableMask (op : Opcode) : Word := 0xFFFFFFFF#32 &&& ~~~op.allowed

end Sys2Proof
end

