-- ==== Sys2Proof/Machine/Bus.lean ====
section
/-! DEFINITION. The host's window: the register map (spec/10_state.md R19), register reads and writes, BUF accesses
and the accesses the spec refuses (spec/20_memory.md R37 to R39). -/

namespace Sys2Proof.Machine

/-- The 24 registers of R19. -/
inductive Reg where
  | cmd | status | ctrl | srcAddr | srcLen | dstAddr | dstCap | outLen | crcCfg | crcState | crcResult | seq
  | serverAddr | clientAddr | reasmBase | reasmCap | reasmFill
  | rxFmt | rxDst | rxSrc | rxCtrl | rxPayAddr | rxPayLen | rxConsumed
  deriving DecidableEq, Repr

/-- The column "offset" of R19. -/
def Reg.offset : Reg → Nat
  | .cmd => 0x000
  | .status => 0x004
  | .ctrl => 0x008
  | .srcAddr => 0x00C
  | .srcLen => 0x010
  | .dstAddr => 0x014
  | .dstCap => 0x018
  | .outLen => 0x01C
  | .crcCfg => 0x020
  | .crcState => 0x024
  | .crcResult => 0x028
  | .seq => 0x02C
  | .serverAddr => 0x030
  | .clientAddr => 0x034
  | .reasmBase => 0x038
  | .reasmCap => 0x03C
  | .reasmFill => 0x040
  | .rxFmt => 0x044
  | .rxDst => 0x048
  | .rxSrc => 0x04C
  | .rxCtrl => 0x050
  | .rxPayAddr => 0x054
  | .rxPayLen => 0x058
  | .rxConsumed => 0x05C

/-- The register at an offset; every other offset of the register area is reserved (R19). -/
def Reg.ofOffset (off : Nat) : Option Reg :=
  match off with
  | 0x000 => some .cmd
  | 0x004 => some .status
  | 0x008 => some .ctrl
  | 0x00C => some .srcAddr
  | 0x010 => some .srcLen
  | 0x014 => some .dstAddr
  | 0x018 => some .dstCap
  | 0x01C => some .outLen
  | 0x020 => some .crcCfg
  | 0x024 => some .crcState
  | 0x028 => some .crcResult
  | 0x02C => some .seq
  | 0x030 => some .serverAddr
  | 0x034 => some .clientAddr
  | 0x038 => some .reasmBase
  | 0x03C => some .reasmCap
  | 0x040 => some .reasmFill
  | 0x044 => some .rxFmt
  | 0x048 => some .rxDst
  | 0x04C => some .rxSrc
  | 0x050 => some .rxCtrl
  | 0x054 => some .rxPayAddr
  | 0x058 => some .rxPayLen
  | 0x05C => some .rxConsumed
  | _ => none

/-- What a host read of a register returns; it has no side effect (R38). CMD reads 0 (R20), reserved bits read 0. -/
def State.readReg (s : State) : Reg → Word
  | .cmd => 0
  | .status => s.statusWord
  | .ctrl => s.ctrlWord
  | .srcAddr => s.srcAddr
  | .srcLen => s.srcLen
  | .dstAddr => s.dstAddr
  | .dstCap => s.dstCap
  | .outLen => s.outLen
  | .crcCfg => s.crcVar.code.setWidth 32
  | .crcState => s.crcState.setWidth 32
  | .crcResult => s.crcResult.setWidth 32
  | .seq => s.seqWord
  | .serverAddr => s.serverAddr.setWidth 32
  | .clientAddr => s.clientAddr.setWidth 32
  | .reasmBase => s.reasmBase
  | .reasmCap => s.reasmCap
  | .reasmFill => s.reasmFill
  | .rxFmt => s.rxFmt.setWidth 32
  | .rxDst => s.rxDst.setWidth 32
  | .rxSrc => s.rxSrc.setWidth 32
  | .rxCtrl => s.rxCtrl.setWidth 32
  | .rxPayAddr => s.rxPayAddr
  | .rxPayLen => s.rxPayLen
  | .rxConsumed => s.rxConsumed

/-- What a host write to a register other than CMD stores: read-only registers and reserved bits ignore it (R19).
A write to CMD stores nothing (R20); it issues a command, in the step. -/
def State.writeReg (s : State) (w : Word) : Reg → State
  | .cmd => s
  | .status => s
  | .ctrl => s.writeCtrl w
  | .srcAddr => { s with srcAddr := w }
  | .srcLen => { s with srcLen := w }
  | .dstAddr => { s with dstAddr := w }
  | .dstCap => { s with dstCap := w }
  | .outLen => s
  | .crcCfg => s.writeCrcCfg w
  | .crcState => { s with crcState := w.setWidth 16 }
  | .crcResult => s
  | .seq => s
  | .serverAddr => { s with serverAddr := w.setWidth 28 }
  | .clientAddr => { s with clientAddr := w.setWidth 28 }
  | .reasmBase => { s with reasmBase := w }
  | .reasmCap => { s with reasmCap := w }
  | .reasmFill => s
  | .rxFmt => s
  | .rxDst => s
  | .rxSrc => s
  | .rxCtrl => s
  | .rxPayAddr => s
  | .rxPayLen => s
  | .rxConsumed => s

/-- Where BUF starts in the window (R37). -/
def bufBase : Nat := 0x1000

/-- Bytes composed little-endian, the first one least significant (R39). -/
def wordOfBytes : List Byte → Word
  | [] => 0
  | b :: bs => b.setWidth 32 ||| (wordOfBytes bs <<< 8)

/-- The low `n` bytes of a word, the least significant one first (R39). -/
def bytesOfWord : Nat → Word → List Byte
  | 0, _ => []
  | n + 1, w => w.setWidth 8 :: bytesOfWord n (w >>> 8)

/-- Why the block gives a host access no meaning; none where it has one. Register area: 32-bit, 4-byte aligned
(R38). BUF: 8, 16 or 32 bits, inside the window, naturally aligned (R37, R39). -/
def accessRefusal (s : State) (bits off : Nat) : Option Refusal :=
  if off < bufBase then
    if bits ≠ 32 then some .accessWidth
    else if off % 4 ≠ 0 then some .misaligned
    else none
  else if bits ≠ 8 ∧ bits ≠ 16 ∧ bits ≠ 32 then some .accessWidth
  else if bufBase + s.params.bufSize < off + bits / 8 then some .outsideWindow
  else if (off - bufBase) % (bits / 8) ≠ 0 then some .misaligned
  else none

/-- The data of a host read that has a meaning (R38, R39); reserved offsets read 0 (R37). -/
def State.hostRead (s : State) (bits off : Nat) : Word :=
  if off < bufBase then
    match Reg.ofOffset off with
    | some r => s.readReg r
    | none => 0
  else wordOfBytes (s.memRead (off - bufBase) (bits / 8))

/-- What a host write that has a meaning stores (R38, R39); reserved offsets ignore it (R37). -/
def State.hostWrite (s : State) (bits off : Nat) (w : Word) : State :=
  if off < bufBase then
    match Reg.ofOffset off with
    | some r => s.writeReg w r
    | none => s
  else s.memWrite (off - bufBase) (bytesOfWord (bits / 8) w)

/-- What an input asks of the block. -/
inductive Request where
  /-- A command word for the decoder. -/
  | command (w : Word)
  /-- The input is done, with this state. -/
  | done (s : State)
  /-- The input has no meaning (spec/00_scope.md R11). -/
  | refuse (r : Refusal)

/-- What an input asks for. A 32-bit write to CMD issues a command (R20, R38: only that does). -/
def request (s : State) : Input → Request
  | .hardReset => .done s.hardReset
  | .secondMaster => .refuse .secondMaster
  | .read bits off =>
    match accessRefusal s bits off with
    | some r => .refuse r
    | none => .done { s with readData := some (s.hostRead bits off) }
  | .write bits off w =>
    match accessRefusal s bits off with
    | some r => .refuse r
    | none => if off = Reg.cmd.offset then .command w else .done (s.hostWrite bits off w)

end Sys2Proof.Machine
end

