-- ==== Sys2Proof/Machine/Issue.lean ====
section
/-! DEFINITION. Issuing a command word (spec/40_common.md R63, R65 stage 1): how the decoder is asked, what a word that
is no command does, and how a word is placed for the next step. -/

namespace Sys2Proof.Machine

/-- The result code of a word the decoder rejects (spec/30_encoding.md R57). -/
def decodeErrorCode : DecodeError → ResultCode
  | .notSupported => .notSupported
  | .invalidArg => .invalidArg

/-- The host write that issues a command word (R20). -/
def cmdWrite (w : Word) : Input := .write 32 Reg.cmd.offset w

/-- A table row's word as the host would write it to CMD: bits from `nbits` up are 0. -/
def fetchWord (nbits w : Nat) : Word := BitVec.ofNat 32 (w % 2 ^ nbits)

/-- `s` with the write of that command word the next of its inputs. -/
def State.withInput (s : State) (i : Input) : State := { s with pending := i :: s.pending }

end Sys2Proof.Machine
end

