-- ==== Sys2Proof/Machine/Step.lean ====
section
/-! DEFINITION. One step: the next input of the total order (spec/20_memory.md R47), each atomic. -/

namespace Sys2Proof.Machine

/-- A command word runs to its end within the step (R63): decoded by R57, then executed; a word that is no command
fails with its code and changes nothing else. -/
def issue (s : State) (w : Word) : Host.Outcome State Fault Refusal :=
  match decode w with
  | .ok i => exec i s
  | .error e => raise s (decodeErrorCode e)

/-- One input. With none to come the block is idle (spec/60_exceptions.md R126). -/
def step (s : State) : Host.Outcome State Fault Refusal :=
  match s.pending with
  | [] => .next s
  | i :: rest =>
    match request (s.taken rest) i with
    | .command w => issue (s.taken rest) w
    | .done s' => .next s'
    | .refuse r => .refused r

/-- The state whose next step runs the table row's word: the CMD write that issues it is the next input
(log entry 4). -/
def State.withFetchWord (s : State) (nbits w : Nat) : State := s.withInput (cmdWrite (fetchWord nbits w))

end Sys2Proof.Machine
end

