-- ==== Sys2Proof/Machine/Script.lean ====
section
/-! DEFINITION. Host scripts: the basic operations, the assembler of command words and the pseudo-instructions
(spec/30_encoding.md R60 to R62), as text and as the inputs they stand for. -/

namespace Sys2Proof.Machine

/-- The basic operations of R60. -/
inductive ScriptOp where
  | wr (r : Reg) (v : Word)
  | rd (r : Reg)
  | wrb (a : Nat) (v : Byte)
  | rdb (a : Nat)
  | cmd (i : Instr)
  deriving DecidableEq, Repr

/-- The host operation a basic operation stands for (R60). -/
def ScriptOp.input : ScriptOp → Input
  | .wr r v => .write 32 r.offset v
  | .rd r => .read 32 r.offset
  | .wrb a v => .write 8 (bufBase + a) (v.setWidth 32)
  | .rdb a => .read 8 (bufBase + a)
  | .cmd i => cmdWrite (encode i)

/-! ### Pseudo-instructions (R62) -/

/-- `src a, n`. -/
def pseudoSrc (a n : Word) : List ScriptOp := [.wr .srcAddr a, .wr .srcLen n]

/-- `dst a, c`. -/
def pseudoDst (a c : Word) : List ScriptOp := [.wr .dstAddr a, .wr .dstCap c]

/-- `wbytes a: b0 b1 ... bk`. -/
def pseudoWbytes : Nat → List Byte → List ScriptOp
  | _, [] => []
  | a, b :: bs => .wrb a b :: pseudoWbytes (a + 1) bs

/-- `rbytes a, n`. -/
def pseudoRbytes : Nat → Nat → List ScriptOp
  | _, 0 => []
  | a, n + 1 => .rdb a :: pseudoRbytes (a + 1) n

/-- `crc1 VAR, a, n`. -/
def pseudoCrc1 (v : CrcVar) (a n : Word) : List ScriptOp := pseudoSrc a n ++ [.cmd (.crcCompute v.code)]

/-! ### Names -/

/-- A piece of a script line. -/
abbrev Token := List Char

/-- The register names of R19. -/
def regNames : List (Token × Reg) :=
  [("CMD".toList, .cmd), ("STATUS".toList, .status), ("CTRL".toList, .ctrl), ("SRC_ADDR".toList, .srcAddr),
   ("SRC_LEN".toList, .srcLen), ("DST_ADDR".toList, .dstAddr), ("DST_CAP".toList, .dstCap),
   ("OUT_LEN".toList, .outLen), ("CRC_CFG".toList, .crcCfg), ("CRC_STATE".toList, .crcState),
   ("CRC_RESULT".toList, .crcResult), ("SEQ".toList, .seq), ("SERVER_ADDR".toList, .serverAddr),
   ("CLIENT_ADDR".toList, .clientAddr), ("REASM_BASE".toList, .reasmBase), ("REASM_CAP".toList, .reasmCap),
   ("REASM_FILL".toList, .reasmFill), ("RX_FMT".toList, .rxFmt), ("RX_DST".toList, .rxDst),
   ("RX_SRC".toList, .rxSrc), ("RX_CTRL".toList, .rxCtrl), ("RX_PAY_ADDR".toList, .rxPayAddr),
   ("RX_PAY_LEN".toList, .rxPayLen), ("RX_CONSUMED".toList, .rxConsumed)]

/-- The mnemonics of R55. -/
def mnemonics : List (Token × Opcode) :=
  [("NOP".toList, .nop), ("CRC_INIT".toList, .crcInit), ("CRC_UPDATE".toList, .crcUpdate),
   ("CRC_BYTE".toList, .crcByte), ("CRC_COMPUTE".toList, .crcCompute), ("CRC_STORE".toList, .crcStore),
   ("CRC_VERIFY".toList, .crcVerify), ("DNP3_BLOCKS".toList, .dnp3Blocks), ("HDLC_RESET".toList, .hdlcReset),
   ("HDLC_BUILD_SNRM".toList, .hdlcBuildSnrm), ("HDLC_SET_CONNECTED".toList, .hdlcSetConnected),
   ("HDLC_BUILD_IFRAME".toList, .hdlcBuildIframe), ("HDLC_PARSE".toList, .hdlcParse)]

/-- The variant suffixes of R61. -/
def variantNames : List (Token × CrcVar) :=
  [("MODBUS".toList, .modbus), ("CCITT".toList, .ccitt), ("DNP3".toList, .dnp3)]

/-! ### Numbers -/

/-- The digits of the scripts, in the order of their values. -/
def digitOrder : List Char := "0123456789ABCDEF".toList

/-- The value of a digit, its place in that order; the letters may be small. -/
def digitValue (c : Char) : Option Nat := digitOrder.idxOf? c.toUpper

/-- Digits of a base, most significant first, after a value already read. -/
def digits (base : Nat) : Nat → Token → Option Nat
  | v, [] => some v
  | v, c :: cs =>
    match digitValue c with
    | none => none
    | some d => if d < base then digits base (v * base + d) cs else none

/-- A number of R60: decimal, or `0x` and hexadecimal digits; `_` separates digits, as in `0xFFFF_FFFF`. -/
def number (t : Token) : Option Nat :=
  match t.filter (· ≠ '_') with
  | '0' :: 'x' :: c :: cs => digits 16 0 (c :: cs)
  | c :: cs => digits 10 0 (c :: cs)
  | [] => none

/-- A number that fits a word. -/
def wordNumber (t : Token) : Option Word :=
  match number t with
  | none => none
  | some v => if v < 2 ^ 32 then some (BitVec.ofNat 32 v) else none

/-- A byte of a byte sequence: a pair of hexadecimal digits (spec/00_scope.md R7). -/
def hexPair (t : Token) : Option Byte :=
  match t with
  | [_, _] => (digits 16 0 t).map (BitVec.ofNat 8)
  | _ => none

/-! ### The assembler (R61) -/

/-- The command that `cmd` assembles: a suffix or an immediate only where R61 has one, and refused elsewhere. -/
def assemble (op : Opcode) (suffix : Option Token) (imm : Option Nat) : Option Instr :=
  match op, suffix, imm with
  | .crcInit, some t, none => (variantNames.lookup t).map fun v => .crcInit v.code
  | .crcCompute, some t, none => (variantNames.lookup t).map fun v => .crcCompute v.code
  | .crcVerify, some t, none => (variantNames.lookup t).map fun v => .crcVerify v.code
  | .crcByte, none, some n => if n ≤ 255 then some (.crcByte (BitVec.ofNat 8 n)) else none
  | .hdlcBuildIframe, none, none => some (.hdlcBuildIframe false)
  | .hdlcBuildIframe, some ['F'], none => some (.hdlcBuildIframe true)
  | .nop, none, none => some .nop
  | .crcUpdate, none, none => some .crcUpdate
  | .crcStore, none, none => some .crcStore
  | .dnp3Blocks, none, none => some .dnp3Blocks
  | .hdlcReset, none, none => some .hdlcReset
  | .hdlcBuildSnrm, none, none => some .hdlcBuildSnrm
  | .hdlcSetConnected, none, none => some .hdlcSetConnected
  | .hdlcParse, none, none => some .hdlcParse
  | _, _, _ => none

/-- A mnemonic and its suffix, the text after the first dot. -/
def splitSuffix (t : Token) : Token × Option Token :=
  match t.dropWhile (· ≠ '.') with
  | [] => (t, none)
  | _ :: rest => (t.takeWhile (· ≠ '.'), some rest)

/-- `cmd MNEMONIC[.SUFFIX]` with an optional immediate. -/
def assembleTokens (t : Token) (imm : Option Token) : Option ScriptOp :=
  match mnemonics.lookup (splitSuffix t).1, imm with
  | none, _ => none
  | some op, none => (assemble op (splitSuffix t).2 none).map .cmd
  | some op, some n =>
    match number n with
    | none => none
    | some v => (assemble op (splitSuffix t).2 (some v)).map .cmd

/-! ### Lines -/

/-- The separators of a line: white space, the comma between operands and the colon of `wbytes`. -/
def separator (c : Char) : Bool := c = ' ' || c = '\t' || c = ',' || c = ':'

/-- The pieces of a line, with the piece being read reversed. -/
def tokensFrom : Token → List Char → List Token
  | acc, [] => if acc = [] then [] else [acc.reverse]
  | acc, c :: cs =>
    if separator c then (if acc = [] then tokensFrom [] cs else acc.reverse :: tokensFrom [] cs)
    else tokensFrom (c :: acc) cs

/-- The pieces of a line before its comment (R60: `;` starts a comment). -/
def tokens (line : List Char) : List Token := tokensFrom [] (line.takeWhile (· ≠ ';'))

/-- The operations a line stands for; none where the line is not of R60 to R62. -/
def readTokens : List Token → Option (List ScriptOp)
  | [] => some []
  | [op, x] =>
    if op = "rd".toList then (regNames.lookup x).map fun r => [.rd r]
    else if op = "rdb".toList then (number x).map fun a => [.rdb a]
    else if op = "cmd".toList then (assembleTokens x none).map fun i => [i]
    else none
  | op :: x :: y :: rest =>
    if op = "wbytes".toList then do
      let a ← number x
      let bs ← (y :: rest).mapM hexPair
      return pseudoWbytes a bs
    else
      match rest with
      | [] =>
        if op = "wr".toList then do return [.wr (← regNames.lookup x) (← wordNumber y)]
        else if op = "wrb".toList then do
          let a ← number x
          let v ← number y
          if v < 256 then some [.wrb a (BitVec.ofNat 8 v)] else none
        else if op = "src".toList then do return pseudoSrc (← wordNumber x) (← wordNumber y)
        else if op = "dst".toList then do return pseudoDst (← wordNumber x) (← wordNumber y)
        else if op = "rbytes".toList then do return pseudoRbytes (← number x) (← number y)
        else if op = "cmd".toList then (assembleTokens x (some y)).map fun i => [i]
        else none
      | [z] =>
        if op = "crc1".toList then do return pseudoCrc1 (← variantNames.lookup x) (← wordNumber y) (← wordNumber z)
        else none
      | _ => none
  | _ => none

/-- A script: its lines in order (R60). -/
def readScript : List (List Char) → Option (List ScriptOp)
  | [] => some []
  | l :: ls => do return (← readTokens (tokens l)) ++ (← readScript ls)

/-- The block with the operations of a script still to come (log entry 4). -/
def State.withScript (s : State) (ops : List ScriptOp) : State := { s with pending := ops.map ScriptOp.input }

end Sys2Proof.Machine
end

