-- ==== Sys2Proof/Safety.lean ====
section
/-! DEFINITION. What the claims call a safe run: the invariant of the machine, the windows a failing command may
spoil, and the result codes and link states that the spec's tables give. -/

namespace Sys2Proof.Machine

/-- What every state of a run satisfies, whatever the host does. -/
structure State.Inv (s : State) : Prop where
  /-- The parameters are legal (spec/00_scope.md R6). -/
  params_legal : s.params.legal
  /-- BUF's list is in its canonical form. -/
  buf_wf : s.buf.wf = true
  /-- Nothing is stored outside BUF (spec/10_state.md R34). -/
  buf_within : s.buf.within s.params.bufSize = true
  /-- Generic and Overflow are never produced (spec/60_exceptions.md R114). -/
  err_produced : s.err ≠ .generic ∧ s.err ≠ .overflow
  /-- Outside Connected the counters are 0 and nothing is being reassembled (spec/42_hdlc.md R99 to R102, R112). -/
  session_clear : s.link ≠ .connected → s.ns = 0 ∧ s.nr = 0 ∧ s.reasmFill = 0 ∧ s.reasmDone = false
  /-- RX_FMT is still 0 or the format field of a frame (spec/42_hdlc.md R89, R113). -/
  rx_fmt : s.rxFmt = 0 ∨ (fmtType s.rxFmt = 0xA ∧ 7 ≤ fmtLength s.rxFmt)
  /-- The payload view lies in BUF (spec/20_memory.md R45). -/
  view_within : s.rxPayAddr.toNat + s.rxPayLen.toNat ≤ s.params.bufSize
  /-- RX_CONSUMED counts bytes of an input range in BUF (spec/42_hdlc.md R109). -/
  consumed_within : s.rxConsumed.toNat ≤ s.params.bufSize
  /-- OUT_LEN counts bytes written to BUF (spec/10_state.md R25). -/
  out_within : s.outLen.toNat ≤ s.params.bufSize
  /-- REASM_FILL counts bytes held in BUF (spec/10_state.md R31). -/
  fill_within : s.reasmFill.toNat ≤ s.params.bufSize
  /-- The model's own: the next draw is one that BUF's unwritten bytes do not come from (log entry 3). -/
  draw_fresh : s.bufDraw < s.draws

/-- The run goes on: the input has a meaning. -/
def Result.goesOn (r : Result) : Prop := ∃ t, r = .next t

/-- The result codes a command can end with, beside those of decoding (the table of spec/60_exceptions.md R115). -/
def canEnd : Opcode → ResultCode → Bool
  | _, .ok => true
  | .crcUpdate, .outOfBounds => true
  | .crcCompute, .outOfBounds => true
  | .crcStore, .bufferTooSmall => true
  | .crcStore, .outOfBounds => true
  | .crcVerify, .checksum => true
  | .crcVerify, .outOfBounds => true
  | .dnp3Blocks, .bufferTooSmall => true
  | .dnp3Blocks, .outOfBounds => true
  | .hdlcBuildSnrm, .bufferTooSmall => true
  | .hdlcBuildSnrm, .outOfBounds => true
  | .hdlcSetConnected, .invalidState => true
  | .hdlcBuildIframe, .invalidArg => true
  | .hdlcBuildIframe, .bufferTooSmall => true
  | .hdlcBuildIframe, .invalidState => true
  | .hdlcBuildIframe, .outOfBounds => true
  | .hdlcParse, .incompleteData => true
  | .hdlcParse, .bufferTooSmall => true
  | .hdlcParse, .checksum => true
  | .hdlcParse, .invalidFrame => true
  | .hdlcParse, .outOfBounds => true
  | _, _ => false

/-- The window that a BufferTooSmall failure may spoil, as a first address and a length (spec/40_common.md R69). -/
def spoiledWindow (s : State) : Opcode → Nat × Nat
  | .hdlcParse => (s.reasmBase.toNat + s.reasmStart, s.reasmCap.toNat - s.reasmStart)
  | _ => (s.dstAddr.toNat, s.dstCap.toNat)

/-- Stage 1 of a command's own rule (spec/40_common.md R65, spec/30_encoding.md R57 step 2): a word of its opcode with
a bit set outside its fields fails with InvalidArg and changes nothing else. -/
def stageOneFails (op : Opcode) : Prop :=
  ∀ (w : Word) (s : State), opcField w = op.code → w &&& op.tableMask ≠ op.tableMatch →
    issue s w = .next { s with err := .invalidArg }

/-- The new link state of a command that succeeds (the table of spec/42_hdlc.md R99); none where the table says
"err". -/
def nextLink : LinkState → Opcode → Option LinkState
  | _, .hdlcReset => some .disconnected
  | _, .hdlcBuildSnrm => some .connecting
  | .connecting, .hdlcSetConnected => some .connected
  | _, .hdlcSetConnected => none
  | .connected, .hdlcBuildIframe => some .connected
  | _, .hdlcBuildIframe => none
  | l, _ => some l

end Sys2Proof.Machine
end

