-- ==== Sys2Proof/Certificates/Slice0/Obligations.lean ====
section
/-! DEFINITION. The statements for the provers. A statement's frame is written as one equation: the next state, with
the parts it names put back, is the state before. -/

open Sys2Proof Sys2Proof.Machine

/-! ### Encoding and decoding (spec/30_encoding.md) -/

/-- Words of R61 and of vector V20, written out from the fields of R53, decode to what they stand for. -/
def Obligations.SpecWordsDecode : Prop :=
  decode 0x00000000 = .ok .nop ∧ decode 0x00000101 = .ok (.crcInit 1) ∧ decode 0x00000002 = .ok .crcUpdate ∧
  decode 0x00AB0003 = .ok (.crcByte 0xAB) ∧ decode 0x00000204 = .ok (.crcCompute 2) ∧
  decode 0x00000005 = .ok .crcStore ∧ decode 0x00000106 = .ok (.crcVerify 1) ∧
  decode 0x00000007 = .ok .dnp3Blocks ∧ decode 0x00000010 = .ok .hdlcReset ∧
  decode 0x00000011 = .ok .hdlcBuildSnrm ∧ decode 0x00000012 = .ok .hdlcSetConnected ∧
  decode 0x00000413 = .ok (.hdlcBuildIframe true) ∧ decode 0x00000013 = .ok (.hdlcBuildIframe false) ∧
  decode 0x00000014 = .ok .hdlcParse ∧
  decode 0x00000100 = .error .invalidArg ∧ decode 0x00000108 = .error .notSupported ∧
  decode 0x00000301 = .error .invalidArg ∧ decode 0x00000311 = .error .invalidArg ∧
  decode 0x00000803 = .error .invalidArg ∧ decode 0x01000003 = .error .invalidArg ∧
  decode 0x00010013 = .error .invalidArg

/-- R55: the match, the mask and the opcode of every row, and that a word with a bit set outside its row's fields is no
command. -/
def Obligations.OpcodeTableMatchAndMask : Prop :=
  ∀ op : Opcode,
    op.tableMatch = op.code.setWidth 32 ∧
    op.tableMask =
      (match op with
       | .crcInit | .crcCompute | .crcVerify => 0xFFFFFCFF#32
       | .hdlcBuildIframe => 0xFFFFFBFF#32
       | .crcByte => 0xFF00FFFF#32
       | _ => 0xFFFFFFFF#32) ∧
    op.code.toNat =
      (match op with
       | .nop => 0x00 | .crcInit => 0x01 | .crcUpdate => 0x02 | .crcByte => 0x03 | .crcCompute => 0x04
       | .crcStore => 0x05 | .crcVerify => 0x06 | .dnp3Blocks => 0x07 | .hdlcReset => 0x10
       | .hdlcBuildSnrm => 0x11 | .hdlcSetConnected => 0x12 | .hdlcBuildIframe => 0x13 | .hdlcParse => 0x14) ∧
    (∀ w : Word, op.code = opcField w → w &&& op.tableMask ≠ op.tableMatch → decode w = .error .invalidArg)

/-- Decoding gives back every encoded well-formed command, with every operand value. -/
def Obligations.EncodeThenDecode : Prop :=
  ∀ i : Instr, i.wellFormed = true → decode (encode i) = .ok i

/-- A word that decodes is the encoding of what it decodes to, and that command is well-formed: no bit of a command
word is dropped. -/
def Obligations.DecodeThenEncode : Prop :=
  ∀ (w : Word) (i : Instr), decode w = .ok i → encode i = w ∧ i.wellFormed = true

/-- R57: the four steps in their order, and the whole effect of a word that steps 1 to 3 reject. -/
def Obligations.DecodeStepsInOrder : Prop :=
  (∀ w : Word, (¬ ∃ op : Opcode, op.code = opcField w) → decode w = .error .notSupported) ∧
  (∀ (w : Word) (op : Opcode), op.code = opcField w →
    (w &&& ~~~(0x000000FF#32 ||| op.allowed) ≠ 0 → decode w = .error .invalidArg) ∧
    (w &&& ~~~(0x000000FF#32 ||| op.allowed) = 0 → op.allowed = 0x00000300#32 → varField w = 3 →
      decode w = .error .invalidArg) ∧
    (w &&& ~~~(0x000000FF#32 ||| op.allowed) = 0 → (op.allowed = 0x00000300#32 → varField w ≠ 3) →
      ∃ i, decode w = .ok i ∧ i.opcode = op)) ∧
  (∀ (w : Word) (s : State),
    (decode w = .error .notSupported → issue s w = .next { s with err := .notSupported }) ∧
    (decode w = .error .invalidArg → issue s w = .next { s with err := .invalidArg }) ∧
    (∀ i, decode w = .ok i → issue s w = exec i s))

/-- R58: exactly 0x08 to 0x0F and 0x15 to 0xFF are reserved, and a word with such a low byte is NotSupported whatever
its other bits. -/
def Obligations.ReservedOpcodesNotSupported : Prop :=
  ∀ w : Word, (decode w = .error .notSupported ↔
    (8 ≤ w.toNat % 256 ∧ w.toNat % 256 ≤ 15) ∨ 0x15 ≤ w.toNat % 256)

/-! ### The step (spec/40_common.md R63, spec/20_memory.md R47) -/

/-- When the next input is a 32-bit host write to CMD whose word decodes, the step is the command's meaning, the input
taken off the list and no data returned; so it is for a word placed by withFetchWord. -/
def Obligations.StepRunsDecodedCommand : Prop :=
  (∀ (s : State) (rest : List Input) (w : Word) (i : Instr), s.pending = .write 32 0 w :: rest →
    decode w = .ok i → step s = exec i { s with pending := rest, readData := none }) ∧
  (∀ (s : State) (w : Nat) (i : Instr), w < 2 ^ 32 → decodeTableWord 32 w = some i →
    step (s.withFetchWord 32 w) = exec i { s with readData := none })

/-- A CMD write whose word is no command ends in its code and changes nothing else. -/
def Obligations.StepOfRejectedWord : Prop :=
  ∀ (s : State) (rest : List Input) (w : Word) (e : DecodeError), s.pending = .write 32 0 w :: rest →
    decode w = .error e →
    step s = .next { s with pending := rest, readData := none, err := decodeErrorCode e }

/-- Every command ends in a next state, on every path: none faults, none is refused (R119, R138). A command whose VAR
is 3, which no word decodes to, ends in InvalidArg and changes nothing else: that is the model's (log entry 10). -/
def Obligations.EveryCommandEnds : Prop :=
  (∀ (i : Instr) (s : State), ∃ t, exec i s = .next t) ∧
  ∀ (i : Instr) (s : State), i.wellFormed = false → exec i s = .next { s with err := .invalidArg }

/-! ### NOP and the CRC algorithms (spec/40_common.md R72, spec/41_checksum.md R73 to R79) -/

/-- R72: the word, the whole effect, and the error of any other bit. -/
def Obligations.NopOnlyClearsErr : Prop :=
  encode .nop = 0 ∧ decode 0 = .ok .nop ∧
  (∀ w : Word, opcField w = 0 → w ≠ 0 → decode w = .error .invalidArg) ∧
  ∀ s : State, exec .nop s = .next { s with err := .ok }

/-- R73 to R76: the parameters of the variants, one byte, a sequence, the one-shot CRC. -/
def Obligations.CrcAlgorithm : Prop :=
  (CrcVar.modbus.poly = 0xA001 ∧ CrcVar.ccitt.poly = 0x8408 ∧ CrcVar.dnp3.poly = 0xA6BC) ∧
  (∀ P : Params, CrcVar.modbus.init P = 0xFFFF ∧ CrcVar.ccitt.init P = P.ccittInit ∧ CrcVar.dnp3.init P = 0x0000) ∧
  (∀ P : Params, CrcVar.modbus.xorOut P = 0x0000 ∧ CrcVar.ccitt.xorOut P = P.ccittXorOut ∧
    CrcVar.dnp3.xorOut P = 0xFFFF) ∧
  (∀ (v : CrcVar) (c : BitVec 16) (b : Byte), crcStep v c b =
    (fun x : BitVec 16 => if x.getLsbD 0 then (x >>> 1) ^^^ v.poly else x >>> 1)^[8] (c ^^^ b.setWidth 16)) ∧
  (∀ (v : CrcVar) (c : BitVec 16), crcFold v c [] = c) ∧
  (∀ (v : CrcVar) (c : BitVec 16) (b : Byte) (bs : List Byte),
    crcFold v c (b :: bs) = crcFold v (crcStep v c b) bs) ∧
  (∀ (P : Params) (v : CrcVar) (bs : List Byte), crc P v bs = crcFold v (v.init P) bs ^^^ v.xorOut P)

/-- R77: segmentation independence, empty data, and the two residues. -/
def Obligations.CrcLaws : Prop :=
  (∀ (v : CrcVar) (c : BitVec 16) (xs ys : List Byte), crcFold v c (xs ++ ys) = crcFold v (crcFold v c xs) ys) ∧
  (∀ P : Params, crc P .modbus [] = 0xFFFF ∧ crc P .ccitt [] = P.ccittInit ^^^ P.ccittXorOut ∧
    crc P .dnp3 [] = 0xFFFF) ∧
  (∀ (P : Params) (xs : List Byte), crcFold .modbus 0xFFFF (xs ++ le16 (crc P .modbus xs)) = 0x0000) ∧
  (∀ (P : Params) (xs : List Byte), P.ccittInit = 0xFFFF → P.ccittXorOut = 0xFFFF →
    crcFold .ccitt 0xFFFF (xs ++ le16 (crc P .ccitt xs)) = 0xF0B8)

/-- R78 and R79: the published check values and LEP's vector, with its transmitted bytes. -/
def Obligations.CrcCheckValues : Prop :=
  (∀ P : Params, crc P .modbus [0x31, 0x32, 0x33, 0x34, 0x35, 0x36, 0x37, 0x38, 0x39] = 0x4B37 ∧
    crc P .dnp3 [0x31, 0x32, 0x33, 0x34, 0x35, 0x36, 0x37, 0x38, 0x39] = 0xEA82 ∧
    crc P .modbus [0x01, 0x03, 0x00, 0x01, 0x00, 0x01] = 0xCAD5) ∧
  crc Config.vectorParams .ccitt [0x31, 0x32, 0x33, 0x34, 0x35, 0x36, 0x37, 0x38, 0x39] = 0x906E ∧
  le16 0xCAD5 = [0xD5, 0xCA]

/-! ### The CRC commands (spec/41_checksum.md R80 to R87) -/

/-- R80, for each variant, and for the illegal selector. -/
def Obligations.CrcInitLoadsInitialValue : Prop :=
  (decode 0x00000001 = .ok (.crcInit 0) ∧ decode 0x00000101 = .ok (.crcInit 1) ∧
    decode 0x00000201 = .ok (.crcInit 2)) ∧ stageOneFails .crcInit ∧
  ∀ s : State,
    exec (.crcInit 0) s = .next { s with crcVar := .modbus, crcState := 0xFFFF, err := .ok } ∧
    exec (.crcInit 1) s = .next { s with crcVar := .ccitt, crcState := s.params.ccittInit, err := .ok } ∧
    exec (.crcInit 2) s = .next { s with crcVar := .dnp3, crcState := 0x0000, err := .ok } ∧
    issue s 0x00000301 = .next { s with err := .invalidArg } ∧
    ∀ (v : CrcVar) (t : State), exec (.crcInit v.code) s = .next t →
      t.crcResult = v.init s.params ^^^ v.xorOut s.params

/-- R81. -/
def Obligations.CrcUpdateFoldsSource : Prop :=
  decode 0x00000002 = .ok .crcUpdate ∧ stageOneFails .crcUpdate ∧
  ∀ s : State,
    (s.srcAddr.toNat + s.srcLen.toNat ≤ s.params.bufSize →
      exec .crcUpdate s = .next { s with
        crcState := crcFold s.crcVar s.crcState (s.memRead s.srcAddr.toNat s.srcLen.toNat), err := .ok }) ∧
    (s.params.bufSize < s.srcAddr.toNat + s.srcLen.toNat →
      exec .crcUpdate s = .next { s with err := .outOfBounds })

/-- R82. -/
def Obligations.CrcByteFoldsImmediate : Prop :=
  stageOneFails .crcByte ∧
  ∀ imm : Byte, encode (.crcByte imm) = 0x03#32 ||| (imm.setWidth 32 <<< 16) ∧
    decode (0x03#32 ||| (imm.setWidth 32 <<< 16)) = .ok (.crcByte imm) ∧
    ∀ s : State, exec (.crcByte imm) s =
      .next { s with crcState := crcStep s.crcVar s.crcState imm, err := .ok }

/-- R83, with the value CRC_RESULT has afterwards, and that the command does what CRC_INIT and then CRC_UPDATE over
the same range do. -/
def Obligations.CrcComputeOneShot : Prop :=
  (decode 0x00000004 = .ok (.crcCompute 0) ∧ decode 0x00000104 = .ok (.crcCompute 1) ∧
    decode 0x00000204 = .ok (.crcCompute 2)) ∧
  stageOneFails .crcCompute ∧
  ∀ s : State,
    (∀ v : CrcVar, s.srcAddr.toNat + s.srcLen.toNat ≤ s.params.bufSize →
      ∃ t, exec (.crcCompute v.code) s = .next t ∧
        t = { s with crcVar := v,
                     crcState := crcFold v (v.init s.params) (s.memRead s.srcAddr.toNat s.srcLen.toNat),
                     err := .ok } ∧
        t.crcResult = crc s.params v (s.memRead s.srcAddr.toNat s.srcLen.toNat)) ∧
    (∀ v : CrcVar, s.params.bufSize < s.srcAddr.toNat + s.srcLen.toNat →
      exec (.crcCompute v.code) s = .next { s with err := .outOfBounds }) ∧
    (∀ v : CrcVar, s.srcAddr.toNat + s.srcLen.toNat ≤ s.params.bufSize →
      ∃ t u, exec (.crcInit v.code) s = .next t ∧ exec .crcUpdate t = .next u ∧
        exec (.crcCompute v.code) s = .next u) ∧
    issue s 0x00000304 = .next { s with err := .invalidArg }

/-- R77 item 1 on the machine: a range folded in two commands, the host moving the source range between them, gives
the CRC register that one command over the whole range gives. -/
def Obligations.CrcUpdateSplits : Prop :=
  ∀ (s : State) (n m : Word), n.toNat + m.toNat = s.srcLen.toNat →
    s.srcAddr.toNat + s.srcLen.toNat ≤ s.params.bufSize → s.srcAddr.toNat + s.srcLen.toNat < 2 ^ 32 →
    ∃ t u v, exec .crcUpdate { s with srcLen := n } = .next t ∧
      exec .crcUpdate { t with srcAddr := s.srcAddr + n, srcLen := m } = .next u ∧
      exec .crcUpdate s = .next v ∧ u.crcState = v.crcState ∧ u.crcResult = v.crcResult

/-- R84: the two bytes, OUT_LEN, the frame, and the two failures in their order. -/
def Obligations.CrcStoreWritesResult : Prop :=
  decode 0x00000005 = .ok .crcStore ∧ stageOneFails .crcStore ∧
  ∀ s : State,
    (s.params.bufSize < s.dstAddr.toNat + s.dstCap.toNat →
      exec .crcStore s = .next { s with err := .outOfBounds }) ∧
    (s.dstAddr.toNat + s.dstCap.toNat ≤ s.params.bufSize → s.dstCap.toNat < 2 →
      ∃ t, exec .crcStore s = .next t ∧
        { t with buf := s.buf, draws := s.draws } = { s with err := .bufferTooSmall } ∧
        ∀ a, (a < s.dstAddr.toNat ∨ s.dstAddr.toNat + s.dstCap.toNat ≤ a) → t.bufByte a = s.bufByte a) ∧
    (s.dstAddr.toNat + s.dstCap.toNat ≤ s.params.bufSize → 2 ≤ s.dstCap.toNat →
      ∃ t, exec .crcStore s = .next t ∧ { t with buf := s.buf } = { s with outLen := 2, err := .ok } ∧
        t.bufByte s.dstAddr.toNat = s.crcResult.setWidth 8 ∧
        t.bufByte (s.dstAddr.toNat + 1) = (s.crcResult >>> 8).setWidth 8 ∧
        ∀ a, (a < s.dstAddr.toNat ∨ s.dstAddr.toNat + 2 ≤ a) → t.bufByte a = s.bufByte a)

/-- R85: the two bytes after the range, low byte first, decide; only STATUS.ERR is written. -/
def Obligations.CrcVerifyCompares : Prop :=
  (decode 0x00000006 = .ok (.crcVerify 0) ∧ decode 0x00000106 = .ok (.crcVerify 1) ∧
    decode 0x00000206 = .ok (.crcVerify 2)) ∧
  stageOneFails .crcVerify ∧
  ∀ s : State,
    (∀ v : CrcVar, s.params.bufSize < s.srcAddr.toNat + (s.srcLen.toNat + 2) →
      exec (.crcVerify v.code) s = .next { s with err := .outOfBounds }) ∧
    (∀ v : CrcVar, s.srcAddr.toNat + (s.srcLen.toNat + 2) ≤ s.params.bufSize →
      exec (.crcVerify v.code) s = .next { s with
        err := if crc s.params v (s.memRead s.srcAddr.toNat s.srcLen.toNat) =
            s.bufByte (s.srcAddr.toNat + s.srcLen.toNat + 1) ++ s.bufByte (s.srcAddr.toNat + s.srcLen.toNat)
          then .ok else .checksum }) ∧
    issue s 0x00000306 = .next { s with err := .invalidArg }

/-- CRC_COMPUTE over a range, CRC_STORE right after the range and CRC_VERIFY of the range succeed one after the
other, for every variant and every data. -/
def Obligations.StoredCrcVerifies : Prop :=
  ∀ (s : State) (v : CrcVar), s.dstAddr.toNat = s.srcAddr.toNat + s.srcLen.toNat → 2 ≤ s.dstCap.toNat →
    s.dstAddr.toNat + s.dstCap.toNat ≤ s.params.bufSize →
    ∃ t u, exec (.crcCompute v.code) s = .next t ∧ exec .crcStore t = .next u ∧
      exec (.crcVerify v.code) u = .next { u with err := .ok } ∧ u.err = .ok

/-- R86 and the success of R87: block j of up to 16 bytes stands at offset 18 j of the output, its CRC after it, low
byte first; the source is read before anything is written, so the ranges may overlap. -/
def Obligations.Dnp3BlocksLayout : Prop :=
  ∀ s : State, s.srcAddr.toNat + s.srcLen.toNat ≤ s.params.bufSize →
    s.dstAddr.toNat + s.dstCap.toNat ≤ s.params.bufSize →
    s.srcLen.toNat + 2 * ((s.srcLen.toNat + 15) / 16) ≤ s.dstCap.toNat →
    ∃ t, exec .dnp3Blocks s = .next t ∧
      { t with buf := s.buf } = { s with
        outLen := BitVec.ofNat 32 (s.srcLen.toNat + 2 * ((s.srcLen.toNat + 15) / 16)), err := .ok } ∧
      (∀ j i, j < (s.srcLen.toNat + 15) / 16 → i < min 16 (s.srcLen.toNat - 16 * j) →
        t.bufByte (s.dstAddr.toNat + 18 * j + i) = s.bufByte (s.srcAddr.toNat + 16 * j + i)) ∧
      (∀ j, j < (s.srcLen.toNat + 15) / 16 →
        t.bufByte (s.dstAddr.toNat + 18 * j + min 16 (s.srcLen.toNat - 16 * j) + 1) ++
            t.bufByte (s.dstAddr.toNat + 18 * j + min 16 (s.srcLen.toNat - 16 * j)) =
          crc s.params .dnp3 (s.memRead (s.srcAddr.toNat + 16 * j) (min 16 (s.srcLen.toNat - 16 * j)))) ∧
      ∀ a, (a < s.dstAddr.toNat ∨
          s.dstAddr.toNat + (s.srcLen.toNat + 2 * ((s.srcLen.toNat + 15) / 16)) ≤ a) →
        t.bufByte a = s.bufByte a

/-- The failures of R87 in their order. -/
def Obligations.Dnp3BlocksFailures : Prop :=
  decode 0x00000007 = .ok .dnp3Blocks ∧ stageOneFails .dnp3Blocks ∧
  ∀ s : State,
    ((s.params.bufSize < s.srcAddr.toNat + s.srcLen.toNat ∨ s.params.bufSize < s.dstAddr.toNat + s.dstCap.toNat) →
      exec .dnp3Blocks s = .next { s with err := .outOfBounds }) ∧
    (s.srcAddr.toNat + s.srcLen.toNat ≤ s.params.bufSize → s.dstAddr.toNat + s.dstCap.toNat ≤ s.params.bufSize →
      s.dstCap.toNat < s.srcLen.toNat + 2 * ((s.srcLen.toNat + 15) / 16) →
      ∃ t, exec .dnp3Blocks s = .next t ∧
        { t with buf := s.buf, draws := s.draws } = { s with err := .bufferTooSmall } ∧
        ∀ a, (a < s.dstAddr.toNat ∨ s.dstAddr.toNat + s.dstCap.toNat ≤ a) → t.bufByte a = s.bufByte a)

/-! ### Addresses and frames (spec/42_hdlc.md R90 to R98) -/

/-- R90: the least number of bytes, seven address bits a byte, the most significant group first, bit 0 on the last
byte alone. -/
def Obligations.VlqEncoding : Prop :=
  (∀ a : BitVec 28,
    1 ≤ (vlq a).length ∧ (vlq a).length ≤ 4 ∧ a.toNat < 2 ^ (7 * (vlq a).length) ∧
    (∀ k, 1 ≤ k → a.toNat < 2 ^ (7 * k) → (vlq a).length ≤ k) ∧
    (∀ (j : Nat) (h : j < (vlq a).length), ((vlq a)[j]).toNat =
      a.toNat / 2 ^ (7 * ((vlq a).length - 1 - j)) % 128 * 2 + if j = (vlq a).length - 1 then 1 else 0)) ∧
  vlq 0x01 = [0x03] ∧ vlq 0x10 = [0x21] ∧ vlq 0x7F = [0xFF] ∧ vlq 0x80 = [0x02, 0x01] ∧
  vlq 0x1234 = [0x48, 0x69] ∧ vlq 0x4000 = [0x02, 0x00, 0x01] ∧ vlq 0xFFFFFFF = [0xFE, 0xFE, 0xFE, 0xFF]

/-- R91, "VlqDecode(Vlq(a), 0, k) = (a, k) for every 28-bit a", wherever the address stands in a byte sequence; what
VlqDecode gives on every sequence, non-minimal encodings among them: the first byte below the limit with bit 0 set, at
most the fourth, ends the address, whose value joins the 7-bit groups, and without such a byte it fails; with the
examples of R91 and vector V22. That a byte past the end of a sequence counts as 0 is the model's (log entry 17). -/
def Obligations.VlqRoundTrip : Prop :=
  (∀ (a : BitVec 28) (pre post : List Byte) (lim : Nat), pre.length + (vlq a).length ≤ lim →
    vlqDecode (pre ++ vlq a ++ post) pre.length lim = some (a, (vlq a).length)) ∧
  (∀ (bs : List Byte) (q lim j : Nat), j ≤ 3 → q + j < lim →
    (∀ k, k < j → (byteAt bs (q + k)).getLsbD 0 = false) → (byteAt bs (q + j)).getLsbD 0 = true →
    ∃ a, vlqDecode bs q lim = some (a, j + 1) ∧
      a.toNat = ((List.range (j + 1)).map fun k => (byteAt bs (q + k)).toNat / 2 * 128 ^ (j - k)).sum) ∧
  (∀ (bs : List Byte) (q lim : Nat), (∀ j, j ≤ 3 → q + j < lim → (byteAt bs (q + j)).getLsbD 0 = false) →
    vlqDecode bs q lim = none) ∧
  vlqDecode [0x00, 0x03] 0 2 = some (1, 2) ∧ vlqDecode [0x02, 0x02, 0x02, 0x02] 0 4 = none ∧
  vlqDecode [0x02, 0x02] 0 2 = none

/-- R93: the control byte, field by field. -/
def Obligations.IframeControlByte : Prop :=
  ∀ (nr ns : BitVec 3) (f : Bool),
    (iframeControl nr ns f).toNat = 32 * nr.toNat + 2 * ns.toNat + (if f then 1 else 0) ∧
    finalBit (iframeControl nr ns f) = f

/-- Every info frame the block fills is one it parses: the frame built for any addresses, control byte and payload
that fits the length field is found after any flagless bytes, whatever follows, with every field recovered. -/
def Obligations.InfoFrameParses : Prop :=
  ∀ (P : Params) (verify : Bool) (pre post : List Byte) (dst src : BitVec 28) (c : Byte) (payload : List Byte),
    (∀ b ∈ pre, b ≠ 0x7E) → (vlq dst).length + (vlq src).length + 7 + payload.length ≤ 2047 →
    parseFrame P verify (pre ++ infoFrame P true dst src c payload ++ post) =
      .frame { fmt := 0xA000 ||| BitVec.ofNat 16 ((vlq dst).length + (vlq src).length + 7 + payload.length),
               dst := dst, src := src, ctrl := c, info := true,
               payOff := pre.length + 1 + ((vlq dst).length + (vlq src).length + 3) + 2,
               payLen := payload.length,
               consumed := pre.length + 1 + ((vlq dst).length + (vlq src).length + 7 + payload.length) }

/-- The same for the short form, SNRM among it. -/
def Obligations.ShortFrameParses : Prop :=
  ∀ (P : Params) (verify : Bool) (pre post : List Byte) (dst src : BitVec 28) (c : Byte),
    (∀ b ∈ pre, b ≠ 0x7E) →
    parseFrame P verify (pre ++ shortFrame P dst src c ++ post) =
      .frame { fmt := 0xA000 ||| BitVec.ofNat 16 ((vlq dst).length + (vlq src).length + 5),
               dst := dst, src := src, ctrl := c, info := false,
               payOff := pre.length + 1 + ((vlq dst).length + (vlq src).length + 3) + 2,
               payLen := 0,
               consumed := pre.length + 1 + ((vlq dst).length + (vlq src).length + 5) }

/-- R108: with VERIFY_CRC on, a frame is accepted only if its check sequences are the CCITT CRCs of R96 and R97 (or
R95's single one); the frame starts at `p`, its header has `h` bytes. -/
def Obligations.AcceptedFrameCrcsMatch : Prop :=
  ∀ (P : Params) (bs : List Byte) (f : RxFrame), parseFrame P true bs = .frame f →
    ∃ i p h, firstFlag bs = some i ∧ p = i + flagRun (bs.drop i) ∧ f.payOff = p + h + 2 ∧
      f.consumed = p + fmtLength f.fmt ∧ f.fmt = fmtAt bs p ∧ f.ctrl = byteAt bs (p + h - 1) ∧
      crc P .ccitt (slice bs p (p + h)) = rdle16 bs (p + h) ∧
      (f.info = false → fmtLength f.fmt = h + 2 ∧ f.payLen = 0) ∧
      (f.info = true → fmtLength f.fmt = h + 4 + f.payLen ∧
        crc P .ccitt (slice bs p (p + h + 2 + f.payLen)) = rdle16 bs (p + h + 2 + f.payLen))

/-! ### The link commands (spec/42_hdlc.md R99 to R113) -/

/-- R101. -/
def Obligations.HdlcResetDisconnects : Prop :=
  decode 0x00000010 = .ok .hdlcReset ∧ stageOneFails .hdlcReset ∧
  ∀ s : State, exec .hdlcReset s = .next { s with
    link := .disconnected, ns := 0, nr := 0, reasmFill := 0, reasmDone := false, err := .ok }

/-- R102: the frame's bytes, the link, the counters, the frame of the state, and the failures in their order. -/
def Obligations.HdlcBuildSnrmWritesFrame : Prop :=
  decode 0x00000011 = .ok .hdlcBuildSnrm ∧ stageOneFails .hdlcBuildSnrm ∧
  ∀ (s : State) (A B hdr : List Byte), A = vlq s.serverAddr → B = vlq s.clientAddr →
    hdr = be16 (0xA000 ||| BitVec.ofNat 16 (A.length + B.length + 5)) ++ A ++ B ++ [0x93] →
    (s.params.bufSize < s.dstAddr.toNat + s.dstCap.toNat →
      exec .hdlcBuildSnrm s = .next { s with err := .outOfBounds }) ∧
    (s.dstAddr.toNat + s.dstCap.toNat ≤ s.params.bufSize → s.dstCap.toNat < A.length + B.length + 7 →
      ∃ t, exec .hdlcBuildSnrm s = .next t ∧
        { t with buf := s.buf, draws := s.draws } = { s with err := .bufferTooSmall } ∧
        ∀ a, (a < s.dstAddr.toNat ∨ s.dstAddr.toNat + s.dstCap.toNat ≤ a) → t.bufByte a = s.bufByte a) ∧
    (s.dstAddr.toNat + s.dstCap.toNat ≤ s.params.bufSize → A.length + B.length + 7 ≤ s.dstCap.toNat →
      ∃ t, exec .hdlcBuildSnrm s = .next t ∧
        { t with buf := s.buf } = { s with
          outLen := BitVec.ofNat 32 (A.length + B.length + 7), link := .connecting, ns := 0, nr := 0,
          reasmFill := 0, reasmDone := false, err := .ok } ∧
        t.memRead s.dstAddr.toNat (A.length + B.length + 7) =
          [0x7E] ++ hdr ++ le16 (crc s.params .ccitt hdr) ++ [0x7E] ∧
        ∀ a, (a < s.dstAddr.toNat ∨ s.dstAddr.toNat + (A.length + B.length + 7) ≤ a) →
          t.bufByte a = s.bufByte a)

/-- R103. -/
def Obligations.HdlcSetConnected : Prop :=
  decode 0x00000012 = .ok .hdlcSetConnected ∧ stageOneFails .hdlcSetConnected ∧
  ∀ s : State,
    (s.link = .connecting → exec .hdlcSetConnected s = .next { s with link := .connected, err := .ok }) ∧
    (s.link ≠ .connecting → exec .hdlcSetConnected s = .next { s with err := .invalidState })

/-- The success of R105, with R93, R95 and R104: the bytes of the frame, the check sequences filled or left `00 00`,
NS advanced by a final frame alone, and the frame of the state. -/
def Obligations.HdlcBuildIframeWritesFrame : Prop :=
  ∀ (s : State) (f : Bool) (A B hdr body : List Byte), A = vlq s.serverAddr → B = vlq s.clientAddr →
    hdr = be16 (0xA000 ||| BitVec.ofNat 16 (A.length + B.length + 7 + s.srcLen.toNat)) ++ A ++ B ++
      [BitVec.ofNat 8 (32 * s.nr.toNat + 2 * s.ns.toNat + if f then 1 else 0)] →
    body = hdr ++ (if s.fillCrc then le16 (crc s.params .ccitt hdr) else [0x00, 0x00]) ++
      s.memRead s.srcAddr.toNat s.srcLen.toNat →
    s.link = .connected → s.srcAddr.toNat + s.srcLen.toNat ≤ s.params.bufSize →
    s.dstAddr.toNat + s.dstCap.toNat ≤ s.params.bufSize → s.srcLen.toNat ≠ 0 →
    A.length + B.length + 7 + s.srcLen.toNat ≤ 2047 →
    A.length + B.length + 9 + s.srcLen.toNat ≤ s.dstCap.toNat →
    ∃ t, exec (.hdlcBuildIframe f) s = .next t ∧
      { t with buf := s.buf } = { s with
        outLen := BitVec.ofNat 32 (A.length + B.length + 9 + s.srcLen.toNat),
        ns := if f then s.ns + 1 else s.ns, err := .ok } ∧
      t.memRead s.dstAddr.toNat (A.length + B.length + 9 + s.srcLen.toNat) =
        [0x7E] ++ body ++ (if s.fillCrc then le16 (crc s.params .ccitt body) else [0x00, 0x00]) ++ [0x7E] ∧
      ∀ a, (a < s.dstAddr.toNat ∨ s.dstAddr.toNat + (A.length + B.length + 9 + s.srcLen.toNat) ≤ a) →
        t.bufByte a = s.bufByte a

/-- The failures of R105 in their order. -/
def Obligations.HdlcBuildIframeFailures : Prop :=
  (decode 0x00000013 = .ok (.hdlcBuildIframe false) ∧ decode 0x00000413 = .ok (.hdlcBuildIframe true)) ∧
  stageOneFails .hdlcBuildIframe ∧
  ∀ (s : State) (f : Bool) (L : Nat),
    L = (vlq s.serverAddr).length + (vlq s.clientAddr).length + 7 + s.srcLen.toNat →
    (s.link ≠ .connected → exec (.hdlcBuildIframe f) s = .next { s with err := .invalidState }) ∧
    (s.link = .connected → (s.params.bufSize < s.srcAddr.toNat + s.srcLen.toNat ∨
        s.params.bufSize < s.dstAddr.toNat + s.dstCap.toNat) →
      exec (.hdlcBuildIframe f) s = .next { s with err := .outOfBounds }) ∧
    (s.link = .connected → s.srcAddr.toNat + s.srcLen.toNat ≤ s.params.bufSize →
      s.dstAddr.toNat + s.dstCap.toNat ≤ s.params.bufSize → (s.srcLen.toNat = 0 ∨ 2047 < L) →
      exec (.hdlcBuildIframe f) s = .next { s with err := .invalidArg }) ∧
    (s.link = .connected → s.srcAddr.toNat + s.srcLen.toNat ≤ s.params.bufSize →
      s.dstAddr.toNat + s.dstCap.toNat ≤ s.params.bufSize → s.srcLen.toNat ≠ 0 → L ≤ 2047 →
      s.dstCap.toNat < L + 2 →
      ∃ t, exec (.hdlcBuildIframe f) s = .next t ∧
        { t with buf := s.buf, draws := s.draws } = { s with err := .bufferTooSmall } ∧
        ∀ a, (a < s.dstAddr.toNat ∨ s.dstAddr.toNat + s.dstCap.toNat ≤ a) → t.bufByte a = s.bufByte a)

/-- The successes of R113: a frame that only frames (R112), one that counts without a reassembly buffer, and one that
is appended (R111). The payload is read before anything is written (R43). -/
def Obligations.HdlcParseAcceptsFrame : Prop :=
  ∀ (s : State) (f : RxFrame), s.srcAddr.toNat + s.srcLen.toNat ≤ s.params.bufSize →
    parseFrame s.params s.verifyCrc (s.memRead s.srcAddr.toNat s.srcLen.toNat) = .frame f →
    ((s.link ≠ .connected ∨ (f.info = false ∧
        (s.reasmCap = 0 ∨ s.reasmBase.toNat + s.reasmCap.toNat ≤ s.params.bufSize))) →
      exec .hdlcParse s = .next { s with
        rxFmt := f.fmt, rxDst := f.dst, rxSrc := f.src, rxCtrl := f.ctrl,
        rxPayAddr := BitVec.ofNat 32 (s.srcAddr.toNat + f.payOff), rxPayLen := BitVec.ofNat 32 f.payLen,
        rxConsumed := BitVec.ofNat 32 f.consumed, err := .ok }) ∧
    (s.link = .connected → f.info = true → s.reasmCap = 0 →
      exec .hdlcParse s = .next { s with
        nr := if f.ctrl.getLsbD 0 then s.nr + 1 else s.nr,
        rxFmt := f.fmt, rxDst := f.dst, rxSrc := f.src, rxCtrl := f.ctrl,
        rxPayAddr := BitVec.ofNat 32 (s.srcAddr.toNat + f.payOff), rxPayLen := BitVec.ofNat 32 f.payLen,
        rxConsumed := BitVec.ofNat 32 f.consumed, err := .ok }) ∧
    (s.link = .connected → f.info = true → s.reasmCap ≠ 0 →
      s.reasmBase.toNat + s.reasmCap.toNat ≤ s.params.bufSize →
      (if s.reasmDone then 0 else s.reasmFill.toNat) + f.payLen ≤ s.reasmCap.toNat →
      ∃ t, exec .hdlcParse s = .next t ∧
        { t with buf := s.buf } = { s with
          nr := if f.ctrl.getLsbD 0 then s.nr + 1 else s.nr,
          reasmFill := BitVec.ofNat 32 ((if s.reasmDone then 0 else s.reasmFill.toNat) + f.payLen),
          reasmDone := f.ctrl.getLsbD 0,
          rxFmt := f.fmt, rxDst := f.dst, rxSrc := f.src, rxCtrl := f.ctrl,
          rxPayAddr := BitVec.ofNat 32 (s.srcAddr.toNat + f.payOff), rxPayLen := BitVec.ofNat 32 f.payLen,
          rxConsumed := BitVec.ofNat 32 f.consumed, err := .ok } ∧
        (∀ k, k < f.payLen →
          t.bufByte (s.reasmBase.toNat + (if s.reasmDone then 0 else s.reasmFill.toNat) + k) =
            s.bufByte (s.srcAddr.toNat + f.payOff + k)) ∧
        ∀ a, (a < s.reasmBase.toNat + (if s.reasmDone then 0 else s.reasmFill.toNat) ∨
            s.reasmBase.toNat + (if s.reasmDone then 0 else s.reasmFill.toNat) + f.payLen ≤ a) →
          t.bufByte a = s.bufByte a)

/-- The failures of R113 before and after the data stage, in their order; what the data stage itself rejects is in
HdlcParseRejects and HdlcParseIncomplete. -/
def Obligations.HdlcParseFailures : Prop :=
  decode 0x00000014 = .ok .hdlcParse ∧ stageOneFails .hdlcParse ∧
  ∀ s : State,
    ((s.params.bufSize < s.srcAddr.toNat + s.srcLen.toNat ∨
        (s.link = .connected ∧ s.reasmCap ≠ 0 ∧ s.params.bufSize < s.reasmBase.toNat + s.reasmCap.toNat)) →
      exec .hdlcParse s = .next { s with err := .outOfBounds }) ∧
    (∀ f, s.srcAddr.toNat + s.srcLen.toNat ≤ s.params.bufSize →
      s.reasmBase.toNat + s.reasmCap.toNat ≤ s.params.bufSize →
      parseFrame s.params s.verifyCrc (s.memRead s.srcAddr.toNat s.srcLen.toNat) = .frame f →
      s.link = .connected → f.info = true → s.reasmCap ≠ 0 →
      s.reasmCap.toNat < (if s.reasmDone then 0 else s.reasmFill.toNat) + f.payLen →
      ∃ t, exec .hdlcParse s = .next t ∧
        { t with buf := s.buf, draws := s.draws } = { s with err := .bufferTooSmall } ∧
        ∀ a, (a < s.reasmBase.toNat + (if s.reasmDone then 0 else s.reasmFill.toNat) ∨
            s.reasmBase.toNat + s.reasmCap.toNat ≤ a) → t.bufByte a = s.bufByte a)

/-- R106: without a flag, or with nothing but a run of flags and at most one byte after the first flag's run, the
command fails with IncompleteData and changes nothing else. -/
def Obligations.HdlcParseIncomplete : Prop :=
  ∀ s : State, s.srcAddr.toNat + s.srcLen.toNat ≤ s.params.bufSize →
    (s.link ≠ .connected ∨ s.reasmCap = 0 ∨ s.reasmBase.toNat + s.reasmCap.toNat ≤ s.params.bufSize) →
    ((∀ k, k < s.srcLen.toNat → s.bufByte (s.srcAddr.toNat + k) ≠ 0x7E) ∨
     (∃ i p, i < p ∧ p ≤ s.srcLen.toNat ∧ s.srcLen.toNat < p + 2 ∧
       (∀ k, k < i → s.bufByte (s.srcAddr.toNat + k) ≠ 0x7E) ∧
       (∀ k, i ≤ k → k < p → s.bufByte (s.srcAddr.toNat + k) = 0x7E) ∧
       (p < s.srcLen.toNat → s.bufByte (s.srcAddr.toNat + p) ≠ 0x7E))) →
    exec .hdlcParse s = .next { s with err := .incompleteData }

/-- R106 to R108 and stage 5 of R113, check by check: the frame starts at `p`, after the first run of flags; `L` is its
length field, `kd` and `ks` the byte counts of its addresses. InvalidFrame and Checksum write RX_CONSUMED and
STATUS.ERR, IncompleteData writes STATUS.ERR. -/
def Obligations.HdlcParseRejects : Prop :=
  ∀ (s : State) (bs : List Byte) (i p L : Nat),
    s.srcAddr.toNat + s.srcLen.toNat ≤ s.params.bufSize →
    (s.link ≠ .connected ∨ s.reasmCap = 0 ∨ s.reasmBase.toNat + s.reasmCap.toNat ≤ s.params.bufSize) →
    bs = s.memRead s.srcAddr.toNat s.srcLen.toNat → i < p → p + 2 ≤ bs.length →
    (∀ k, k < i → byteAt bs k ≠ 0x7E) → (∀ k, i ≤ k → k < p → byteAt bs k = 0x7E) → byteAt bs p ≠ 0x7E →
    L = (256 * (byteAt bs p).toNat + (byteAt bs (p + 1)).toNat) % 2048 →
    ((byteAt bs p).toNat / 16 ≠ 0xA →
      exec .hdlcParse s = .next { s with rxConsumed := BitVec.ofNat 32 p, err := .invalidFrame }) ∧
    ((byteAt bs p).toNat / 16 = 0xA → L < 7 →
      exec .hdlcParse s = .next { s with rxConsumed := BitVec.ofNat 32 p, err := .invalidFrame }) ∧
    ((byteAt bs p).toNat / 16 = 0xA → 7 ≤ L → bs.length < p + L + 1 →
      exec .hdlcParse s = .next { s with err := .incompleteData }) ∧
    ((byteAt bs p).toNat / 16 = 0xA → 7 ≤ L → p + L + 1 ≤ bs.length → byteAt bs (p + L) ≠ 0x7E →
      exec .hdlcParse s = .next { s with rxConsumed := BitVec.ofNat 32 p, err := .invalidFrame }) ∧
    ((byteAt bs p).toNat / 16 = 0xA → 7 ≤ L → p + L + 1 ≤ bs.length → byteAt bs (p + L) = 0x7E →
      (vlqDecode bs (p + 2) (p + L) = none →
        exec .hdlcParse s = .next { s with rxConsumed := BitVec.ofNat 32 p, err := .invalidFrame }) ∧
      ∀ dst kd, vlqDecode bs (p + 2) (p + L) = some (dst, kd) →
        (vlqDecode bs (p + 2 + kd) (p + L) = none →
          exec .hdlcParse s = .next { s with rxConsumed := BitVec.ofNat 32 p, err := .invalidFrame }) ∧
        ∀ src ks h, vlqDecode bs (p + 2 + kd) (p + L) = some (src, ks) → h = 2 + kd + ks + 1 →
          (L < h + 2 ∨ L = h + 3 →
            exec .hdlcParse s = .next { s with rxConsumed := BitVec.ofNat 32 p, err := .invalidFrame }) ∧
          (s.verifyCrc = true → L = h + 2 ∨ h + 4 ≤ L →
            crc s.params .ccitt (slice bs p (p + h)) ≠ rdle16 bs (p + h) →
            exec .hdlcParse s = .next { s with rxConsumed := BitVec.ofNat 32 p, err := .checksum }) ∧
          (s.verifyCrc = true → h + 4 ≤ L → crc s.params .ccitt (slice bs p (p + L - 2)) ≠ rdle16 bs (p + L - 2) →
            exec .hdlcParse s = .next { s with rxConsumed := BitVec.ofNat 32 p, err := .checksum }))

/-- The other side of R106 to R108: a byte sequence that passes every check, the check sequences only where they are
verified, is one frame with these fields. -/
def Obligations.ParseFrameAccepts : Prop :=
  ∀ (P : Params) (verify : Bool) (bs : List Byte) (i p L kd ks h : Nat) (dst src : BitVec 28),
    i < p → (∀ k, k < i → byteAt bs k ≠ 0x7E) → (∀ k, i ≤ k → k < p → byteAt bs k = 0x7E) →
    (byteAt bs p).toNat / 16 = 0xA → L = (256 * (byteAt bs p).toNat + (byteAt bs (p + 1)).toNat) % 2048 → 7 ≤ L →
    p + L + 1 ≤ bs.length → byteAt bs (p + L) = 0x7E →
    vlqDecode bs (p + 2) (p + L) = some (dst, kd) → vlqDecode bs (p + 2 + kd) (p + L) = some (src, ks) →
    h = 2 + kd + ks + 1 → (verify = true → crc P .ccitt (slice bs p (p + h)) = rdle16 bs (p + h)) →
    (L = h + 2 →
      parseFrame P verify bs = .frame {
        fmt := fmtAt bs p, dst := dst, src := src, ctrl := byteAt bs (p + h - 1),
        info := false, payOff := p + h + 2, payLen := 0, consumed := p + L }) ∧
    (h + 4 ≤ L → (verify = true → crc P .ccitt (slice bs p (p + L - 2)) = rdle16 bs (p + L - 2)) →
      parseFrame P verify bs = .frame {
        fmt := fmtAt bs p, dst := dst, src := src, ctrl := byteAt bs (p + h - 1),
        info := true, payOff := p + h + 2, payLen := L - h - 4, consumed := p + L })

/-- R109: RX_CONSUMED on success, on InvalidFrame and Checksum, and on every other failure. -/
def Obligations.HdlcParseConsumed : Prop :=
  ∀ s t : State, exec .hdlcParse s = .next t →
    ((t.err = .ok ∨ t.err = .invalidFrame ∨ t.err = .checksum) →
      ∃ i p, firstFlag (s.memRead s.srcAddr.toNat s.srcLen.toNat) = some i ∧
        p = i + flagRun ((s.memRead s.srcAddr.toNat s.srcLen.toNat).drop i) ∧
        (t.err = .ok → t.rxConsumed = BitVec.ofNat 32 (p + fmtLength t.rxFmt) ∧
          s.bufByte (s.srcAddr.toNat + (p + fmtLength t.rxFmt)) = 0x7E) ∧
        (t.err ≠ .ok → t = { s with rxConsumed := BitVec.ofNat 32 p, err := t.err })) ∧
    (t.err ≠ .ok → t.err ≠ .invalidFrame → t.err ≠ .checksum → t.rxConsumed = s.rxConsumed)

/-- Built, then parsed back: in Connected, with FILL_CRC on and no reassembly buffer, HDLC_PARSE over the frame that
HDLC_BUILD_IFRAME has just written recovers the addresses, the control byte and the payload. -/
def Obligations.IframeLoopback : Prop :=
  ∀ (s : State) (f : Bool), s.params.legal → s.link = .connected → s.fillCrc = true → s.reasmCap = 0 →
    s.srcAddr.toNat + s.srcLen.toNat ≤ s.params.bufSize → s.dstAddr.toNat + s.dstCap.toNat ≤ s.params.bufSize →
    s.srcLen.toNat ≠ 0 → (vlq s.serverAddr).length + (vlq s.clientAddr).length + 7 + s.srcLen.toNat ≤ 2047 →
    (vlq s.serverAddr).length + (vlq s.clientAddr).length + 9 + s.srcLen.toNat ≤ s.dstCap.toNat →
    ∃ t u, exec (.hdlcBuildIframe f) s = .next t ∧
      exec .hdlcParse { t with srcAddr := s.dstAddr, srcLen := t.outLen } = .next u ∧
      u.err = .ok ∧ u.rxDst = s.serverAddr ∧ u.rxSrc = s.clientAddr ∧
      u.rxCtrl.toNat = 32 * s.nr.toNat + 2 * s.ns.toNat + (if f then 1 else 0) ∧
      u.rxPayLen = s.srcLen ∧
      u.memRead u.rxPayAddr.toNat u.rxPayLen.toNat = s.memRead s.srcAddr.toNat s.srcLen.toNat ∧
      u.nr = (if f then s.nr + 1 else s.nr) ∧ u.ns = (if f then s.ns + 1 else s.ns) ∧ u.link = .connected

/-! ### Rules over all commands -/

/-- R99: the table of the link states, over all commands. -/
def Obligations.LinkStateTable : Prop :=
  ∀ (i : Instr) (s t : State), exec i s = .next t →
    (nextLink s.link i.opcode = none → t = { s with err := .invalidState }) ∧
    (∀ l, nextLink s.link i.opcode = some l → t.err = .ok → t.link = l) ∧
    (t.err ≠ .ok → t.link = s.link)

/-- R100: what changes NS and NR, over all commands. -/
def Obligations.SequenceCounterRules : Prop :=
  ∀ (i : Instr) (s t : State), exec i s = .next t →
    (t.err ≠ .ok → t.ns = s.ns ∧ t.nr = s.nr) ∧
    (t.err = .ok → i = .hdlcReset ∨ i = .hdlcBuildSnrm → t.ns = 0 ∧ t.nr = 0) ∧
    (t.err = .ok → i ≠ .hdlcReset → i ≠ .hdlcBuildSnrm →
      t.ns.toNat = (if i = .hdlcBuildIframe true then (s.ns.toNat + 1) % 8 else s.ns.toNat) ∧
      (i ≠ .hdlcParse → t.nr = s.nr) ∧
      (∀ f, i = .hdlcParse → parseFrame s.params s.verifyCrc s.srcBytes = .frame f →
        t.nr.toNat = if s.link = .connected ∧ f.info = true ∧ f.ctrl.getLsbD 0 = true
          then (s.nr.toNat + 1) % 8 else s.nr.toNat))

/-- R68, over all command words: what a failed command leaves. `draws` is the model's counter of log entry 3. -/
def Obligations.FailedCommandChangesOnlyErr : Prop :=
  ∀ (w : Word) (s t : State), issue s w = .next t → t.err ≠ .ok →
    { t with err := s.err, rxConsumed := s.rxConsumed, buf := s.buf, draws := s.draws } = s ∧
    (t.rxConsumed = s.rxConsumed ∨
      (decode w = .ok .hdlcParse ∧ (t.err = .invalidFrame ∨ t.err = .checksum))) ∧
    (t.err ≠ .bufferTooSmall → ∀ a, t.bufByte a = s.bufByte a) ∧
    (t.err = .bufferTooSmall → ∃ i, decode w = .ok i ∧
      ∀ a, (a < (spoiledWindow s i.opcode).1 ∨
        (spoiledWindow s i.opcode).1 + (spoiledWindow s i.opcode).2 ≤ a) → t.bufByte a = s.bufByte a)

/-- R69, over all commands: the window of a BufferTooSmall failure, and nothing else of BUF. That a byte of the
window is the free value of the state's next draw is the model's form of "unspecified" (log entry 3). -/
def Obligations.TooSmallSpoilsOnlyTheWindow : Prop :=
  ∀ (i : Instr) (s t : State), exec i s = .next t → t.err = .bufferTooSmall →
    (i = .hdlcParse ∨ i = .crcStore ∨ i = .dnp3Blocks ∨ i = .hdlcBuildSnrm ∨ ∃ f, i = .hdlcBuildIframe f) ∧
    (∀ a n, (a, n) = spoiledWindow s i.opcode →
      (∀ x, (x < a ∨ a + n ≤ x) → t.bufByte x = s.bufByte x) ∧
      (∀ x, a ≤ x → x < a + n → t.bufByte x = Config.freeByte s.draws x))

/-- R115: a well-formed command ends only with a code its row marks, and every marked cell can occur. -/
def Obligations.ResultCodeTable : Prop :=
  (∀ (i : Instr) (s t : State), i.wellFormed = true → exec i s = .next t → canEnd i.opcode t.err = true) ∧
  (∀ (op : Opcode) (e : ResultCode), canEnd op e = true →
    ∃ (i : Instr) (s t : State), i.wellFormed = true ∧ i.opcode = op ∧ exec i s = .next t ∧ t.err = e)

/-- The registers that only a host write changes (R23, R24, R30, R31), the parameters, and the model's own fields but
the draw counter: no command writes them. -/
def Obligations.CommandsKeepHostRegisters : Prop :=
  ∀ (i : Instr) (s t : State), exec i s = .next t →
    t.srcAddr = s.srcAddr ∧ t.srcLen = s.srcLen ∧ t.dstAddr = s.dstAddr ∧ t.dstCap = s.dstCap ∧
    t.fillCrc = s.fillCrc ∧ t.verifyCrc = s.verifyCrc ∧ t.serverAddr = s.serverAddr ∧
    t.clientAddr = s.clientAddr ∧ t.reasmBase = s.reasmBase ∧ t.reasmCap = s.reasmCap ∧
    t.params = s.params ∧ t.bufDraw = s.bufDraw ∧ t.pending = s.pending ∧ t.readData = s.readData

/-- R135: CRC_VERIFY, DNP3_BLOCKS and the HDLC commands do not touch the CRC registers; nor do NOP (R72) and CRC_STORE
(R84). -/
def Obligations.CrcRegistersKept : Prop :=
  ∀ (i : Instr) (s t : State), exec i s = .next t →
    (∀ var, i ≠ .crcInit var) → i ≠ .crcUpdate → (∀ imm, i ≠ .crcByte imm) → (∀ var, i ≠ .crcCompute var) →
    t.crcVar = s.crcVar ∧ t.crcState = s.crcState ∧ t.crcResult = s.crcResult

/-! ### The host's window (spec/10_state.md R19 to R32, spec/20_memory.md R37 to R39) -/

/-- The 24 registers stand at the offsets of R19; a 32-bit read of one returns its value and has no side effect (R38);
each register's value is that of its fields at the bits of R20 to R32, the rest 0: the codes of R114, the link states of
R21, the variants of R73, and CRC_RESULT as R28 derives it. -/
def Obligations.RegisterReads : Prop :=
  (∀ r : Reg, r.offset =
    (match r with
     | .cmd => 0x000 | .status => 0x004 | .ctrl => 0x008 | .srcAddr => 0x00C | .srcLen => 0x010
     | .dstAddr => 0x014 | .dstCap => 0x018 | .outLen => 0x01C | .crcCfg => 0x020 | .crcState => 0x024
     | .crcResult => 0x028 | .seq => 0x02C | .serverAddr => 0x030 | .clientAddr => 0x034 | .reasmBase => 0x038
     | .reasmCap => 0x03C | .reasmFill => 0x040 | .rxFmt => 0x044 | .rxDst => 0x048 | .rxSrc => 0x04C
     | .rxCtrl => 0x050 | .rxPayAddr => 0x054 | .rxPayLen => 0x058 | .rxConsumed => 0x05C)) ∧
  (∀ (s : State) (rest : List Input) (r : Reg), s.pending = .read 32 r.offset :: rest →
    step s = .next { s with pending := rest, readData := some (s.readReg r) }) ∧
  (∀ s : State,
    (s.readReg .cmd).toNat = 0 ∧
    (s.readReg .status).toNat =
      (match s.err with
       | .ok => 0 | .generic => 1 | .invalidArg => 2 | .incompleteData => 3 | .bufferTooSmall => 4
       | .notSupported => 5 | .overflow => 6 | .invalidState => 7 | .checksum => 8 | .invalidFrame => 9
       | .outOfBounds => 10) +
      16 * (match s.link with | .disconnected => 0 | .connecting => 1 | .connected => 2) +
      64 * (if s.reasmDone then 1 else 0) ∧
    (s.readReg .ctrl).toNat = (if s.fillCrc then 1 else 0) + 2 * (if s.verifyCrc then 1 else 0) ∧
    (s.readReg .crcCfg).toNat = (match s.crcVar with | .modbus => 0 | .ccitt => 1 | .dnp3 => 2) ∧
    (s.readReg .crcState).toNat = s.crcState.toNat ∧
    (s.readReg .crcResult).toNat = (s.crcState ^^^ s.crcVar.xorOut s.params).toNat ∧
    (s.readReg .seq).toNat = s.ns.toNat + 16 * s.nr.toNat ∧
    (s.readReg .serverAddr).toNat = s.serverAddr.toNat ∧ (s.readReg .clientAddr).toNat = s.clientAddr.toNat ∧
    (s.readReg .rxFmt).toNat = s.rxFmt.toNat ∧ (s.readReg .rxDst).toNat = s.rxDst.toNat ∧
    (s.readReg .rxSrc).toNat = s.rxSrc.toNat ∧ (s.readReg .rxCtrl).toNat = s.rxCtrl.toNat ∧
    s.readReg .srcAddr = s.srcAddr ∧ s.readReg .srcLen = s.srcLen ∧ s.readReg .dstAddr = s.dstAddr ∧
    s.readReg .dstCap = s.dstCap ∧ s.readReg .outLen = s.outLen ∧ s.readReg .reasmBase = s.reasmBase ∧
    s.readReg .reasmCap = s.reasmCap ∧ s.readReg .reasmFill = s.reasmFill ∧
    s.readReg .rxPayAddr = s.rxPayAddr ∧ s.readReg .rxPayLen = s.rxPayLen ∧ s.readReg .rxConsumed = s.rxConsumed)

/-- A 32-bit write stores what each register's rule says, and only that: R23, R24, R26, R27, R30, R31; a read-only
register ignores it (R19). -/
def Obligations.RegisterWrites : Prop :=
  ∀ (s u : State) (rest : List Input) (r : Reg) (w : Word), s.pending = .write 32 r.offset w :: rest →
    u = { s with pending := rest, readData := none } → r ≠ .cmd →
    step s = .next
      (match r with
       | .ctrl => { u with fillCrc := w.getLsbD 0, verifyCrc := w.getLsbD 1 }
       | .srcAddr => { u with srcAddr := w }
       | .srcLen => { u with srcLen := w }
       | .dstAddr => { u with dstAddr := w }
       | .dstCap => { u with dstCap := w }
       | .crcCfg => { u with crcVar := if w.toNat % 4 = 0 then .modbus else if w.toNat % 4 = 1 then .ccitt
                                       else if w.toNat % 4 = 2 then .dnp3 else s.crcVar }
       | .crcState => { u with crcState := w.setWidth 16 }
       | .serverAddr => { u with serverAddr := w.setWidth 28 }
       | .clientAddr => { u with clientAddr := w.setWidth 28 }
       | .reasmBase => { u with reasmBase := w }
       | .reasmCap => { u with reasmCap := w }
       | _ => u)

/-- R37: the reserved offsets of the register area read 0 and ignore writes. -/
def Obligations.ReservedOffsetsReadZero : Prop :=
  ∀ (s : State) (rest : List Input) (off : Nat) (w : Word), 0x60 ≤ off → off < 0x1000 → off % 4 = 0 →
    (s.pending = .read 32 off :: rest → step s = .next { s with pending := rest, readData := some 0 }) ∧
    (s.pending = .write 32 off w :: rest → step s = .next { s with pending := rest, readData := none })

/-- R39: a host read of 1, 2 or 4 bytes of BUF, little-endian, and no side effect. -/
def Obligations.BufHostReads : Prop :=
  ∀ (s : State) (rest : List Input) (a : Nat),
    (s.pending = .read 8 (0x1000 + a) :: rest → a + 1 ≤ s.params.bufSize →
      step s = .next { s with pending := rest, readData := some ((s.bufByte a).setWidth 32) }) ∧
    (s.pending = .read 16 (0x1000 + a) :: rest → a + 2 ≤ s.params.bufSize → a % 2 = 0 →
      step s = .next { s with
        pending := rest,
        readData := some (BitVec.ofNat 32 ((s.bufByte a).toNat + 256 * (s.bufByte (a + 1)).toNat)) }) ∧
    (s.pending = .read 32 (0x1000 + a) :: rest → a + 4 ≤ s.params.bufSize → a % 4 = 0 →
      step s = .next { s with
        pending := rest,
        readData := some (BitVec.ofNat 32 ((s.bufByte a).toNat + 256 * (s.bufByte (a + 1)).toNat +
          65536 * (s.bufByte (a + 2)).toNat + 16777216 * (s.bufByte (a + 3)).toNat)) })

/-- R39: a host write of `n` bytes of BUF stores them little-endian and changes nothing else, so that accesses of
other widths see the bytes (R42). -/
def Obligations.BufHostWrites : Prop :=
  ∀ (s : State) (rest : List Input) (a n : Nat) (w : Word), (n = 1 ∨ n = 2 ∨ n = 4) →
    s.pending = .write (8 * n) (0x1000 + a) w :: rest → a + n ≤ s.params.bufSize → a % n = 0 →
    ∃ t, step s = .next t ∧
      { t with buf := s.buf } = { s with pending := rest, readData := none } ∧
      (∀ k, k < n → (t.bufByte (a + k)).toNat = w.toNat / 256 ^ k % 256) ∧
      ∀ x, (x < a ∨ a + n ≤ x) → t.bufByte x = s.bufByte x

/-- Items I2, I3 and I5: exactly the accesses that R37 to R39 and R124 refuse are refused. -/
def Obligations.RefusedAccesses : Prop :=
  ∀ (s : State) (rest : List Input) (bits off : Nat) (w : Word),
    (s.pending = .read bits off :: rest ∨ s.pending = .write bits off w :: rest →
      ((∃ r, step s = .refused r) ↔
        (off < 0x1000 ∧ (bits ≠ 32 ∨ off % 4 ≠ 0)) ∨
        (0x1000 ≤ off ∧ ((bits ≠ 8 ∧ bits ≠ 16 ∧ bits ≠ 32) ∨ 0x1000 + s.params.bufSize < off + bits / 8 ∨
          (off - 0x1000) % (bits / 8) ≠ 0)))) ∧
    (s.pending = .secondMaster :: rest → step s = .refused .secondMaster)

/-! ### Reset and the whole machine (spec/10_state.md R36, spec/70_reset_and_hazards.md R127, R128) -/

/-- R36: what every register reads after a hardware reset, for every parameter; BUF is unspecified, so no byte is
named. -/
def Obligations.ResetValues : Prop :=
  ∀ (P : Params) (r : Reg), (State.resetWith P).readReg r =
    (match r with
     | .ctrl => 0x00000003#32
     | .crcState => 0x0000FFFF#32
     | .crcResult => 0x0000FFFF#32
     | _ => 0#32)

/-- R127: a hardware reset gives every register its reset value, whatever came before. That it keeps the parameters
and the inputs still to come, and takes BUF's bytes from a draw used for nothing else, is the model's (log entries 2
and 9). -/
def Obligations.HardResetResets : Prop :=
  ∀ (s : State) (rest : List Input), s.pending = .hardReset :: rest →
    ∃ t, step s = .next t ∧
      { t with buf := [], bufDraw := 0, draws := 1, pending := [] } = State.resetWith s.params ∧
      t.pending = rest ∧ ∀ a, t.bufByte a = Config.freeByte s.draws a

/-- The state after a hardware reset satisfies the invariant, for every legal parameter; the parameters of State.reset
itself are the model's choice (log entry 1). -/
def Obligations.InvAtReset : Prop :=
  (∀ P : Params, P.legal → (State.resetWith P).Inv) ∧ State.reset.Inv

/-- Every step keeps the invariant, whatever the host does: BUF's list stays canonical and inside BUF, only the codes
that R114 says occur are reported, the session is clear outside Connected, the payload view and the other lengths
stay within BUF. -/
def Obligations.StepKeepsInv : Prop :=
  ∀ s t : State, s.Inv → step s = .next t → t.Inv

/-- The model's own (log entries 2 and 3): a step uses at most one draw, always the next unused one, and a step that
uses it, a hardware reset or a command that ends in BufferTooSmall, leaves it behind, so that no unspecified byte is
ever tied to an earlier one. -/
def Obligations.DrawsNeverReused : Prop :=
  ∀ s t : State, step s = .next t →
    (t.draws = s.draws ∨ t.draws = s.draws + 1) ∧
    (t.bufDraw = s.bufDraw ∨ (t.bufDraw = s.draws ∧ t.draws = s.draws + 1)) ∧
    (∀ rest, s.pending = .hardReset :: rest → t.bufDraw = s.draws ∧ t.draws = s.draws + 1) ∧
    (∀ rest w, s.pending = .write 32 0 w :: rest → t.err = .bufferTooSmall →
      t.bufDraw = s.bufDraw ∧ t.draws = s.draws + 1) ∧
    ((∀ rest, s.pending ≠ .hardReset :: rest) →
      (∀ rest w, s.pending = .write 32 0 w :: rest → t.err ≠ .bufferTooSmall) →
      t.bufDraw = s.bufDraw ∧ t.draws = s.draws)

/-- R61: the forms the assembler accepts and no others, each with the operands its suffix and immediate name; the words
`OPC | VAR << 8 | F << 10 | IMM8 << 16` of what it accepts; and that each of them decodes to the command named. The last
clause reads R61's own examples as text, whose lexical conventions are the model's (log entry 15). -/
def Obligations.AssemblerSpellsLegalWords : Prop :=
  (∀ (op : Opcode) (suffix : Option Token) (imm : Option Nat) (i : Instr), assemble op suffix imm = some i ↔
    (imm = none ∧ ∃ var : BitVec 2,
      (suffix, var) ∈ [(some "MODBUS".toList, 0), (some "CCITT".toList, 1), (some "DNP3".toList, 2)] ∧
      (op, i) ∈ [(.crcInit, .crcInit var), (.crcCompute, .crcCompute var), (.crcVerify, .crcVerify var)]) ∨
    (op = .crcByte ∧ suffix = none ∧ ∃ n, n ≤ 255 ∧ imm = some n ∧ i = .crcByte (BitVec.ofNat 8 n)) ∨
    (op = .hdlcBuildIframe ∧ imm = none ∧
      (suffix, i) ∈ [(none, .hdlcBuildIframe false), (some "F".toList, .hdlcBuildIframe true)]) ∨
    (suffix = none ∧ imm = none ∧
      (op, i) ∈ [(.nop, .nop), (.crcUpdate, .crcUpdate), (.crcStore, .crcStore), (.dnp3Blocks, .dnp3Blocks),
        (.hdlcReset, .hdlcReset), (.hdlcBuildSnrm, .hdlcBuildSnrm), (.hdlcSetConnected, .hdlcSetConnected),
        (.hdlcParse, .hdlcParse)])) ∧
  (∀ (op : Opcode) (suffix : Option Token) (imm : Option Nat) (i : Instr), assemble op suffix imm = some i →
    i.opcode = op ∧ decode (encode i) = .ok i ∧
    (encode i).toNat = op.code.toNat +
      (match i with
       | .crcInit var | .crcCompute var | .crcVerify var => var.toNat * 2 ^ 8
       | .hdlcBuildIframe final => if final then 2 ^ 10 else 0
       | .crcByte imm8 => imm8.toNat * 2 ^ 16
       | _ => 0)) ∧
  mnemonics.length = 13 ∧
  (∀ m ∈ [("NOP", Opcode.nop), ("CRC_INIT", .crcInit), ("CRC_UPDATE", .crcUpdate), ("CRC_BYTE", .crcByte),
      ("CRC_COMPUTE", .crcCompute), ("CRC_STORE", .crcStore), ("CRC_VERIFY", .crcVerify),
      ("DNP3_BLOCKS", .dnp3Blocks), ("HDLC_RESET", .hdlcReset), ("HDLC_BUILD_SNRM", .hdlcBuildSnrm),
      ("HDLC_SET_CONNECTED", .hdlcSetConnected), ("HDLC_BUILD_IFRAME", .hdlcBuildIframe),
      ("HDLC_PARSE", .hdlcParse)], mnemonics.lookup m.1.toList = some m.2) ∧
  readTokens (tokens "cmd CRC_INIT.CCITT".toList) = some [.cmd (.crcInit 1)] ∧
  readTokens (tokens "cmd HDLC_BUILD_IFRAME.F".toList) = some [.cmd (.hdlcBuildIframe true)] ∧
  readTokens (tokens "cmd CRC_BYTE 0xAB".toList) = some [.cmd (.crcByte 0xAB)] ∧
  encode (.crcInit 1) = 0x00000101 ∧ encode (.hdlcBuildIframe true) = 0x00000413 ∧
  encode (.crcByte 0xAB) = 0x00AB0003
end

