-- ==== Sys2Proof/Laws/State.lean ====
section
/-! SUPPORT. One lemma per field per update of State, so that no proof unfolds a record update. -/

namespace Sys2Proof.Machine

/-! ### State.withErr -/

@[simp] theorem State.withErr_params (s : State) (e : ResultCode) : (s.withErr e).params = s.params := rfl
@[simp] theorem State.withErr_err (s : State) (e : ResultCode) : (s.withErr e).err = e := rfl
@[simp] theorem State.withErr_link (s : State) (e : ResultCode) : (s.withErr e).link = s.link := rfl
@[simp] theorem State.withErr_reasmDone (s : State) (e : ResultCode) : (s.withErr e).reasmDone = s.reasmDone := rfl
@[simp] theorem State.withErr_fillCrc (s : State) (e : ResultCode) : (s.withErr e).fillCrc = s.fillCrc := rfl
@[simp] theorem State.withErr_verifyCrc (s : State) (e : ResultCode) : (s.withErr e).verifyCrc = s.verifyCrc := rfl
@[simp] theorem State.withErr_srcAddr (s : State) (e : ResultCode) : (s.withErr e).srcAddr = s.srcAddr := rfl
@[simp] theorem State.withErr_srcLen (s : State) (e : ResultCode) : (s.withErr e).srcLen = s.srcLen := rfl
@[simp] theorem State.withErr_dstAddr (s : State) (e : ResultCode) : (s.withErr e).dstAddr = s.dstAddr := rfl
@[simp] theorem State.withErr_dstCap (s : State) (e : ResultCode) : (s.withErr e).dstCap = s.dstCap := rfl
@[simp] theorem State.withErr_outLen (s : State) (e : ResultCode) : (s.withErr e).outLen = s.outLen := rfl
@[simp] theorem State.withErr_crcVar (s : State) (e : ResultCode) : (s.withErr e).crcVar = s.crcVar := rfl
@[simp] theorem State.withErr_crcState (s : State) (e : ResultCode) : (s.withErr e).crcState = s.crcState := rfl
@[simp] theorem State.withErr_ns (s : State) (e : ResultCode) : (s.withErr e).ns = s.ns := rfl
@[simp] theorem State.withErr_nr (s : State) (e : ResultCode) : (s.withErr e).nr = s.nr := rfl
@[simp] theorem State.withErr_serverAddr (s : State) (e : ResultCode) : (s.withErr e).serverAddr = s.serverAddr := rfl
@[simp] theorem State.withErr_clientAddr (s : State) (e : ResultCode) : (s.withErr e).clientAddr = s.clientAddr := rfl
@[simp] theorem State.withErr_reasmBase (s : State) (e : ResultCode) : (s.withErr e).reasmBase = s.reasmBase := rfl
@[simp] theorem State.withErr_reasmCap (s : State) (e : ResultCode) : (s.withErr e).reasmCap = s.reasmCap := rfl
@[simp] theorem State.withErr_reasmFill (s : State) (e : ResultCode) : (s.withErr e).reasmFill = s.reasmFill := rfl
@[simp] theorem State.withErr_rxFmt (s : State) (e : ResultCode) : (s.withErr e).rxFmt = s.rxFmt := rfl
@[simp] theorem State.withErr_rxDst (s : State) (e : ResultCode) : (s.withErr e).rxDst = s.rxDst := rfl
@[simp] theorem State.withErr_rxSrc (s : State) (e : ResultCode) : (s.withErr e).rxSrc = s.rxSrc := rfl
@[simp] theorem State.withErr_rxCtrl (s : State) (e : ResultCode) : (s.withErr e).rxCtrl = s.rxCtrl := rfl
@[simp] theorem State.withErr_rxPayAddr (s : State) (e : ResultCode) : (s.withErr e).rxPayAddr = s.rxPayAddr := rfl
@[simp] theorem State.withErr_rxPayLen (s : State) (e : ResultCode) : (s.withErr e).rxPayLen = s.rxPayLen := rfl
@[simp] theorem State.withErr_rxConsumed (s : State) (e : ResultCode) : (s.withErr e).rxConsumed = s.rxConsumed := rfl
@[simp] theorem State.withErr_buf (s : State) (e : ResultCode) : (s.withErr e).buf = s.buf := rfl
@[simp] theorem State.withErr_bufDraw (s : State) (e : ResultCode) : (s.withErr e).bufDraw = s.bufDraw := rfl
@[simp] theorem State.withErr_draws (s : State) (e : ResultCode) : (s.withErr e).draws = s.draws := rfl
@[simp] theorem State.withErr_pending (s : State) (e : ResultCode) : (s.withErr e).pending = s.pending := rfl
@[simp] theorem State.withErr_readData (s : State) (e : ResultCode) : (s.withErr e).readData = s.readData := rfl

/-! ### State.memWrite -/

@[simp] theorem State.memWrite_params (s : State) (a : Nat) (bs : List Byte) : (s.memWrite a bs).params = s.params := rfl
@[simp] theorem State.memWrite_err (s : State) (a : Nat) (bs : List Byte) : (s.memWrite a bs).err = s.err := rfl
@[simp] theorem State.memWrite_link (s : State) (a : Nat) (bs : List Byte) : (s.memWrite a bs).link = s.link := rfl
@[simp] theorem State.memWrite_reasmDone (s : State) (a : Nat) (bs : List Byte) : (s.memWrite a bs).reasmDone = s.reasmDone := rfl
@[simp] theorem State.memWrite_fillCrc (s : State) (a : Nat) (bs : List Byte) : (s.memWrite a bs).fillCrc = s.fillCrc := rfl
@[simp] theorem State.memWrite_verifyCrc (s : State) (a : Nat) (bs : List Byte) : (s.memWrite a bs).verifyCrc = s.verifyCrc := rfl
@[simp] theorem State.memWrite_srcAddr (s : State) (a : Nat) (bs : List Byte) : (s.memWrite a bs).srcAddr = s.srcAddr := rfl
@[simp] theorem State.memWrite_srcLen (s : State) (a : Nat) (bs : List Byte) : (s.memWrite a bs).srcLen = s.srcLen := rfl
@[simp] theorem State.memWrite_dstAddr (s : State) (a : Nat) (bs : List Byte) : (s.memWrite a bs).dstAddr = s.dstAddr := rfl
@[simp] theorem State.memWrite_dstCap (s : State) (a : Nat) (bs : List Byte) : (s.memWrite a bs).dstCap = s.dstCap := rfl
@[simp] theorem State.memWrite_outLen (s : State) (a : Nat) (bs : List Byte) : (s.memWrite a bs).outLen = s.outLen := rfl
@[simp] theorem State.memWrite_crcVar (s : State) (a : Nat) (bs : List Byte) : (s.memWrite a bs).crcVar = s.crcVar := rfl
@[simp] theorem State.memWrite_crcState (s : State) (a : Nat) (bs : List Byte) : (s.memWrite a bs).crcState = s.crcState := rfl
@[simp] theorem State.memWrite_ns (s : State) (a : Nat) (bs : List Byte) : (s.memWrite a bs).ns = s.ns := rfl
@[simp] theorem State.memWrite_nr (s : State) (a : Nat) (bs : List Byte) : (s.memWrite a bs).nr = s.nr := rfl
@[simp] theorem State.memWrite_serverAddr (s : State) (a : Nat) (bs : List Byte) : (s.memWrite a bs).serverAddr = s.serverAddr := rfl
@[simp] theorem State.memWrite_clientAddr (s : State) (a : Nat) (bs : List Byte) : (s.memWrite a bs).clientAddr = s.clientAddr := rfl
@[simp] theorem State.memWrite_reasmBase (s : State) (a : Nat) (bs : List Byte) : (s.memWrite a bs).reasmBase = s.reasmBase := rfl
@[simp] theorem State.memWrite_reasmCap (s : State) (a : Nat) (bs : List Byte) : (s.memWrite a bs).reasmCap = s.reasmCap := rfl
@[simp] theorem State.memWrite_reasmFill (s : State) (a : Nat) (bs : List Byte) : (s.memWrite a bs).reasmFill = s.reasmFill := rfl
@[simp] theorem State.memWrite_rxFmt (s : State) (a : Nat) (bs : List Byte) : (s.memWrite a bs).rxFmt = s.rxFmt := rfl
@[simp] theorem State.memWrite_rxDst (s : State) (a : Nat) (bs : List Byte) : (s.memWrite a bs).rxDst = s.rxDst := rfl
@[simp] theorem State.memWrite_rxSrc (s : State) (a : Nat) (bs : List Byte) : (s.memWrite a bs).rxSrc = s.rxSrc := rfl
@[simp] theorem State.memWrite_rxCtrl (s : State) (a : Nat) (bs : List Byte) : (s.memWrite a bs).rxCtrl = s.rxCtrl := rfl
@[simp] theorem State.memWrite_rxPayAddr (s : State) (a : Nat) (bs : List Byte) : (s.memWrite a bs).rxPayAddr = s.rxPayAddr := rfl
@[simp] theorem State.memWrite_rxPayLen (s : State) (a : Nat) (bs : List Byte) : (s.memWrite a bs).rxPayLen = s.rxPayLen := rfl
@[simp] theorem State.memWrite_rxConsumed (s : State) (a : Nat) (bs : List Byte) : (s.memWrite a bs).rxConsumed = s.rxConsumed := rfl
@[simp] theorem State.memWrite_buf (s : State) (a : Nat) (bs : List Byte) : (s.memWrite a bs).buf = s.buf.writeRange a bs := rfl
@[simp] theorem State.memWrite_bufDraw (s : State) (a : Nat) (bs : List Byte) : (s.memWrite a bs).bufDraw = s.bufDraw := rfl
@[simp] theorem State.memWrite_draws (s : State) (a : Nat) (bs : List Byte) : (s.memWrite a bs).draws = s.draws := rfl
@[simp] theorem State.memWrite_pending (s : State) (a : Nat) (bs : List Byte) : (s.memWrite a bs).pending = s.pending := rfl
@[simp] theorem State.memWrite_readData (s : State) (a : Nat) (bs : List Byte) : (s.memWrite a bs).readData = s.readData := rfl

/-! ### State.unspecify -/

@[simp] theorem State.unspecify_params (s : State) (a n : Nat) : (s.unspecify a n).params = s.params := rfl
@[simp] theorem State.unspecify_err (s : State) (a n : Nat) : (s.unspecify a n).err = s.err := rfl
@[simp] theorem State.unspecify_link (s : State) (a n : Nat) : (s.unspecify a n).link = s.link := rfl
@[simp] theorem State.unspecify_reasmDone (s : State) (a n : Nat) : (s.unspecify a n).reasmDone = s.reasmDone := rfl
@[simp] theorem State.unspecify_fillCrc (s : State) (a n : Nat) : (s.unspecify a n).fillCrc = s.fillCrc := rfl
@[simp] theorem State.unspecify_verifyCrc (s : State) (a n : Nat) : (s.unspecify a n).verifyCrc = s.verifyCrc := rfl
@[simp] theorem State.unspecify_srcAddr (s : State) (a n : Nat) : (s.unspecify a n).srcAddr = s.srcAddr := rfl
@[simp] theorem State.unspecify_srcLen (s : State) (a n : Nat) : (s.unspecify a n).srcLen = s.srcLen := rfl
@[simp] theorem State.unspecify_dstAddr (s : State) (a n : Nat) : (s.unspecify a n).dstAddr = s.dstAddr := rfl
@[simp] theorem State.unspecify_dstCap (s : State) (a n : Nat) : (s.unspecify a n).dstCap = s.dstCap := rfl
@[simp] theorem State.unspecify_outLen (s : State) (a n : Nat) : (s.unspecify a n).outLen = s.outLen := rfl
@[simp] theorem State.unspecify_crcVar (s : State) (a n : Nat) : (s.unspecify a n).crcVar = s.crcVar := rfl
@[simp] theorem State.unspecify_crcState (s : State) (a n : Nat) : (s.unspecify a n).crcState = s.crcState := rfl
@[simp] theorem State.unspecify_ns (s : State) (a n : Nat) : (s.unspecify a n).ns = s.ns := rfl
@[simp] theorem State.unspecify_nr (s : State) (a n : Nat) : (s.unspecify a n).nr = s.nr := rfl
@[simp] theorem State.unspecify_serverAddr (s : State) (a n : Nat) : (s.unspecify a n).serverAddr = s.serverAddr := rfl
@[simp] theorem State.unspecify_clientAddr (s : State) (a n : Nat) : (s.unspecify a n).clientAddr = s.clientAddr := rfl
@[simp] theorem State.unspecify_reasmBase (s : State) (a n : Nat) : (s.unspecify a n).reasmBase = s.reasmBase := rfl
@[simp] theorem State.unspecify_reasmCap (s : State) (a n : Nat) : (s.unspecify a n).reasmCap = s.reasmCap := rfl
@[simp] theorem State.unspecify_reasmFill (s : State) (a n : Nat) : (s.unspecify a n).reasmFill = s.reasmFill := rfl
@[simp] theorem State.unspecify_rxFmt (s : State) (a n : Nat) : (s.unspecify a n).rxFmt = s.rxFmt := rfl
@[simp] theorem State.unspecify_rxDst (s : State) (a n : Nat) : (s.unspecify a n).rxDst = s.rxDst := rfl
@[simp] theorem State.unspecify_rxSrc (s : State) (a n : Nat) : (s.unspecify a n).rxSrc = s.rxSrc := rfl
@[simp] theorem State.unspecify_rxCtrl (s : State) (a n : Nat) : (s.unspecify a n).rxCtrl = s.rxCtrl := rfl
@[simp] theorem State.unspecify_rxPayAddr (s : State) (a n : Nat) : (s.unspecify a n).rxPayAddr = s.rxPayAddr := rfl
@[simp] theorem State.unspecify_rxPayLen (s : State) (a n : Nat) : (s.unspecify a n).rxPayLen = s.rxPayLen := rfl
@[simp] theorem State.unspecify_rxConsumed (s : State) (a n : Nat) : (s.unspecify a n).rxConsumed = s.rxConsumed := rfl
@[simp] theorem State.unspecify_buf (s : State) (a n : Nat) : (s.unspecify a n).buf = s.buf.writeRange a (freeWindow s.draws a n) := rfl
@[simp] theorem State.unspecify_bufDraw (s : State) (a n : Nat) : (s.unspecify a n).bufDraw = s.bufDraw := rfl
@[simp] theorem State.unspecify_draws (s : State) (a n : Nat) : (s.unspecify a n).draws = s.draws + 1 := rfl
@[simp] theorem State.unspecify_pending (s : State) (a n : Nat) : (s.unspecify a n).pending = s.pending := rfl
@[simp] theorem State.unspecify_readData (s : State) (a n : Nat) : (s.unspecify a n).readData = s.readData := rfl

/-! ### State.emit -/

@[simp] theorem State.emit_params (s : State) (bs : List Byte) : (s.emit bs).params = s.params := rfl
@[simp] theorem State.emit_err (s : State) (bs : List Byte) : (s.emit bs).err = s.err := rfl
@[simp] theorem State.emit_link (s : State) (bs : List Byte) : (s.emit bs).link = s.link := rfl
@[simp] theorem State.emit_reasmDone (s : State) (bs : List Byte) : (s.emit bs).reasmDone = s.reasmDone := rfl
@[simp] theorem State.emit_fillCrc (s : State) (bs : List Byte) : (s.emit bs).fillCrc = s.fillCrc := rfl
@[simp] theorem State.emit_verifyCrc (s : State) (bs : List Byte) : (s.emit bs).verifyCrc = s.verifyCrc := rfl
@[simp] theorem State.emit_srcAddr (s : State) (bs : List Byte) : (s.emit bs).srcAddr = s.srcAddr := rfl
@[simp] theorem State.emit_srcLen (s : State) (bs : List Byte) : (s.emit bs).srcLen = s.srcLen := rfl
@[simp] theorem State.emit_dstAddr (s : State) (bs : List Byte) : (s.emit bs).dstAddr = s.dstAddr := rfl
@[simp] theorem State.emit_dstCap (s : State) (bs : List Byte) : (s.emit bs).dstCap = s.dstCap := rfl
@[simp] theorem State.emit_outLen (s : State) (bs : List Byte) : (s.emit bs).outLen = BitVec.ofNat 32 bs.length := rfl
@[simp] theorem State.emit_crcVar (s : State) (bs : List Byte) : (s.emit bs).crcVar = s.crcVar := rfl
@[simp] theorem State.emit_crcState (s : State) (bs : List Byte) : (s.emit bs).crcState = s.crcState := rfl
@[simp] theorem State.emit_ns (s : State) (bs : List Byte) : (s.emit bs).ns = s.ns := rfl
@[simp] theorem State.emit_nr (s : State) (bs : List Byte) : (s.emit bs).nr = s.nr := rfl
@[simp] theorem State.emit_serverAddr (s : State) (bs : List Byte) : (s.emit bs).serverAddr = s.serverAddr := rfl
@[simp] theorem State.emit_clientAddr (s : State) (bs : List Byte) : (s.emit bs).clientAddr = s.clientAddr := rfl
@[simp] theorem State.emit_reasmBase (s : State) (bs : List Byte) : (s.emit bs).reasmBase = s.reasmBase := rfl
@[simp] theorem State.emit_reasmCap (s : State) (bs : List Byte) : (s.emit bs).reasmCap = s.reasmCap := rfl
@[simp] theorem State.emit_reasmFill (s : State) (bs : List Byte) : (s.emit bs).reasmFill = s.reasmFill := rfl
@[simp] theorem State.emit_rxFmt (s : State) (bs : List Byte) : (s.emit bs).rxFmt = s.rxFmt := rfl
@[simp] theorem State.emit_rxDst (s : State) (bs : List Byte) : (s.emit bs).rxDst = s.rxDst := rfl
@[simp] theorem State.emit_rxSrc (s : State) (bs : List Byte) : (s.emit bs).rxSrc = s.rxSrc := rfl
@[simp] theorem State.emit_rxCtrl (s : State) (bs : List Byte) : (s.emit bs).rxCtrl = s.rxCtrl := rfl
@[simp] theorem State.emit_rxPayAddr (s : State) (bs : List Byte) : (s.emit bs).rxPayAddr = s.rxPayAddr := rfl
@[simp] theorem State.emit_rxPayLen (s : State) (bs : List Byte) : (s.emit bs).rxPayLen = s.rxPayLen := rfl
@[simp] theorem State.emit_rxConsumed (s : State) (bs : List Byte) : (s.emit bs).rxConsumed = s.rxConsumed := rfl
@[simp] theorem State.emit_buf (s : State) (bs : List Byte) : (s.emit bs).buf = s.buf.writeRange s.dstAddr.toNat bs := rfl
@[simp] theorem State.emit_bufDraw (s : State) (bs : List Byte) : (s.emit bs).bufDraw = s.bufDraw := rfl
@[simp] theorem State.emit_draws (s : State) (bs : List Byte) : (s.emit bs).draws = s.draws := rfl
@[simp] theorem State.emit_pending (s : State) (bs : List Byte) : (s.emit bs).pending = s.pending := rfl
@[simp] theorem State.emit_readData (s : State) (bs : List Byte) : (s.emit bs).readData = s.readData := rfl

/-! ### State.withCrc -/

@[simp] theorem State.withCrc_params (s : State) (v : CrcVar) (c : BitVec 16) : (s.withCrc v c).params = s.params := rfl
@[simp] theorem State.withCrc_err (s : State) (v : CrcVar) (c : BitVec 16) : (s.withCrc v c).err = s.err := rfl
@[simp] theorem State.withCrc_link (s : State) (v : CrcVar) (c : BitVec 16) : (s.withCrc v c).link = s.link := rfl
@[simp] theorem State.withCrc_reasmDone (s : State) (v : CrcVar) (c : BitVec 16) : (s.withCrc v c).reasmDone = s.reasmDone := rfl
@[simp] theorem State.withCrc_fillCrc (s : State) (v : CrcVar) (c : BitVec 16) : (s.withCrc v c).fillCrc = s.fillCrc := rfl
@[simp] theorem State.withCrc_verifyCrc (s : State) (v : CrcVar) (c : BitVec 16) : (s.withCrc v c).verifyCrc = s.verifyCrc := rfl
@[simp] theorem State.withCrc_srcAddr (s : State) (v : CrcVar) (c : BitVec 16) : (s.withCrc v c).srcAddr = s.srcAddr := rfl
@[simp] theorem State.withCrc_srcLen (s : State) (v : CrcVar) (c : BitVec 16) : (s.withCrc v c).srcLen = s.srcLen := rfl
@[simp] theorem State.withCrc_dstAddr (s : State) (v : CrcVar) (c : BitVec 16) : (s.withCrc v c).dstAddr = s.dstAddr := rfl
@[simp] theorem State.withCrc_dstCap (s : State) (v : CrcVar) (c : BitVec 16) : (s.withCrc v c).dstCap = s.dstCap := rfl
@[simp] theorem State.withCrc_outLen (s : State) (v : CrcVar) (c : BitVec 16) : (s.withCrc v c).outLen = s.outLen := rfl
@[simp] theorem State.withCrc_crcVar (s : State) (v : CrcVar) (c : BitVec 16) : (s.withCrc v c).crcVar = v := rfl
@[simp] theorem State.withCrc_crcState (s : State) (v : CrcVar) (c : BitVec 16) : (s.withCrc v c).crcState = c := rfl
@[simp] theorem State.withCrc_ns (s : State) (v : CrcVar) (c : BitVec 16) : (s.withCrc v c).ns = s.ns := rfl
@[simp] theorem State.withCrc_nr (s : State) (v : CrcVar) (c : BitVec 16) : (s.withCrc v c).nr = s.nr := rfl
@[simp] theorem State.withCrc_serverAddr (s : State) (v : CrcVar) (c : BitVec 16) : (s.withCrc v c).serverAddr = s.serverAddr := rfl
@[simp] theorem State.withCrc_clientAddr (s : State) (v : CrcVar) (c : BitVec 16) : (s.withCrc v c).clientAddr = s.clientAddr := rfl
@[simp] theorem State.withCrc_reasmBase (s : State) (v : CrcVar) (c : BitVec 16) : (s.withCrc v c).reasmBase = s.reasmBase := rfl
@[simp] theorem State.withCrc_reasmCap (s : State) (v : CrcVar) (c : BitVec 16) : (s.withCrc v c).reasmCap = s.reasmCap := rfl
@[simp] theorem State.withCrc_reasmFill (s : State) (v : CrcVar) (c : BitVec 16) : (s.withCrc v c).reasmFill = s.reasmFill := rfl
@[simp] theorem State.withCrc_rxFmt (s : State) (v : CrcVar) (c : BitVec 16) : (s.withCrc v c).rxFmt = s.rxFmt := rfl
@[simp] theorem State.withCrc_rxDst (s : State) (v : CrcVar) (c : BitVec 16) : (s.withCrc v c).rxDst = s.rxDst := rfl
@[simp] theorem State.withCrc_rxSrc (s : State) (v : CrcVar) (c : BitVec 16) : (s.withCrc v c).rxSrc = s.rxSrc := rfl
@[simp] theorem State.withCrc_rxCtrl (s : State) (v : CrcVar) (c : BitVec 16) : (s.withCrc v c).rxCtrl = s.rxCtrl := rfl
@[simp] theorem State.withCrc_rxPayAddr (s : State) (v : CrcVar) (c : BitVec 16) : (s.withCrc v c).rxPayAddr = s.rxPayAddr := rfl
@[simp] theorem State.withCrc_rxPayLen (s : State) (v : CrcVar) (c : BitVec 16) : (s.withCrc v c).rxPayLen = s.rxPayLen := rfl
@[simp] theorem State.withCrc_rxConsumed (s : State) (v : CrcVar) (c : BitVec 16) : (s.withCrc v c).rxConsumed = s.rxConsumed := rfl
@[simp] theorem State.withCrc_buf (s : State) (v : CrcVar) (c : BitVec 16) : (s.withCrc v c).buf = s.buf := rfl
@[simp] theorem State.withCrc_bufDraw (s : State) (v : CrcVar) (c : BitVec 16) : (s.withCrc v c).bufDraw = s.bufDraw := rfl
@[simp] theorem State.withCrc_draws (s : State) (v : CrcVar) (c : BitVec 16) : (s.withCrc v c).draws = s.draws := rfl
@[simp] theorem State.withCrc_pending (s : State) (v : CrcVar) (c : BitVec 16) : (s.withCrc v c).pending = s.pending := rfl
@[simp] theorem State.withCrc_readData (s : State) (v : CrcVar) (c : BitVec 16) : (s.withCrc v c).readData = s.readData := rfl

/-! ### State.restartLink -/

@[simp] theorem State.restartLink_params (s : State) (l : LinkState) : (s.restartLink l).params = s.params := rfl
@[simp] theorem State.restartLink_err (s : State) (l : LinkState) : (s.restartLink l).err = s.err := rfl
@[simp] theorem State.restartLink_link (s : State) (l : LinkState) : (s.restartLink l).link = l := rfl
@[simp] theorem State.restartLink_reasmDone (s : State) (l : LinkState) : (s.restartLink l).reasmDone = false := rfl
@[simp] theorem State.restartLink_fillCrc (s : State) (l : LinkState) : (s.restartLink l).fillCrc = s.fillCrc := rfl
@[simp] theorem State.restartLink_verifyCrc (s : State) (l : LinkState) : (s.restartLink l).verifyCrc = s.verifyCrc := rfl
@[simp] theorem State.restartLink_srcAddr (s : State) (l : LinkState) : (s.restartLink l).srcAddr = s.srcAddr := rfl
@[simp] theorem State.restartLink_srcLen (s : State) (l : LinkState) : (s.restartLink l).srcLen = s.srcLen := rfl
@[simp] theorem State.restartLink_dstAddr (s : State) (l : LinkState) : (s.restartLink l).dstAddr = s.dstAddr := rfl
@[simp] theorem State.restartLink_dstCap (s : State) (l : LinkState) : (s.restartLink l).dstCap = s.dstCap := rfl
@[simp] theorem State.restartLink_outLen (s : State) (l : LinkState) : (s.restartLink l).outLen = s.outLen := rfl
@[simp] theorem State.restartLink_crcVar (s : State) (l : LinkState) : (s.restartLink l).crcVar = s.crcVar := rfl
@[simp] theorem State.restartLink_crcState (s : State) (l : LinkState) : (s.restartLink l).crcState = s.crcState := rfl
@[simp] theorem State.restartLink_ns (s : State) (l : LinkState) : (s.restartLink l).ns = 0 := rfl
@[simp] theorem State.restartLink_nr (s : State) (l : LinkState) : (s.restartLink l).nr = 0 := rfl
@[simp] theorem State.restartLink_serverAddr (s : State) (l : LinkState) : (s.restartLink l).serverAddr = s.serverAddr := rfl
@[simp] theorem State.restartLink_clientAddr (s : State) (l : LinkState) : (s.restartLink l).clientAddr = s.clientAddr := rfl
@[simp] theorem State.restartLink_reasmBase (s : State) (l : LinkState) : (s.restartLink l).reasmBase = s.reasmBase := rfl
@[simp] theorem State.restartLink_reasmCap (s : State) (l : LinkState) : (s.restartLink l).reasmCap = s.reasmCap := rfl
@[simp] theorem State.restartLink_reasmFill (s : State) (l : LinkState) : (s.restartLink l).reasmFill = 0 := rfl
@[simp] theorem State.restartLink_rxFmt (s : State) (l : LinkState) : (s.restartLink l).rxFmt = s.rxFmt := rfl
@[simp] theorem State.restartLink_rxDst (s : State) (l : LinkState) : (s.restartLink l).rxDst = s.rxDst := rfl
@[simp] theorem State.restartLink_rxSrc (s : State) (l : LinkState) : (s.restartLink l).rxSrc = s.rxSrc := rfl
@[simp] theorem State.restartLink_rxCtrl (s : State) (l : LinkState) : (s.restartLink l).rxCtrl = s.rxCtrl := rfl
@[simp] theorem State.restartLink_rxPayAddr (s : State) (l : LinkState) : (s.restartLink l).rxPayAddr = s.rxPayAddr := rfl
@[simp] theorem State.restartLink_rxPayLen (s : State) (l : LinkState) : (s.restartLink l).rxPayLen = s.rxPayLen := rfl
@[simp] theorem State.restartLink_rxConsumed (s : State) (l : LinkState) : (s.restartLink l).rxConsumed = s.rxConsumed := rfl
@[simp] theorem State.restartLink_buf (s : State) (l : LinkState) : (s.restartLink l).buf = s.buf := rfl
@[simp] theorem State.restartLink_bufDraw (s : State) (l : LinkState) : (s.restartLink l).bufDraw = s.bufDraw := rfl
@[simp] theorem State.restartLink_draws (s : State) (l : LinkState) : (s.restartLink l).draws = s.draws := rfl
@[simp] theorem State.restartLink_pending (s : State) (l : LinkState) : (s.restartLink l).pending = s.pending := rfl
@[simp] theorem State.restartLink_readData (s : State) (l : LinkState) : (s.restartLink l).readData = s.readData := rfl

/-! ### State.withConsumed -/

@[simp] theorem State.withConsumed_params (s : State) (p : Nat) : (s.withConsumed p).params = s.params := rfl
@[simp] theorem State.withConsumed_err (s : State) (p : Nat) : (s.withConsumed p).err = s.err := rfl
@[simp] theorem State.withConsumed_link (s : State) (p : Nat) : (s.withConsumed p).link = s.link := rfl
@[simp] theorem State.withConsumed_reasmDone (s : State) (p : Nat) : (s.withConsumed p).reasmDone = s.reasmDone := rfl
@[simp] theorem State.withConsumed_fillCrc (s : State) (p : Nat) : (s.withConsumed p).fillCrc = s.fillCrc := rfl
@[simp] theorem State.withConsumed_verifyCrc (s : State) (p : Nat) : (s.withConsumed p).verifyCrc = s.verifyCrc := rfl
@[simp] theorem State.withConsumed_srcAddr (s : State) (p : Nat) : (s.withConsumed p).srcAddr = s.srcAddr := rfl
@[simp] theorem State.withConsumed_srcLen (s : State) (p : Nat) : (s.withConsumed p).srcLen = s.srcLen := rfl
@[simp] theorem State.withConsumed_dstAddr (s : State) (p : Nat) : (s.withConsumed p).dstAddr = s.dstAddr := rfl
@[simp] theorem State.withConsumed_dstCap (s : State) (p : Nat) : (s.withConsumed p).dstCap = s.dstCap := rfl
@[simp] theorem State.withConsumed_outLen (s : State) (p : Nat) : (s.withConsumed p).outLen = s.outLen := rfl
@[simp] theorem State.withConsumed_crcVar (s : State) (p : Nat) : (s.withConsumed p).crcVar = s.crcVar := rfl
@[simp] theorem State.withConsumed_crcState (s : State) (p : Nat) : (s.withConsumed p).crcState = s.crcState := rfl
@[simp] theorem State.withConsumed_ns (s : State) (p : Nat) : (s.withConsumed p).ns = s.ns := rfl
@[simp] theorem State.withConsumed_nr (s : State) (p : Nat) : (s.withConsumed p).nr = s.nr := rfl
@[simp] theorem State.withConsumed_serverAddr (s : State) (p : Nat) : (s.withConsumed p).serverAddr = s.serverAddr := rfl
@[simp] theorem State.withConsumed_clientAddr (s : State) (p : Nat) : (s.withConsumed p).clientAddr = s.clientAddr := rfl
@[simp] theorem State.withConsumed_reasmBase (s : State) (p : Nat) : (s.withConsumed p).reasmBase = s.reasmBase := rfl
@[simp] theorem State.withConsumed_reasmCap (s : State) (p : Nat) : (s.withConsumed p).reasmCap = s.reasmCap := rfl
@[simp] theorem State.withConsumed_reasmFill (s : State) (p : Nat) : (s.withConsumed p).reasmFill = s.reasmFill := rfl
@[simp] theorem State.withConsumed_rxFmt (s : State) (p : Nat) : (s.withConsumed p).rxFmt = s.rxFmt := rfl
@[simp] theorem State.withConsumed_rxDst (s : State) (p : Nat) : (s.withConsumed p).rxDst = s.rxDst := rfl
@[simp] theorem State.withConsumed_rxSrc (s : State) (p : Nat) : (s.withConsumed p).rxSrc = s.rxSrc := rfl
@[simp] theorem State.withConsumed_rxCtrl (s : State) (p : Nat) : (s.withConsumed p).rxCtrl = s.rxCtrl := rfl
@[simp] theorem State.withConsumed_rxPayAddr (s : State) (p : Nat) : (s.withConsumed p).rxPayAddr = s.rxPayAddr := rfl
@[simp] theorem State.withConsumed_rxPayLen (s : State) (p : Nat) : (s.withConsumed p).rxPayLen = s.rxPayLen := rfl
@[simp] theorem State.withConsumed_rxConsumed (s : State) (p : Nat) : (s.withConsumed p).rxConsumed = BitVec.ofNat 32 p := rfl
@[simp] theorem State.withConsumed_buf (s : State) (p : Nat) : (s.withConsumed p).buf = s.buf := rfl
@[simp] theorem State.withConsumed_bufDraw (s : State) (p : Nat) : (s.withConsumed p).bufDraw = s.bufDraw := rfl
@[simp] theorem State.withConsumed_draws (s : State) (p : Nat) : (s.withConsumed p).draws = s.draws := rfl
@[simp] theorem State.withConsumed_pending (s : State) (p : Nat) : (s.withConsumed p).pending = s.pending := rfl
@[simp] theorem State.withConsumed_readData (s : State) (p : Nat) : (s.withConsumed p).readData = s.readData := rfl

/-! ### State.advanceNs -/

@[simp] theorem State.advanceNs_params (s : State) : (s.advanceNs).params = s.params := rfl
@[simp] theorem State.advanceNs_err (s : State) : (s.advanceNs).err = s.err := rfl
@[simp] theorem State.advanceNs_link (s : State) : (s.advanceNs).link = s.link := rfl
@[simp] theorem State.advanceNs_reasmDone (s : State) : (s.advanceNs).reasmDone = s.reasmDone := rfl
@[simp] theorem State.advanceNs_fillCrc (s : State) : (s.advanceNs).fillCrc = s.fillCrc := rfl
@[simp] theorem State.advanceNs_verifyCrc (s : State) : (s.advanceNs).verifyCrc = s.verifyCrc := rfl
@[simp] theorem State.advanceNs_srcAddr (s : State) : (s.advanceNs).srcAddr = s.srcAddr := rfl
@[simp] theorem State.advanceNs_srcLen (s : State) : (s.advanceNs).srcLen = s.srcLen := rfl
@[simp] theorem State.advanceNs_dstAddr (s : State) : (s.advanceNs).dstAddr = s.dstAddr := rfl
@[simp] theorem State.advanceNs_dstCap (s : State) : (s.advanceNs).dstCap = s.dstCap := rfl
@[simp] theorem State.advanceNs_outLen (s : State) : (s.advanceNs).outLen = s.outLen := rfl
@[simp] theorem State.advanceNs_crcVar (s : State) : (s.advanceNs).crcVar = s.crcVar := rfl
@[simp] theorem State.advanceNs_crcState (s : State) : (s.advanceNs).crcState = s.crcState := rfl
@[simp] theorem State.advanceNs_ns (s : State) : (s.advanceNs).ns = s.ns + 1 := rfl
@[simp] theorem State.advanceNs_nr (s : State) : (s.advanceNs).nr = s.nr := rfl
@[simp] theorem State.advanceNs_serverAddr (s : State) : (s.advanceNs).serverAddr = s.serverAddr := rfl
@[simp] theorem State.advanceNs_clientAddr (s : State) : (s.advanceNs).clientAddr = s.clientAddr := rfl
@[simp] theorem State.advanceNs_reasmBase (s : State) : (s.advanceNs).reasmBase = s.reasmBase := rfl
@[simp] theorem State.advanceNs_reasmCap (s : State) : (s.advanceNs).reasmCap = s.reasmCap := rfl
@[simp] theorem State.advanceNs_reasmFill (s : State) : (s.advanceNs).reasmFill = s.reasmFill := rfl
@[simp] theorem State.advanceNs_rxFmt (s : State) : (s.advanceNs).rxFmt = s.rxFmt := rfl
@[simp] theorem State.advanceNs_rxDst (s : State) : (s.advanceNs).rxDst = s.rxDst := rfl
@[simp] theorem State.advanceNs_rxSrc (s : State) : (s.advanceNs).rxSrc = s.rxSrc := rfl
@[simp] theorem State.advanceNs_rxCtrl (s : State) : (s.advanceNs).rxCtrl = s.rxCtrl := rfl
@[simp] theorem State.advanceNs_rxPayAddr (s : State) : (s.advanceNs).rxPayAddr = s.rxPayAddr := rfl
@[simp] theorem State.advanceNs_rxPayLen (s : State) : (s.advanceNs).rxPayLen = s.rxPayLen := rfl
@[simp] theorem State.advanceNs_rxConsumed (s : State) : (s.advanceNs).rxConsumed = s.rxConsumed := rfl
@[simp] theorem State.advanceNs_buf (s : State) : (s.advanceNs).buf = s.buf := rfl
@[simp] theorem State.advanceNs_bufDraw (s : State) : (s.advanceNs).bufDraw = s.bufDraw := rfl
@[simp] theorem State.advanceNs_draws (s : State) : (s.advanceNs).draws = s.draws := rfl
@[simp] theorem State.advanceNs_pending (s : State) : (s.advanceNs).pending = s.pending := rfl
@[simp] theorem State.advanceNs_readData (s : State) : (s.advanceNs).readData = s.readData := rfl

/-! ### State.advanceNr -/

@[simp] theorem State.advanceNr_params (s : State) : (s.advanceNr).params = s.params := rfl
@[simp] theorem State.advanceNr_err (s : State) : (s.advanceNr).err = s.err := rfl
@[simp] theorem State.advanceNr_link (s : State) : (s.advanceNr).link = s.link := rfl
@[simp] theorem State.advanceNr_reasmDone (s : State) : (s.advanceNr).reasmDone = s.reasmDone := rfl
@[simp] theorem State.advanceNr_fillCrc (s : State) : (s.advanceNr).fillCrc = s.fillCrc := rfl
@[simp] theorem State.advanceNr_verifyCrc (s : State) : (s.advanceNr).verifyCrc = s.verifyCrc := rfl
@[simp] theorem State.advanceNr_srcAddr (s : State) : (s.advanceNr).srcAddr = s.srcAddr := rfl
@[simp] theorem State.advanceNr_srcLen (s : State) : (s.advanceNr).srcLen = s.srcLen := rfl
@[simp] theorem State.advanceNr_dstAddr (s : State) : (s.advanceNr).dstAddr = s.dstAddr := rfl
@[simp] theorem State.advanceNr_dstCap (s : State) : (s.advanceNr).dstCap = s.dstCap := rfl
@[simp] theorem State.advanceNr_outLen (s : State) : (s.advanceNr).outLen = s.outLen := rfl
@[simp] theorem State.advanceNr_crcVar (s : State) : (s.advanceNr).crcVar = s.crcVar := rfl
@[simp] theorem State.advanceNr_crcState (s : State) : (s.advanceNr).crcState = s.crcState := rfl
@[simp] theorem State.advanceNr_ns (s : State) : (s.advanceNr).ns = s.ns := rfl
@[simp] theorem State.advanceNr_nr (s : State) : (s.advanceNr).nr = s.nr + 1 := rfl
@[simp] theorem State.advanceNr_serverAddr (s : State) : (s.advanceNr).serverAddr = s.serverAddr := rfl
@[simp] theorem State.advanceNr_clientAddr (s : State) : (s.advanceNr).clientAddr = s.clientAddr := rfl
@[simp] theorem State.advanceNr_reasmBase (s : State) : (s.advanceNr).reasmBase = s.reasmBase := rfl
@[simp] theorem State.advanceNr_reasmCap (s : State) : (s.advanceNr).reasmCap = s.reasmCap := rfl
@[simp] theorem State.advanceNr_reasmFill (s : State) : (s.advanceNr).reasmFill = s.reasmFill := rfl
@[simp] theorem State.advanceNr_rxFmt (s : State) : (s.advanceNr).rxFmt = s.rxFmt := rfl
@[simp] theorem State.advanceNr_rxDst (s : State) : (s.advanceNr).rxDst = s.rxDst := rfl
@[simp] theorem State.advanceNr_rxSrc (s : State) : (s.advanceNr).rxSrc = s.rxSrc := rfl
@[simp] theorem State.advanceNr_rxCtrl (s : State) : (s.advanceNr).rxCtrl = s.rxCtrl := rfl
@[simp] theorem State.advanceNr_rxPayAddr (s : State) : (s.advanceNr).rxPayAddr = s.rxPayAddr := rfl
@[simp] theorem State.advanceNr_rxPayLen (s : State) : (s.advanceNr).rxPayLen = s.rxPayLen := rfl
@[simp] theorem State.advanceNr_rxConsumed (s : State) : (s.advanceNr).rxConsumed = s.rxConsumed := rfl
@[simp] theorem State.advanceNr_buf (s : State) : (s.advanceNr).buf = s.buf := rfl
@[simp] theorem State.advanceNr_bufDraw (s : State) : (s.advanceNr).bufDraw = s.bufDraw := rfl
@[simp] theorem State.advanceNr_draws (s : State) : (s.advanceNr).draws = s.draws := rfl
@[simp] theorem State.advanceNr_pending (s : State) : (s.advanceNr).pending = s.pending := rfl
@[simp] theorem State.advanceNr_readData (s : State) : (s.advanceNr).readData = s.readData := rfl

/-! ### State.receive -/

@[simp] theorem State.receive_params (s : State) (f : RxFrame) : (s.receive f).params = s.params := rfl
@[simp] theorem State.receive_err (s : State) (f : RxFrame) : (s.receive f).err = s.err := rfl
@[simp] theorem State.receive_link (s : State) (f : RxFrame) : (s.receive f).link = s.link := rfl
@[simp] theorem State.receive_reasmDone (s : State) (f : RxFrame) : (s.receive f).reasmDone = s.reasmDone := rfl
@[simp] theorem State.receive_fillCrc (s : State) (f : RxFrame) : (s.receive f).fillCrc = s.fillCrc := rfl
@[simp] theorem State.receive_verifyCrc (s : State) (f : RxFrame) : (s.receive f).verifyCrc = s.verifyCrc := rfl
@[simp] theorem State.receive_srcAddr (s : State) (f : RxFrame) : (s.receive f).srcAddr = s.srcAddr := rfl
@[simp] theorem State.receive_srcLen (s : State) (f : RxFrame) : (s.receive f).srcLen = s.srcLen := rfl
@[simp] theorem State.receive_dstAddr (s : State) (f : RxFrame) : (s.receive f).dstAddr = s.dstAddr := rfl
@[simp] theorem State.receive_dstCap (s : State) (f : RxFrame) : (s.receive f).dstCap = s.dstCap := rfl
@[simp] theorem State.receive_outLen (s : State) (f : RxFrame) : (s.receive f).outLen = s.outLen := rfl
@[simp] theorem State.receive_crcVar (s : State) (f : RxFrame) : (s.receive f).crcVar = s.crcVar := rfl
@[simp] theorem State.receive_crcState (s : State) (f : RxFrame) : (s.receive f).crcState = s.crcState := rfl
@[simp] theorem State.receive_ns (s : State) (f : RxFrame) : (s.receive f).ns = s.ns := rfl
@[simp] theorem State.receive_nr (s : State) (f : RxFrame) : (s.receive f).nr = s.nr := rfl
@[simp] theorem State.receive_serverAddr (s : State) (f : RxFrame) : (s.receive f).serverAddr = s.serverAddr := rfl
@[simp] theorem State.receive_clientAddr (s : State) (f : RxFrame) : (s.receive f).clientAddr = s.clientAddr := rfl
@[simp] theorem State.receive_reasmBase (s : State) (f : RxFrame) : (s.receive f).reasmBase = s.reasmBase := rfl
@[simp] theorem State.receive_reasmCap (s : State) (f : RxFrame) : (s.receive f).reasmCap = s.reasmCap := rfl
@[simp] theorem State.receive_reasmFill (s : State) (f : RxFrame) : (s.receive f).reasmFill = s.reasmFill := rfl
@[simp] theorem State.receive_rxFmt (s : State) (f : RxFrame) : (s.receive f).rxFmt = f.fmt := rfl
@[simp] theorem State.receive_rxDst (s : State) (f : RxFrame) : (s.receive f).rxDst = f.dst := rfl
@[simp] theorem State.receive_rxSrc (s : State) (f : RxFrame) : (s.receive f).rxSrc = f.src := rfl
@[simp] theorem State.receive_rxCtrl (s : State) (f : RxFrame) : (s.receive f).rxCtrl = f.ctrl := rfl
@[simp] theorem State.receive_rxPayAddr (s : State) (f : RxFrame) : (s.receive f).rxPayAddr = BitVec.ofNat 32 (s.srcAddr.toNat + f.payOff) := rfl
@[simp] theorem State.receive_rxPayLen (s : State) (f : RxFrame) : (s.receive f).rxPayLen = BitVec.ofNat 32 f.payLen := rfl
@[simp] theorem State.receive_rxConsumed (s : State) (f : RxFrame) : (s.receive f).rxConsumed = BitVec.ofNat 32 f.consumed := rfl
@[simp] theorem State.receive_buf (s : State) (f : RxFrame) : (s.receive f).buf = s.buf := rfl
@[simp] theorem State.receive_bufDraw (s : State) (f : RxFrame) : (s.receive f).bufDraw = s.bufDraw := rfl
@[simp] theorem State.receive_draws (s : State) (f : RxFrame) : (s.receive f).draws = s.draws := rfl
@[simp] theorem State.receive_pending (s : State) (f : RxFrame) : (s.receive f).pending = s.pending := rfl
@[simp] theorem State.receive_readData (s : State) (f : RxFrame) : (s.receive f).readData = s.readData := rfl

/-! ### State.append -/

@[simp] theorem State.append_params (s : State) (f0 : Nat) (bs : List Byte) (d : Bool) : (s.append f0 bs d).params = s.params := rfl
@[simp] theorem State.append_err (s : State) (f0 : Nat) (bs : List Byte) (d : Bool) : (s.append f0 bs d).err = s.err := rfl
@[simp] theorem State.append_link (s : State) (f0 : Nat) (bs : List Byte) (d : Bool) : (s.append f0 bs d).link = s.link := rfl
@[simp] theorem State.append_reasmDone (s : State) (f0 : Nat) (bs : List Byte) (d : Bool) : (s.append f0 bs d).reasmDone = d := rfl
@[simp] theorem State.append_fillCrc (s : State) (f0 : Nat) (bs : List Byte) (d : Bool) : (s.append f0 bs d).fillCrc = s.fillCrc := rfl
@[simp] theorem State.append_verifyCrc (s : State) (f0 : Nat) (bs : List Byte) (d : Bool) : (s.append f0 bs d).verifyCrc = s.verifyCrc := rfl
@[simp] theorem State.append_srcAddr (s : State) (f0 : Nat) (bs : List Byte) (d : Bool) : (s.append f0 bs d).srcAddr = s.srcAddr := rfl
@[simp] theorem State.append_srcLen (s : State) (f0 : Nat) (bs : List Byte) (d : Bool) : (s.append f0 bs d).srcLen = s.srcLen := rfl
@[simp] theorem State.append_dstAddr (s : State) (f0 : Nat) (bs : List Byte) (d : Bool) : (s.append f0 bs d).dstAddr = s.dstAddr := rfl
@[simp] theorem State.append_dstCap (s : State) (f0 : Nat) (bs : List Byte) (d : Bool) : (s.append f0 bs d).dstCap = s.dstCap := rfl
@[simp] theorem State.append_outLen (s : State) (f0 : Nat) (bs : List Byte) (d : Bool) : (s.append f0 bs d).outLen = s.outLen := rfl
@[simp] theorem State.append_crcVar (s : State) (f0 : Nat) (bs : List Byte) (d : Bool) : (s.append f0 bs d).crcVar = s.crcVar := rfl
@[simp] theorem State.append_crcState (s : State) (f0 : Nat) (bs : List Byte) (d : Bool) : (s.append f0 bs d).crcState = s.crcState := rfl
@[simp] theorem State.append_ns (s : State) (f0 : Nat) (bs : List Byte) (d : Bool) : (s.append f0 bs d).ns = s.ns := rfl
@[simp] theorem State.append_nr (s : State) (f0 : Nat) (bs : List Byte) (d : Bool) : (s.append f0 bs d).nr = s.nr := rfl
@[simp] theorem State.append_serverAddr (s : State) (f0 : Nat) (bs : List Byte) (d : Bool) : (s.append f0 bs d).serverAddr = s.serverAddr := rfl
@[simp] theorem State.append_clientAddr (s : State) (f0 : Nat) (bs : List Byte) (d : Bool) : (s.append f0 bs d).clientAddr = s.clientAddr := rfl
@[simp] theorem State.append_reasmBase (s : State) (f0 : Nat) (bs : List Byte) (d : Bool) : (s.append f0 bs d).reasmBase = s.reasmBase := rfl
@[simp] theorem State.append_reasmCap (s : State) (f0 : Nat) (bs : List Byte) (d : Bool) : (s.append f0 bs d).reasmCap = s.reasmCap := rfl
@[simp] theorem State.append_reasmFill (s : State) (f0 : Nat) (bs : List Byte) (d : Bool) : (s.append f0 bs d).reasmFill = BitVec.ofNat 32 (f0 + bs.length) := rfl
@[simp] theorem State.append_rxFmt (s : State) (f0 : Nat) (bs : List Byte) (d : Bool) : (s.append f0 bs d).rxFmt = s.rxFmt := rfl
@[simp] theorem State.append_rxDst (s : State) (f0 : Nat) (bs : List Byte) (d : Bool) : (s.append f0 bs d).rxDst = s.rxDst := rfl
@[simp] theorem State.append_rxSrc (s : State) (f0 : Nat) (bs : List Byte) (d : Bool) : (s.append f0 bs d).rxSrc = s.rxSrc := rfl
@[simp] theorem State.append_rxCtrl (s : State) (f0 : Nat) (bs : List Byte) (d : Bool) : (s.append f0 bs d).rxCtrl = s.rxCtrl := rfl
@[simp] theorem State.append_rxPayAddr (s : State) (f0 : Nat) (bs : List Byte) (d : Bool) : (s.append f0 bs d).rxPayAddr = s.rxPayAddr := rfl
@[simp] theorem State.append_rxPayLen (s : State) (f0 : Nat) (bs : List Byte) (d : Bool) : (s.append f0 bs d).rxPayLen = s.rxPayLen := rfl
@[simp] theorem State.append_rxConsumed (s : State) (f0 : Nat) (bs : List Byte) (d : Bool) : (s.append f0 bs d).rxConsumed = s.rxConsumed := rfl
@[simp] theorem State.append_buf (s : State) (f0 : Nat) (bs : List Byte) (d : Bool) : (s.append f0 bs d).buf = s.buf.writeRange (s.reasmBase.toNat + f0) bs := rfl
@[simp] theorem State.append_bufDraw (s : State) (f0 : Nat) (bs : List Byte) (d : Bool) : (s.append f0 bs d).bufDraw = s.bufDraw := rfl
@[simp] theorem State.append_draws (s : State) (f0 : Nat) (bs : List Byte) (d : Bool) : (s.append f0 bs d).draws = s.draws := rfl
@[simp] theorem State.append_pending (s : State) (f0 : Nat) (bs : List Byte) (d : Bool) : (s.append f0 bs d).pending = s.pending := rfl
@[simp] theorem State.append_readData (s : State) (f0 : Nat) (bs : List Byte) (d : Bool) : (s.append f0 bs d).readData = s.readData := rfl

/-! ### State.taken -/

@[simp] theorem State.taken_params (s : State) (rest : List Input) : (s.taken rest).params = s.params := rfl
@[simp] theorem State.taken_err (s : State) (rest : List Input) : (s.taken rest).err = s.err := rfl
@[simp] theorem State.taken_link (s : State) (rest : List Input) : (s.taken rest).link = s.link := rfl
@[simp] theorem State.taken_reasmDone (s : State) (rest : List Input) : (s.taken rest).reasmDone = s.reasmDone := rfl
@[simp] theorem State.taken_fillCrc (s : State) (rest : List Input) : (s.taken rest).fillCrc = s.fillCrc := rfl
@[simp] theorem State.taken_verifyCrc (s : State) (rest : List Input) : (s.taken rest).verifyCrc = s.verifyCrc := rfl
@[simp] theorem State.taken_srcAddr (s : State) (rest : List Input) : (s.taken rest).srcAddr = s.srcAddr := rfl
@[simp] theorem State.taken_srcLen (s : State) (rest : List Input) : (s.taken rest).srcLen = s.srcLen := rfl
@[simp] theorem State.taken_dstAddr (s : State) (rest : List Input) : (s.taken rest).dstAddr = s.dstAddr := rfl
@[simp] theorem State.taken_dstCap (s : State) (rest : List Input) : (s.taken rest).dstCap = s.dstCap := rfl
@[simp] theorem State.taken_outLen (s : State) (rest : List Input) : (s.taken rest).outLen = s.outLen := rfl
@[simp] theorem State.taken_crcVar (s : State) (rest : List Input) : (s.taken rest).crcVar = s.crcVar := rfl
@[simp] theorem State.taken_crcState (s : State) (rest : List Input) : (s.taken rest).crcState = s.crcState := rfl
@[simp] theorem State.taken_ns (s : State) (rest : List Input) : (s.taken rest).ns = s.ns := rfl
@[simp] theorem State.taken_nr (s : State) (rest : List Input) : (s.taken rest).nr = s.nr := rfl
@[simp] theorem State.taken_serverAddr (s : State) (rest : List Input) : (s.taken rest).serverAddr = s.serverAddr := rfl
@[simp] theorem State.taken_clientAddr (s : State) (rest : List Input) : (s.taken rest).clientAddr = s.clientAddr := rfl
@[simp] theorem State.taken_reasmBase (s : State) (rest : List Input) : (s.taken rest).reasmBase = s.reasmBase := rfl
@[simp] theorem State.taken_reasmCap (s : State) (rest : List Input) : (s.taken rest).reasmCap = s.reasmCap := rfl
@[simp] theorem State.taken_reasmFill (s : State) (rest : List Input) : (s.taken rest).reasmFill = s.reasmFill := rfl
@[simp] theorem State.taken_rxFmt (s : State) (rest : List Input) : (s.taken rest).rxFmt = s.rxFmt := rfl
@[simp] theorem State.taken_rxDst (s : State) (rest : List Input) : (s.taken rest).rxDst = s.rxDst := rfl
@[simp] theorem State.taken_rxSrc (s : State) (rest : List Input) : (s.taken rest).rxSrc = s.rxSrc := rfl
@[simp] theorem State.taken_rxCtrl (s : State) (rest : List Input) : (s.taken rest).rxCtrl = s.rxCtrl := rfl
@[simp] theorem State.taken_rxPayAddr (s : State) (rest : List Input) : (s.taken rest).rxPayAddr = s.rxPayAddr := rfl
@[simp] theorem State.taken_rxPayLen (s : State) (rest : List Input) : (s.taken rest).rxPayLen = s.rxPayLen := rfl
@[simp] theorem State.taken_rxConsumed (s : State) (rest : List Input) : (s.taken rest).rxConsumed = s.rxConsumed := rfl
@[simp] theorem State.taken_buf (s : State) (rest : List Input) : (s.taken rest).buf = s.buf := rfl
@[simp] theorem State.taken_bufDraw (s : State) (rest : List Input) : (s.taken rest).bufDraw = s.bufDraw := rfl
@[simp] theorem State.taken_draws (s : State) (rest : List Input) : (s.taken rest).draws = s.draws := rfl
@[simp] theorem State.taken_pending (s : State) (rest : List Input) : (s.taken rest).pending = rest := rfl
@[simp] theorem State.taken_readData (s : State) (rest : List Input) : (s.taken rest).readData = none := rfl

/-! ### State.withInput -/

@[simp] theorem State.withInput_params (s : State) (i : Input) : (s.withInput i).params = s.params := rfl
@[simp] theorem State.withInput_err (s : State) (i : Input) : (s.withInput i).err = s.err := rfl
@[simp] theorem State.withInput_link (s : State) (i : Input) : (s.withInput i).link = s.link := rfl
@[simp] theorem State.withInput_reasmDone (s : State) (i : Input) : (s.withInput i).reasmDone = s.reasmDone := rfl
@[simp] theorem State.withInput_fillCrc (s : State) (i : Input) : (s.withInput i).fillCrc = s.fillCrc := rfl
@[simp] theorem State.withInput_verifyCrc (s : State) (i : Input) : (s.withInput i).verifyCrc = s.verifyCrc := rfl
@[simp] theorem State.withInput_srcAddr (s : State) (i : Input) : (s.withInput i).srcAddr = s.srcAddr := rfl
@[simp] theorem State.withInput_srcLen (s : State) (i : Input) : (s.withInput i).srcLen = s.srcLen := rfl
@[simp] theorem State.withInput_dstAddr (s : State) (i : Input) : (s.withInput i).dstAddr = s.dstAddr := rfl
@[simp] theorem State.withInput_dstCap (s : State) (i : Input) : (s.withInput i).dstCap = s.dstCap := rfl
@[simp] theorem State.withInput_outLen (s : State) (i : Input) : (s.withInput i).outLen = s.outLen := rfl
@[simp] theorem State.withInput_crcVar (s : State) (i : Input) : (s.withInput i).crcVar = s.crcVar := rfl
@[simp] theorem State.withInput_crcState (s : State) (i : Input) : (s.withInput i).crcState = s.crcState := rfl
@[simp] theorem State.withInput_ns (s : State) (i : Input) : (s.withInput i).ns = s.ns := rfl
@[simp] theorem State.withInput_nr (s : State) (i : Input) : (s.withInput i).nr = s.nr := rfl
@[simp] theorem State.withInput_serverAddr (s : State) (i : Input) : (s.withInput i).serverAddr = s.serverAddr := rfl
@[simp] theorem State.withInput_clientAddr (s : State) (i : Input) : (s.withInput i).clientAddr = s.clientAddr := rfl
@[simp] theorem State.withInput_reasmBase (s : State) (i : Input) : (s.withInput i).reasmBase = s.reasmBase := rfl
@[simp] theorem State.withInput_reasmCap (s : State) (i : Input) : (s.withInput i).reasmCap = s.reasmCap := rfl
@[simp] theorem State.withInput_reasmFill (s : State) (i : Input) : (s.withInput i).reasmFill = s.reasmFill := rfl
@[simp] theorem State.withInput_rxFmt (s : State) (i : Input) : (s.withInput i).rxFmt = s.rxFmt := rfl
@[simp] theorem State.withInput_rxDst (s : State) (i : Input) : (s.withInput i).rxDst = s.rxDst := rfl
@[simp] theorem State.withInput_rxSrc (s : State) (i : Input) : (s.withInput i).rxSrc = s.rxSrc := rfl
@[simp] theorem State.withInput_rxCtrl (s : State) (i : Input) : (s.withInput i).rxCtrl = s.rxCtrl := rfl
@[simp] theorem State.withInput_rxPayAddr (s : State) (i : Input) : (s.withInput i).rxPayAddr = s.rxPayAddr := rfl
@[simp] theorem State.withInput_rxPayLen (s : State) (i : Input) : (s.withInput i).rxPayLen = s.rxPayLen := rfl
@[simp] theorem State.withInput_rxConsumed (s : State) (i : Input) : (s.withInput i).rxConsumed = s.rxConsumed := rfl
@[simp] theorem State.withInput_buf (s : State) (i : Input) : (s.withInput i).buf = s.buf := rfl
@[simp] theorem State.withInput_bufDraw (s : State) (i : Input) : (s.withInput i).bufDraw = s.bufDraw := rfl
@[simp] theorem State.withInput_draws (s : State) (i : Input) : (s.withInput i).draws = s.draws := rfl
@[simp] theorem State.withInput_pending (s : State) (i : Input) : (s.withInput i).pending = i :: s.pending := rfl
@[simp] theorem State.withInput_readData (s : State) (i : Input) : (s.withInput i).readData = s.readData := rfl

/-! ### State.writeCtrl -/

@[simp] theorem State.writeCtrl_params (s : State) (w : Word) : (s.writeCtrl w).params = s.params := rfl
@[simp] theorem State.writeCtrl_err (s : State) (w : Word) : (s.writeCtrl w).err = s.err := rfl
@[simp] theorem State.writeCtrl_link (s : State) (w : Word) : (s.writeCtrl w).link = s.link := rfl
@[simp] theorem State.writeCtrl_reasmDone (s : State) (w : Word) : (s.writeCtrl w).reasmDone = s.reasmDone := rfl
@[simp] theorem State.writeCtrl_fillCrc (s : State) (w : Word) : (s.writeCtrl w).fillCrc = w.getLsbD 0 := rfl
@[simp] theorem State.writeCtrl_verifyCrc (s : State) (w : Word) : (s.writeCtrl w).verifyCrc = w.getLsbD 1 := rfl
@[simp] theorem State.writeCtrl_srcAddr (s : State) (w : Word) : (s.writeCtrl w).srcAddr = s.srcAddr := rfl
@[simp] theorem State.writeCtrl_srcLen (s : State) (w : Word) : (s.writeCtrl w).srcLen = s.srcLen := rfl
@[simp] theorem State.writeCtrl_dstAddr (s : State) (w : Word) : (s.writeCtrl w).dstAddr = s.dstAddr := rfl
@[simp] theorem State.writeCtrl_dstCap (s : State) (w : Word) : (s.writeCtrl w).dstCap = s.dstCap := rfl
@[simp] theorem State.writeCtrl_outLen (s : State) (w : Word) : (s.writeCtrl w).outLen = s.outLen := rfl
@[simp] theorem State.writeCtrl_crcVar (s : State) (w : Word) : (s.writeCtrl w).crcVar = s.crcVar := rfl
@[simp] theorem State.writeCtrl_crcState (s : State) (w : Word) : (s.writeCtrl w).crcState = s.crcState := rfl
@[simp] theorem State.writeCtrl_ns (s : State) (w : Word) : (s.writeCtrl w).ns = s.ns := rfl
@[simp] theorem State.writeCtrl_nr (s : State) (w : Word) : (s.writeCtrl w).nr = s.nr := rfl
@[simp] theorem State.writeCtrl_serverAddr (s : State) (w : Word) : (s.writeCtrl w).serverAddr = s.serverAddr := rfl
@[simp] theorem State.writeCtrl_clientAddr (s : State) (w : Word) : (s.writeCtrl w).clientAddr = s.clientAddr := rfl
@[simp] theorem State.writeCtrl_reasmBase (s : State) (w : Word) : (s.writeCtrl w).reasmBase = s.reasmBase := rfl
@[simp] theorem State.writeCtrl_reasmCap (s : State) (w : Word) : (s.writeCtrl w).reasmCap = s.reasmCap := rfl
@[simp] theorem State.writeCtrl_reasmFill (s : State) (w : Word) : (s.writeCtrl w).reasmFill = s.reasmFill := rfl
@[simp] theorem State.writeCtrl_rxFmt (s : State) (w : Word) : (s.writeCtrl w).rxFmt = s.rxFmt := rfl
@[simp] theorem State.writeCtrl_rxDst (s : State) (w : Word) : (s.writeCtrl w).rxDst = s.rxDst := rfl
@[simp] theorem State.writeCtrl_rxSrc (s : State) (w : Word) : (s.writeCtrl w).rxSrc = s.rxSrc := rfl
@[simp] theorem State.writeCtrl_rxCtrl (s : State) (w : Word) : (s.writeCtrl w).rxCtrl = s.rxCtrl := rfl
@[simp] theorem State.writeCtrl_rxPayAddr (s : State) (w : Word) : (s.writeCtrl w).rxPayAddr = s.rxPayAddr := rfl
@[simp] theorem State.writeCtrl_rxPayLen (s : State) (w : Word) : (s.writeCtrl w).rxPayLen = s.rxPayLen := rfl
@[simp] theorem State.writeCtrl_rxConsumed (s : State) (w : Word) : (s.writeCtrl w).rxConsumed = s.rxConsumed := rfl
@[simp] theorem State.writeCtrl_buf (s : State) (w : Word) : (s.writeCtrl w).buf = s.buf := rfl
@[simp] theorem State.writeCtrl_bufDraw (s : State) (w : Word) : (s.writeCtrl w).bufDraw = s.bufDraw := rfl
@[simp] theorem State.writeCtrl_draws (s : State) (w : Word) : (s.writeCtrl w).draws = s.draws := rfl
@[simp] theorem State.writeCtrl_pending (s : State) (w : Word) : (s.writeCtrl w).pending = s.pending := rfl
@[simp] theorem State.writeCtrl_readData (s : State) (w : Word) : (s.writeCtrl w).readData = s.readData := rfl

/-! ### State.hardReset -/

@[simp] theorem State.hardReset_params (s : State) : (s.hardReset).params = s.params := rfl
@[simp] theorem State.hardReset_err (s : State) : (s.hardReset).err = .ok := rfl
@[simp] theorem State.hardReset_link (s : State) : (s.hardReset).link = .disconnected := rfl
@[simp] theorem State.hardReset_reasmDone (s : State) : (s.hardReset).reasmDone = false := rfl
@[simp] theorem State.hardReset_fillCrc (s : State) : (s.hardReset).fillCrc = true := rfl
@[simp] theorem State.hardReset_verifyCrc (s : State) : (s.hardReset).verifyCrc = true := rfl
@[simp] theorem State.hardReset_srcAddr (s : State) : (s.hardReset).srcAddr = 0 := rfl
@[simp] theorem State.hardReset_srcLen (s : State) : (s.hardReset).srcLen = 0 := rfl
@[simp] theorem State.hardReset_dstAddr (s : State) : (s.hardReset).dstAddr = 0 := rfl
@[simp] theorem State.hardReset_dstCap (s : State) : (s.hardReset).dstCap = 0 := rfl
@[simp] theorem State.hardReset_outLen (s : State) : (s.hardReset).outLen = 0 := rfl
@[simp] theorem State.hardReset_crcVar (s : State) : (s.hardReset).crcVar = .modbus := rfl
@[simp] theorem State.hardReset_crcState (s : State) : (s.hardReset).crcState = 0xFFFF := rfl
@[simp] theorem State.hardReset_ns (s : State) : (s.hardReset).ns = 0 := rfl
@[simp] theorem State.hardReset_nr (s : State) : (s.hardReset).nr = 0 := rfl
@[simp] theorem State.hardReset_serverAddr (s : State) : (s.hardReset).serverAddr = 0 := rfl
@[simp] theorem State.hardReset_clientAddr (s : State) : (s.hardReset).clientAddr = 0 := rfl
@[simp] theorem State.hardReset_reasmBase (s : State) : (s.hardReset).reasmBase = 0 := rfl
@[simp] theorem State.hardReset_reasmCap (s : State) : (s.hardReset).reasmCap = 0 := rfl
@[simp] theorem State.hardReset_reasmFill (s : State) : (s.hardReset).reasmFill = 0 := rfl
@[simp] theorem State.hardReset_rxFmt (s : State) : (s.hardReset).rxFmt = 0 := rfl
@[simp] theorem State.hardReset_rxDst (s : State) : (s.hardReset).rxDst = 0 := rfl
@[simp] theorem State.hardReset_rxSrc (s : State) : (s.hardReset).rxSrc = 0 := rfl
@[simp] theorem State.hardReset_rxCtrl (s : State) : (s.hardReset).rxCtrl = 0 := rfl
@[simp] theorem State.hardReset_rxPayAddr (s : State) : (s.hardReset).rxPayAddr = 0 := rfl
@[simp] theorem State.hardReset_rxPayLen (s : State) : (s.hardReset).rxPayLen = 0 := rfl
@[simp] theorem State.hardReset_rxConsumed (s : State) : (s.hardReset).rxConsumed = 0 := rfl
@[simp] theorem State.hardReset_buf (s : State) : (s.hardReset).buf = [] := rfl
@[simp] theorem State.hardReset_bufDraw (s : State) : (s.hardReset).bufDraw = s.draws := rfl
@[simp] theorem State.hardReset_draws (s : State) : (s.hardReset).draws = s.draws + 1 := rfl
@[simp] theorem State.hardReset_pending (s : State) : (s.hardReset).pending = s.pending := rfl
@[simp] theorem State.hardReset_readData (s : State) : (s.hardReset).readData = none := rfl

/-! ### State.countFrame: only NR can change -/

@[simp] theorem State.countFrame_nr (s : State) (c : Byte) :
    (s.countFrame c).nr = if finalBit c then s.nr + 1 else s.nr := by
  unfold State.countFrame; split <;> rfl
@[simp] theorem State.countFrame_params (s : State) (c : Byte) : (s.countFrame c).params = s.params := by
  unfold State.countFrame; split <;> rfl
@[simp] theorem State.countFrame_err (s : State) (c : Byte) : (s.countFrame c).err = s.err := by
  unfold State.countFrame; split <;> rfl
@[simp] theorem State.countFrame_link (s : State) (c : Byte) : (s.countFrame c).link = s.link := by
  unfold State.countFrame; split <;> rfl
@[simp] theorem State.countFrame_reasmDone (s : State) (c : Byte) : (s.countFrame c).reasmDone = s.reasmDone := by
  unfold State.countFrame; split <;> rfl
@[simp] theorem State.countFrame_fillCrc (s : State) (c : Byte) : (s.countFrame c).fillCrc = s.fillCrc := by
  unfold State.countFrame; split <;> rfl
@[simp] theorem State.countFrame_verifyCrc (s : State) (c : Byte) : (s.countFrame c).verifyCrc = s.verifyCrc := by
  unfold State.countFrame; split <;> rfl
@[simp] theorem State.countFrame_srcAddr (s : State) (c : Byte) : (s.countFrame c).srcAddr = s.srcAddr := by
  unfold State.countFrame; split <;> rfl
@[simp] theorem State.countFrame_srcLen (s : State) (c : Byte) : (s.countFrame c).srcLen = s.srcLen := by
  unfold State.countFrame; split <;> rfl
@[simp] theorem State.countFrame_dstAddr (s : State) (c : Byte) : (s.countFrame c).dstAddr = s.dstAddr := by
  unfold State.countFrame; split <;> rfl
@[simp] theorem State.countFrame_dstCap (s : State) (c : Byte) : (s.countFrame c).dstCap = s.dstCap := by
  unfold State.countFrame; split <;> rfl
@[simp] theorem State.countFrame_outLen (s : State) (c : Byte) : (s.countFrame c).outLen = s.outLen := by
  unfold State.countFrame; split <;> rfl
@[simp] theorem State.countFrame_crcVar (s : State) (c : Byte) : (s.countFrame c).crcVar = s.crcVar := by
  unfold State.countFrame; split <;> rfl
@[simp] theorem State.countFrame_crcState (s : State) (c : Byte) : (s.countFrame c).crcState = s.crcState := by
  unfold State.countFrame; split <;> rfl
@[simp] theorem State.countFrame_ns (s : State) (c : Byte) : (s.countFrame c).ns = s.ns := by
  unfold State.countFrame; split <;> rfl
@[simp] theorem State.countFrame_serverAddr (s : State) (c : Byte) : (s.countFrame c).serverAddr = s.serverAddr := by
  unfold State.countFrame; split <;> rfl
@[simp] theorem State.countFrame_clientAddr (s : State) (c : Byte) : (s.countFrame c).clientAddr = s.clientAddr := by
  unfold State.countFrame; split <;> rfl
@[simp] theorem State.countFrame_reasmBase (s : State) (c : Byte) : (s.countFrame c).reasmBase = s.reasmBase := by
  unfold State.countFrame; split <;> rfl
@[simp] theorem State.countFrame_reasmCap (s : State) (c : Byte) : (s.countFrame c).reasmCap = s.reasmCap := by
  unfold State.countFrame; split <;> rfl
@[simp] theorem State.countFrame_reasmFill (s : State) (c : Byte) : (s.countFrame c).reasmFill = s.reasmFill := by
  unfold State.countFrame; split <;> rfl
@[simp] theorem State.countFrame_rxFmt (s : State) (c : Byte) : (s.countFrame c).rxFmt = s.rxFmt := by
  unfold State.countFrame; split <;> rfl
@[simp] theorem State.countFrame_rxDst (s : State) (c : Byte) : (s.countFrame c).rxDst = s.rxDst := by
  unfold State.countFrame; split <;> rfl
@[simp] theorem State.countFrame_rxSrc (s : State) (c : Byte) : (s.countFrame c).rxSrc = s.rxSrc := by
  unfold State.countFrame; split <;> rfl
@[simp] theorem State.countFrame_rxCtrl (s : State) (c : Byte) : (s.countFrame c).rxCtrl = s.rxCtrl := by
  unfold State.countFrame; split <;> rfl
@[simp] theorem State.countFrame_rxPayAddr (s : State) (c : Byte) : (s.countFrame c).rxPayAddr = s.rxPayAddr := by
  unfold State.countFrame; split <;> rfl
@[simp] theorem State.countFrame_rxPayLen (s : State) (c : Byte) : (s.countFrame c).rxPayLen = s.rxPayLen := by
  unfold State.countFrame; split <;> rfl
@[simp] theorem State.countFrame_rxConsumed (s : State) (c : Byte) : (s.countFrame c).rxConsumed = s.rxConsumed := by
  unfold State.countFrame; split <;> rfl
@[simp] theorem State.countFrame_buf (s : State) (c : Byte) : (s.countFrame c).buf = s.buf := by
  unfold State.countFrame; split <;> rfl
@[simp] theorem State.countFrame_bufDraw (s : State) (c : Byte) : (s.countFrame c).bufDraw = s.bufDraw := by
  unfold State.countFrame; split <;> rfl
@[simp] theorem State.countFrame_draws (s : State) (c : Byte) : (s.countFrame c).draws = s.draws := by
  unfold State.countFrame; split <;> rfl
@[simp] theorem State.countFrame_pending (s : State) (c : Byte) : (s.countFrame c).pending = s.pending := by
  unfold State.countFrame; split <;> rfl
@[simp] theorem State.countFrame_readData (s : State) (c : Byte) : (s.countFrame c).readData = s.readData := by
  unfold State.countFrame; split <;> rfl

/-! ### State.writeCrcCfg: only CRC_CFG.VAR can change -/

@[simp] theorem State.writeCrcCfg_crcVar (s : State) (w : Word) :
    (s.writeCrcCfg w).crcVar = (selectVar (w.extractLsb' 0 2)).getD s.crcVar := by
  unfold State.writeCrcCfg; split <;> simp_all
@[simp] theorem State.writeCrcCfg_params (s : State) (w : Word) : (s.writeCrcCfg w).params = s.params := by
  unfold State.writeCrcCfg; split <;> rfl
@[simp] theorem State.writeCrcCfg_err (s : State) (w : Word) : (s.writeCrcCfg w).err = s.err := by
  unfold State.writeCrcCfg; split <;> rfl
@[simp] theorem State.writeCrcCfg_link (s : State) (w : Word) : (s.writeCrcCfg w).link = s.link := by
  unfold State.writeCrcCfg; split <;> rfl
@[simp] theorem State.writeCrcCfg_reasmDone (s : State) (w : Word) : (s.writeCrcCfg w).reasmDone = s.reasmDone := by
  unfold State.writeCrcCfg; split <;> rfl
@[simp] theorem State.writeCrcCfg_fillCrc (s : State) (w : Word) : (s.writeCrcCfg w).fillCrc = s.fillCrc := by
  unfold State.writeCrcCfg; split <;> rfl
@[simp] theorem State.writeCrcCfg_verifyCrc (s : State) (w : Word) : (s.writeCrcCfg w).verifyCrc = s.verifyCrc := by
  unfold State.writeCrcCfg; split <;> rfl
@[simp] theorem State.writeCrcCfg_srcAddr (s : State) (w : Word) : (s.writeCrcCfg w).srcAddr = s.srcAddr := by
  unfold State.writeCrcCfg; split <;> rfl
@[simp] theorem State.writeCrcCfg_srcLen (s : State) (w : Word) : (s.writeCrcCfg w).srcLen = s.srcLen := by
  unfold State.writeCrcCfg; split <;> rfl
@[simp] theorem State.writeCrcCfg_dstAddr (s : State) (w : Word) : (s.writeCrcCfg w).dstAddr = s.dstAddr := by
  unfold State.writeCrcCfg; split <;> rfl
@[simp] theorem State.writeCrcCfg_dstCap (s : State) (w : Word) : (s.writeCrcCfg w).dstCap = s.dstCap := by
  unfold State.writeCrcCfg; split <;> rfl
@[simp] theorem State.writeCrcCfg_outLen (s : State) (w : Word) : (s.writeCrcCfg w).outLen = s.outLen := by
  unfold State.writeCrcCfg; split <;> rfl
@[simp] theorem State.writeCrcCfg_crcState (s : State) (w : Word) : (s.writeCrcCfg w).crcState = s.crcState := by
  unfold State.writeCrcCfg; split <;> rfl
@[simp] theorem State.writeCrcCfg_ns (s : State) (w : Word) : (s.writeCrcCfg w).ns = s.ns := by
  unfold State.writeCrcCfg; split <;> rfl
@[simp] theorem State.writeCrcCfg_nr (s : State) (w : Word) : (s.writeCrcCfg w).nr = s.nr := by
  unfold State.writeCrcCfg; split <;> rfl
@[simp] theorem State.writeCrcCfg_serverAddr (s : State) (w : Word) : (s.writeCrcCfg w).serverAddr = s.serverAddr := by
  unfold State.writeCrcCfg; split <;> rfl
@[simp] theorem State.writeCrcCfg_clientAddr (s : State) (w : Word) : (s.writeCrcCfg w).clientAddr = s.clientAddr := by
  unfold State.writeCrcCfg; split <;> rfl
@[simp] theorem State.writeCrcCfg_reasmBase (s : State) (w : Word) : (s.writeCrcCfg w).reasmBase = s.reasmBase := by
  unfold State.writeCrcCfg; split <;> rfl
@[simp] theorem State.writeCrcCfg_reasmCap (s : State) (w : Word) : (s.writeCrcCfg w).reasmCap = s.reasmCap := by
  unfold State.writeCrcCfg; split <;> rfl
@[simp] theorem State.writeCrcCfg_reasmFill (s : State) (w : Word) : (s.writeCrcCfg w).reasmFill = s.reasmFill := by
  unfold State.writeCrcCfg; split <;> rfl
@[simp] theorem State.writeCrcCfg_rxFmt (s : State) (w : Word) : (s.writeCrcCfg w).rxFmt = s.rxFmt := by
  unfold State.writeCrcCfg; split <;> rfl
@[simp] theorem State.writeCrcCfg_rxDst (s : State) (w : Word) : (s.writeCrcCfg w).rxDst = s.rxDst := by
  unfold State.writeCrcCfg; split <;> rfl
@[simp] theorem State.writeCrcCfg_rxSrc (s : State) (w : Word) : (s.writeCrcCfg w).rxSrc = s.rxSrc := by
  unfold State.writeCrcCfg; split <;> rfl
@[simp] theorem State.writeCrcCfg_rxCtrl (s : State) (w : Word) : (s.writeCrcCfg w).rxCtrl = s.rxCtrl := by
  unfold State.writeCrcCfg; split <;> rfl
@[simp] theorem State.writeCrcCfg_rxPayAddr (s : State) (w : Word) : (s.writeCrcCfg w).rxPayAddr = s.rxPayAddr := by
  unfold State.writeCrcCfg; split <;> rfl
@[simp] theorem State.writeCrcCfg_rxPayLen (s : State) (w : Word) : (s.writeCrcCfg w).rxPayLen = s.rxPayLen := by
  unfold State.writeCrcCfg; split <;> rfl
@[simp] theorem State.writeCrcCfg_rxConsumed (s : State) (w : Word) : (s.writeCrcCfg w).rxConsumed = s.rxConsumed := by
  unfold State.writeCrcCfg; split <;> rfl
@[simp] theorem State.writeCrcCfg_buf (s : State) (w : Word) : (s.writeCrcCfg w).buf = s.buf := by
  unfold State.writeCrcCfg; split <;> rfl
@[simp] theorem State.writeCrcCfg_bufDraw (s : State) (w : Word) : (s.writeCrcCfg w).bufDraw = s.bufDraw := by
  unfold State.writeCrcCfg; split <;> rfl
@[simp] theorem State.writeCrcCfg_draws (s : State) (w : Word) : (s.writeCrcCfg w).draws = s.draws := by
  unfold State.writeCrcCfg; split <;> rfl
@[simp] theorem State.writeCrcCfg_pending (s : State) (w : Word) : (s.writeCrcCfg w).pending = s.pending := by
  unfold State.writeCrcCfg; split <;> rfl
@[simp] theorem State.writeCrcCfg_readData (s : State) (w : Word) : (s.writeCrcCfg w).readData = s.readData := by
  unfold State.writeCrcCfg; split <;> rfl

end Sys2Proof.Machine
end

