-- ==== Sys2Proof/Laws/Memory.lean ====
section
/-! SUPPORT. Reading after writing, and the canonical form: what every operation on BUF keeps. -/

namespace Sys2Proof.Machine

/-! ### Reading after writing -/

@[simp] theorem Memory.read?_nil (a : Nat) : Memory.read? [] a = none := rfl

theorem Memory.read?_write (m : Memory) (a : Nat) (b : Byte) (x : Nat) :
    (m.write a b).read? x = if x = a then some b else m.read? x := by
  induction m with
  | nil => simp [Memory.write, Memory.read?]
  | cons c m ih =>
    obtain ⟨y, v⟩ := c
    simp only [Memory.write]
    split
    · simp [Memory.read?]
    · split
      · subst_vars; simp only [Memory.read?]; split <;> rfl
      · simp only [Memory.read?, ih]
        split <;> split <;> simp_all

theorem Memory.read?_writeRange_outside (bs : List Byte) (m : Memory) (a x : Nat)
    (h : x < a ∨ a + bs.length ≤ x) : (m.writeRange a bs).read? x = m.read? x := by
  induction bs generalizing m a with
  | nil => rfl
  | cons b bs ih =>
    simp only [List.length_cons] at h
    rw [Memory.writeRange, ih _ _ (by omega), Memory.read?_write, if_neg (by omega)]

theorem Memory.read?_writeRange_inside (bs : List Byte) (m : Memory) (a i : Nat) (h : i < bs.length) :
    (m.writeRange a bs).read? (a + i) = some bs[i] := by
  induction bs generalizing m a i with
  | nil => simp at h
  | cons b bs ih =>
    rw [Memory.writeRange]
    cases i with
    | zero =>
      rw [Memory.read?_writeRange_outside _ _ _ _ (by omega), Memory.read?_write]
      simp
    | succ i =>
      have := ih (m.write a b) (a + 1) i (by simpa using h)
      simpa [Nat.add_assoc, Nat.add_comm 1] using this

/-! ### The canonical form -/

theorem Memory.risesFrom_mono {m : Memory} {lo lo' : Nat} (h : lo' ≤ lo) (hm : Memory.risesFrom lo m = true) :
    Memory.risesFrom lo' m = true := by
  cases m with
  | nil => rfl
  | cons c m => simp_all [Memory.risesFrom]; omega

theorem Memory.risesFrom_write {m : Memory} {lo a : Nat} (b : Byte) (ha : lo ≤ a)
    (hm : Memory.risesFrom lo m = true) : Memory.risesFrom lo (m.write a b) = true := by
  induction m generalizing lo with
  | nil => simp [Memory.write, Memory.risesFrom, ha]
  | cons c m ih =>
    obtain ⟨x, y⟩ := c
    simp only [Memory.risesFrom, Bool.and_eq_true, decide_eq_true_eq] at hm
    simp only [Memory.write]
    split
    · simp only [Memory.risesFrom, Bool.and_eq_true, decide_eq_true_eq]
      exact ⟨ha, by omega, hm.2⟩
    · split
      · subst_vars; simp only [Memory.risesFrom, Bool.and_eq_true, decide_eq_true_eq]; exact hm
      · simp only [Memory.risesFrom, Bool.and_eq_true, decide_eq_true_eq]
        exact ⟨hm.1, ih (by omega) hm.2⟩

/-- A byte write keeps the canonical form. -/
theorem Memory.wf_write {m : Memory} (a : Nat) (b : Byte) (hm : m.wf = true) : (m.write a b).wf = true :=
  Memory.risesFrom_write b (Nat.zero_le a) hm

/-- A range write keeps the canonical form. -/
theorem Memory.wf_writeRange (bs : List Byte) {m : Memory} (a : Nat) (hm : m.wf = true) :
    (m.writeRange a bs).wf = true := by
  induction bs generalizing m a with
  | nil => exact hm
  | cons b bs ih => exact ih _ (Memory.wf_write a b hm)

theorem Memory.within_write {m : Memory} {size a : Nat} (b : Byte) (ha : a < size)
    (hm : m.within size = true) : (m.write a b).within size = true := by
  induction m with
  | nil => simp [Memory.write, Memory.within, ha]
  | cons c m ih =>
    obtain ⟨x, y⟩ := c
    simp only [Memory.within, List.all_cons, Bool.and_eq_true, decide_eq_true_eq] at hm ih ⊢
    simp only [Memory.write]
    split
    · simp [List.all_cons, ha, hm]
    · split
      · simp [List.all_cons, ha, hm.2]
      · simp only [List.all_cons, Bool.and_eq_true, decide_eq_true_eq]
        exact ⟨hm.1, ih hm.2⟩

/-- A range write inside BUF stores nothing outside BUF. -/
theorem Memory.within_writeRange (bs : List Byte) {m : Memory} {size a : Nat} (ha : a + bs.length ≤ size)
    (hm : m.within size = true) : (m.writeRange a bs).within size = true := by
  induction bs generalizing m a with
  | nil => exact hm
  | cons b bs ih =>
    simp only [List.length_cons] at ha
    exact ih (by omega) (Memory.within_write b (by omega) hm)

/-- Nothing is listed below the bound that a list rises from. -/
theorem Memory.read?_below {m : Memory} {lo a : Nat} (hm : Memory.risesFrom lo m = true) (h : a < lo) :
    m.read? a = none := by
  induction m generalizing lo with
  | nil => rfl
  | cons c m ih =>
    obtain ⟨x, y⟩ := c
    simp only [Memory.risesFrom, Bool.and_eq_true, decide_eq_true_eq] at hm
    rw [Memory.read?, if_neg (by omega)]
    exact ih hm.2 (by omega)

theorem Memory.eq_of_risesFrom {m n : Memory} {lo : Nat} (hm : Memory.risesFrom lo m = true)
    (hn : Memory.risesFrom lo n = true) (h : ∀ a, m.read? a = n.read? a) : m = n := by
  induction m generalizing n lo with
  | nil =>
    cases n with
    | nil => rfl
    | cons d n => have := h d.1; simp [Memory.read?] at this
  | cons c m ih =>
    obtain ⟨x, y⟩ := c
    cases n with
    | nil => have := h x; simp [Memory.read?] at this
    | cons d n =>
      obtain ⟨x', y'⟩ := d
      simp only [Memory.risesFrom, Bool.and_eq_true, decide_eq_true_eq] at hm hn
      have hx : x = x' := by
        rcases Nat.lt_trichotomy x x' with hlt | heq | hlt
        · have := h x
          rw [Memory.read?, if_pos rfl, Memory.read?, if_neg (by omega), Memory.read?_below hn.2 (by omega)] at this
          cases this
        · exact heq
        · have := h x'
          rw [Memory.read?, if_neg (by omega), Memory.read?_below hm.2 (by omega), Memory.read?, if_pos rfl] at this
          cases this
      subst hx
      have hy : y = y' := by have := h x; simpa [Memory.read?] using this
      subst hy
      rw [ih hm.2 hn.2]
      intro a
      rcases Nat.lt_or_ge x a with hlt | hge
      · have := h a
        rwa [Memory.read?, if_neg (by omega), Memory.read?, if_neg (by omega)] at this
      · rw [Memory.read?_below hm.2 (by omega), Memory.read?_below hn.2 (by omega)]

/-- Two memories in canonical form that hold the same bytes are the same list. -/
theorem Memory.eq_of_wf {m n : Memory} (hm : m.wf = true) (hn : n.wf = true) (h : ∀ a, m.read? a = n.read? a) :
    m = n := Memory.eq_of_risesFrom hm hn h

/-! ### BUF as the state holds it -/

/-- A byte of BUF depends on its list and on the reset draw alone. -/
theorem State.bufByte_congr {s t : State} {a : Nat} (h : s.buf.read? a = t.buf.read? a)
    (hd : s.bufDraw = t.bufDraw) : s.bufByte a = t.bufByte a := by
  simp [State.bufByte, h, hd]

/-- The update leaves BUF as it is, byte for byte. -/
theorem State.bufByte_of_buf_eq {s t : State} (h : s.buf = t.buf) (hd : s.bufDraw = t.bufDraw) (a : Nat) :
    s.bufByte a = t.bufByte a := State.bufByte_congr (by rw [h]) hd

/-- Where a range was written, its bytes read back. -/
theorem State.bufByte_written {s t : State} {a i : Nat} {bs : List Byte} (ht : t.buf = s.buf.writeRange a bs)
    (h : i < bs.length) : t.bufByte (a + i) = bs[i] := by
  simp [State.bufByte, ht, Memory.read?_writeRange_inside _ _ _ _ h]

/-- Outside a written range, every byte reads as before. -/
theorem State.bufByte_unwritten {s t : State} {a x : Nat} {bs : List Byte} (ht : t.buf = s.buf.writeRange a bs)
    (hd : t.bufDraw = s.bufDraw) (h : x < a ∨ a + bs.length ≤ x) : t.bufByte x = s.bufByte x :=
  State.bufByte_congr (by rw [ht, Memory.read?_writeRange_outside _ _ _ _ h]) hd

@[simp] theorem State.length_memRead (s : State) (a n : Nat) : (s.memRead a n).length = n := by
  induction n generalizing a with
  | zero => rfl
  | succ n ih => simp [State.memRead, ih]

/-- `MemRead(a, n)` byte by byte (spec/00_scope.md R10). -/
theorem State.getElem_memRead (s : State) (a n i : Nat) (h : i < (s.memRead a n).length) :
    (s.memRead a n)[i] = s.bufByte (a + i) := by
  induction n generalizing a i with
  | zero => simp [State.memRead] at h
  | succ n ih =>
    cases i with
    | zero => rfl
    | succ i => simp only [State.memRead, List.getElem_cons_succ, ih]; congr 1; omega

/-- Two states with the same bytes in a range read the same there. -/
theorem State.memRead_congr {s t : State} {a n : Nat} (h : ∀ i < n, s.bufByte (a + i) = t.bufByte (a + i)) :
    s.memRead a n = t.memRead a n := by
  apply List.ext_getElem (by simp)
  intro i h1 h2
  rw [State.getElem_memRead, State.getElem_memRead]
  exact h i (by simpa using h1)

/-- A range read in two parts (spec/41_checksum.md R77: segmentation). -/
theorem State.memRead_add (s : State) (a m n : Nat) : s.memRead a (m + n) = s.memRead a m ++ s.memRead (a + m) n := by
  induction m generalizing a with
  | zero => simp [State.memRead]
  | succ m ih =>
    rw [Nat.succ_add, State.memRead, State.memRead, ih, List.cons_append]
    congr 3; omega

/-- The update leaves every range as it is. -/
theorem State.memRead_of_buf_eq {s t : State} (h : s.buf = t.buf) (hd : s.bufDraw = t.bufDraw) (a n : Nat) :
    s.memRead a n = t.memRead a n := State.memRead_congr fun i _ => State.bufByte_of_buf_eq h hd (a + i)

/-- A written range reads back whole. -/
theorem State.memRead_written {s t : State} {a : Nat} {bs : List Byte} (ht : t.buf = s.buf.writeRange a bs) :
    t.memRead a bs.length = bs := by
  apply List.ext_getElem (by simp)
  intro i h1 h2
  rw [State.getElem_memRead]
  exact State.bufByte_written ht h2

/-! ### Updates that leave BUF alone -/

@[simp] theorem State.bufByte_withErr (s : State) (e : ResultCode) (x : Nat) :
    (s.withErr e).bufByte x = s.bufByte x := State.bufByte_of_buf_eq (by simp) (by simp) x
@[simp] theorem State.memRead_withErr (s : State) (e : ResultCode) (x n : Nat) :
    (s.withErr e).memRead x n = s.memRead x n := State.memRead_of_buf_eq (by simp) (by simp) x n
@[simp] theorem State.bufByte_withCrc (s : State) (v : CrcVar) (c : BitVec 16) (x : Nat) :
    (s.withCrc v c).bufByte x = s.bufByte x := State.bufByte_of_buf_eq (by simp) (by simp) x
@[simp] theorem State.memRead_withCrc (s : State) (v : CrcVar) (c : BitVec 16) (x n : Nat) :
    (s.withCrc v c).memRead x n = s.memRead x n := State.memRead_of_buf_eq (by simp) (by simp) x n
@[simp] theorem State.bufByte_restartLink (s : State) (l : LinkState) (x : Nat) :
    (s.restartLink l).bufByte x = s.bufByte x := State.bufByte_of_buf_eq (by simp) (by simp) x
@[simp] theorem State.memRead_restartLink (s : State) (l : LinkState) (x n : Nat) :
    (s.restartLink l).memRead x n = s.memRead x n := State.memRead_of_buf_eq (by simp) (by simp) x n
@[simp] theorem State.bufByte_withConsumed (s : State) (p : Nat) (x : Nat) :
    (s.withConsumed p).bufByte x = s.bufByte x := State.bufByte_of_buf_eq (by simp) (by simp) x
@[simp] theorem State.memRead_withConsumed (s : State) (p : Nat) (x n : Nat) :
    (s.withConsumed p).memRead x n = s.memRead x n := State.memRead_of_buf_eq (by simp) (by simp) x n
@[simp] theorem State.bufByte_advanceNs (s : State) (x : Nat) :
    (s.advanceNs).bufByte x = s.bufByte x := State.bufByte_of_buf_eq (by simp) (by simp) x
@[simp] theorem State.memRead_advanceNs (s : State) (x n : Nat) :
    (s.advanceNs).memRead x n = s.memRead x n := State.memRead_of_buf_eq (by simp) (by simp) x n
@[simp] theorem State.bufByte_advanceNr (s : State) (x : Nat) :
    (s.advanceNr).bufByte x = s.bufByte x := State.bufByte_of_buf_eq (by simp) (by simp) x
@[simp] theorem State.memRead_advanceNr (s : State) (x n : Nat) :
    (s.advanceNr).memRead x n = s.memRead x n := State.memRead_of_buf_eq (by simp) (by simp) x n
@[simp] theorem State.bufByte_receive (s : State) (f : RxFrame) (x : Nat) :
    (s.receive f).bufByte x = s.bufByte x := State.bufByte_of_buf_eq (by simp) (by simp) x
@[simp] theorem State.memRead_receive (s : State) (f : RxFrame) (x n : Nat) :
    (s.receive f).memRead x n = s.memRead x n := State.memRead_of_buf_eq (by simp) (by simp) x n
@[simp] theorem State.bufByte_taken (s : State) (rest : List Input) (x : Nat) :
    (s.taken rest).bufByte x = s.bufByte x := State.bufByte_of_buf_eq (by simp) (by simp) x
@[simp] theorem State.memRead_taken (s : State) (rest : List Input) (x n : Nat) :
    (s.taken rest).memRead x n = s.memRead x n := State.memRead_of_buf_eq (by simp) (by simp) x n
@[simp] theorem State.bufByte_withInput (s : State) (i : Input) (x : Nat) :
    (s.withInput i).bufByte x = s.bufByte x := State.bufByte_of_buf_eq (by simp) (by simp) x
@[simp] theorem State.memRead_withInput (s : State) (i : Input) (x n : Nat) :
    (s.withInput i).memRead x n = s.memRead x n := State.memRead_of_buf_eq (by simp) (by simp) x n
@[simp] theorem State.bufByte_writeCtrl (s : State) (w : Word) (x : Nat) :
    (s.writeCtrl w).bufByte x = s.bufByte x := State.bufByte_of_buf_eq (by simp) (by simp) x
@[simp] theorem State.memRead_writeCtrl (s : State) (w : Word) (x n : Nat) :
    (s.writeCtrl w).memRead x n = s.memRead x n := State.memRead_of_buf_eq (by simp) (by simp) x n
@[simp] theorem State.bufByte_countFrame (s : State) (c : Byte) (x : Nat) :
    (s.countFrame c).bufByte x = s.bufByte x := State.bufByte_of_buf_eq (by simp) (by simp) x
@[simp] theorem State.memRead_countFrame (s : State) (c : Byte) (x n : Nat) :
    (s.countFrame c).memRead x n = s.memRead x n := State.memRead_of_buf_eq (by simp) (by simp) x n
@[simp] theorem State.bufByte_writeCrcCfg (s : State) (w : Word) (x : Nat) :
    (s.writeCrcCfg w).bufByte x = s.bufByte x := State.bufByte_of_buf_eq (by simp) (by simp) x
@[simp] theorem State.memRead_writeCrcCfg (s : State) (w : Word) (x n : Nat) :
    (s.writeCrcCfg w).memRead x n = s.memRead x n := State.memRead_of_buf_eq (by simp) (by simp) x n

/-! ### Free windows -/

@[simp] theorem length_freeWindow (d a n : Nat) : (freeWindow d a n).length = n := by
  induction n generalizing a with
  | zero => rfl
  | succ n ih => simp [freeWindow, ih]

/-- The free values of a window, one per address. -/
theorem getElem_freeWindow (d a n i : Nat) (h : i < (freeWindow d a n).length) :
    (freeWindow d a n)[i] = Config.freeByte d (a + i) := by
  induction n generalizing a i with
  | zero => simp [freeWindow] at h
  | succ n ih =>
    cases i with
    | zero => rfl
    | succ i => simp only [freeWindow, List.getElem_cons_succ, ih]; congr 1; omega

@[simp] theorem State.length_srcBytes (s : State) : s.srcBytes.length = s.srcLen.toNat := by
  simp [State.srcBytes]

end Sys2Proof.Machine
end

