-- ==== Sys2Proof/Laws/Ops.lean ====
section
/-! SUPPORT. What each shared operation can do, said once: byte order, the ways a command ends, the reader of frames
and the requests of the host. -/

namespace Sys2Proof.Machine

/-! ### Byte order -/

@[simp] theorem length_le16 (v : BitVec 16) : (le16 v).length = 2 := rfl
@[simp] theorem length_be16 (v : BitVec 16) : (be16 v).length = 2 := rfl

/-- The two halves of a 16-bit value, put together again. -/
theorem join_halves (v : BitVec 16) :
    (v.extractLsb' 0 8).setWidth 16 ||| ((v.extractLsb' 8 8).setWidth 16 <<< 8) = v := by
  ext i hi
  simp only [BitVec.getElem_or, BitVec.getElem_setWidth, BitVec.getElem_shiftLeft, BitVec.getLsbD_extractLsb']
  rcases Nat.lt_or_ge i 8 with h | h
  · simp [h, BitVec.getLsbD_eq_getElem hi]
  · simp [show ¬ i < 8 by omega, show i - 8 < 8 by omega, show 8 + (i - 8) = i by omega,
      BitVec.getLsbD_eq_getElem hi]

/-- A byte of a concatenation, past its first part. -/
theorem byteAt_append_right (xs ys : List Byte) (i : Nat) : byteAt (xs ++ ys) (xs.length + i) = byteAt ys i := by
  simp [byteAt, List.getD_eq_getElem?_getD, List.getElem?_append_right]

/-- A byte of a concatenation, inside its first part. -/
theorem byteAt_append_left (xs ys : List Byte) (i : Nat) (h : i < xs.length) :
    byteAt (xs ++ ys) i = byteAt xs i := by
  simp [byteAt, List.getD_eq_getElem?_getD, List.getElem?_append_left h]

/-- `rdle16` reads back what `le16` writes (spec/00_scope.md R10). -/
theorem rdle16_le16 (pre post : List Byte) (v : BitVec 16) : rdle16 (pre ++ le16 v ++ post) pre.length = v := by
  have h0 := byteAt_append_right pre (le16 v ++ post) 0
  have h1 := byteAt_append_right pre (le16 v ++ post) 1
  rw [Nat.add_zero] at h0
  rw [rdle16, List.append_assoc, h0, h1]
  exact join_halves v

/-- The format field reads back what `be16` writes (spec/42_hdlc.md R89). -/
theorem fmtAt_be16 (pre post : List Byte) (v : BitVec 16) : fmtAt (pre ++ be16 v ++ post) pre.length = v := by
  have h0 := byteAt_append_right pre (be16 v ++ post) 0
  have h1 := byteAt_append_right pre (be16 v ++ post) 1
  rw [Nat.add_zero] at h0
  rw [fmtAt, List.append_assoc, h0, h1, BitVec.or_comm]
  exact join_halves v

/-! ### The ways a command ends -/

/-- `raise` answers the state with the code and nothing else changed. -/
theorem raise_next {s t : State} {e : ResultCode} : raise s e = .next t ↔ t = s.withErr e := by
  simp [raise, eq_comm]

/-- Stage 7 answers the state with code Ok. -/
theorem complete_next {s t : State} : complete s = .next t ↔ t = s.withErr .ok := by
  simp [complete, eq_comm]

/-- A BufferTooSmall failure answers the state with its window spoiled. -/
theorem raiseTooSmall_next {s t : State} {a n : Nat} :
    raiseTooSmall s a n = .next t ↔ t = (s.unspecify a n).withErr .bufferTooSmall := by
  simp [raiseTooSmall, eq_comm]

/-- A selector names a variant exactly when it is legal. -/
theorem selectVar_isSome (v : BitVec 2) : (selectVar v).isSome = legalVar v := by
  revert v; decide

/-- The selector of a variant's code. -/
@[simp] theorem selectVar_code (v : CrcVar) : selectVar v.code = some v := by cases v <;> rfl

/-! ### The reader of frames -/

theorem firstFlag_lt {bs : List Byte} {i : Nat} (h : firstFlag bs = some i) : i < bs.length := by
  induction bs generalizing i with
  | nil => simp [firstFlag] at h
  | cons b bs ih =>
    simp only [firstFlag] at h
    split at h
    · cases h; simp
    · simp only [Option.map_eq_some_iff] at h
      obtain ⟨j, hj, rfl⟩ := h
      simpa using ih hj

theorem flagRun_le (bs : List Byte) : flagRun bs ≤ bs.length := by
  induction bs with
  | nil => simp [flagRun]
  | cons b bs ih => simp only [flagRun, List.length_cons]; split <;> omega

theorem vlqDecodeLoop_count {bs : List Byte} {q lim fuel j k : Nat} {a x : BitVec 28}
    (h : vlqDecodeLoop bs q lim fuel j a = some (x, k)) : j < k ∧ k ≤ j + fuel ∧ q + k ≤ lim := by
  induction fuel generalizing j a with
  | zero => simp [vlqDecodeLoop] at h
  | succ fuel ih =>
    simp only [vlqDecodeLoop] at h
    split at h
    · cases h
    · split at h
      · cases h; omega
      · have := ih h; omega

/-- A decoded address takes 1 to 4 bytes, none at or beyond the limit (spec/42_hdlc.md R91). -/
theorem vlqDecode_count {bs : List Byte} {q lim k : Nat} {x : BitVec 28} (h : vlqDecode bs q lim = some (x, k)) :
    1 ≤ k ∧ k ≤ 4 ∧ q + k ≤ lim := by
  have := vlqDecodeLoop_count h; omega

/-- What the tail of HDLC_PARSE answers: an offset that is the frame's start, or a frame of that start. -/
theorem parseTail_cases {P : Params} {v : Bool} {bs : List Byte} {p L h : Nat} {dst src : BitVec 28}
    {r : ParseResult} (hr : parseTail P v bs p L dst src h = r) (hL : h + 2 ≤ L) :
    r = .invalid p ∨ r = .badCrc p ∨
      ∃ f, r = .frame f ∧ f.fmt = fmtAt bs p ∧ f.dst = dst ∧ f.src = src ∧ f.ctrl = byteAt bs (p + h - 1) ∧
        f.consumed = p + L ∧ f.payOff = p + h + 2 ∧ (f.info = true → f.payLen + h + 4 = L) ∧
        (f.info = false → f.payLen = 0 ∧ h + 2 = L) := by
  subst hr
  simp only [parseTail]
  split
  · exact .inl rfl
  · split
    · exact .inr (.inl rfl)
    · split
      · exact .inr (.inr ⟨_, rfl, by simp; omega⟩)
      · split
        · exact .inr (.inl rfl)
        · exact .inr (.inr ⟨_, rfl, by simp; omega⟩)

/-- What HDLC_PARSE's data stage can answer for a frame start `p` (spec/42_hdlc.md R113). -/
theorem parseAt_cases {P : Params} {v : Bool} {bs : List Byte} {p : Nat} {r : ParseResult}
    (hr : parseAt P v bs p = r) :
    r = .incomplete ∨ ((r = .invalid p ∨ r = .badCrc p) ∧ p + 2 ≤ bs.length) ∨
      ∃ f, r = .frame f ∧ f.fmt = fmtAt bs p ∧ fmtType f.fmt = 0xA ∧ 7 ≤ fmtLength f.fmt ∧
        f.consumed = p + fmtLength f.fmt ∧ f.consumed < bs.length ∧ f.payOff + f.payLen ≤ f.consumed := by
  subst hr
  simp only [parseAt]
  split
  · exact .inl rfl
  · rename_i h2
    split
    · exact .inr (.inl ⟨.inl rfl, by omega⟩)
    · rename_i hty
      split
      · exact .inr (.inl ⟨.inl rfl, by omega⟩)
      · split
        · exact .inl rfl
        · rename_i hlen
          split
          · exact .inr (.inl ⟨.inl rfl, by omega⟩)
          · simp only [parseAddresses]
            split
            · exact .inr (.inl ⟨.inl rfl, by omega⟩)
            · split
              · exact .inr (.inl ⟨.inl rfl, by omega⟩)
              · split
                · exact .inr (.inl ⟨.inl rfl, by omega⟩)
                · rename_i hL
                  rcases parseTail_cases rfl (Nat.not_lt.mp hL) with h | h | ⟨f, h, hf, -, -, -, hc, hp, hi, hs⟩
                  · exact .inr (.inl ⟨.inl h, by omega⟩)
                  · exact .inr (.inl ⟨.inr h, by omega⟩)
                  · refine .inr (.inr ⟨f, h, hf, ?_, ?_, ?_, ?_, ?_⟩)
                    · rw [hf]; simpa using hty
                    · rw [hf]; omega
                    · rw [hc, hf]
                    · omega
                    · cases hinfo : f.info
                      · have := hs hinfo; omega
                      · have := hi hinfo; omega

/-- What HDLC_PARSE's data stage can answer, with the bounds every register value rests on. -/
theorem parseFrame_cases {P : Params} {v : Bool} {bs : List Byte} {r : ParseResult} (hr : parseFrame P v bs = r) :
    r = .incomplete ∨ (∃ p, (r = .invalid p ∨ r = .badCrc p) ∧ p ≤ bs.length) ∨
      ∃ f, r = .frame f ∧ fmtType f.fmt = 0xA ∧ 7 ≤ fmtLength f.fmt ∧
        f.consumed < bs.length ∧ f.payOff + f.payLen ≤ f.consumed := by
  subst hr
  simp only [parseFrame]
  split
  · exact .inl rfl
  · rcases parseAt_cases rfl with h | ⟨h, hp⟩ | ⟨f, h, -, h1, h2, -, h3, h4⟩
    · exact .inl h
    · exact .inr (.inl ⟨_, h, by omega⟩)
    · exact .inr (.inr ⟨f, h, h1, h2, h3, h4⟩)

/-- What stages 6 and 7 of HDLC_PARSE can answer (spec/42_hdlc.md R111, R112). -/
theorem acceptFrame_cases {s t : State} {bs : List Byte} {f : RxFrame} (h : acceptFrame s bs f = .next t) :
    (¬ (s.link = .connected ∧ f.info = true) ∧ t = (s.receive f).withErr .ok) ∨
    (s.link = .connected ∧ f.info = true ∧ s.reasmCap = 0 ∧ t = ((s.countFrame f.ctrl).receive f).withErr .ok) ∨
    (s.link = .connected ∧ f.info = true ∧ s.reasmCap ≠ 0 ∧ s.reasmStart + f.payLen ≤ s.reasmCap.toNat ∧
      t = (((s.append s.reasmStart (f.payload bs) (finalBit f.ctrl)).countFrame f.ctrl).receive f).withErr .ok) ∨
    (s.link = .connected ∧ f.info = true ∧ s.reasmCap ≠ 0 ∧ s.reasmCap.toNat < s.reasmStart + f.payLen ∧
      t = (s.unspecify (s.reasmBase.toNat + s.reasmStart) (s.reasmCap.toNat - s.reasmStart)).withErr
        .bufferTooSmall) := by
  simp only [acceptFrame] at h
  split at h
  · rename_i hc
    split at h
    · rename_i hcap
      split at h
      · exact .inr (.inr (.inr ⟨hc.1, hc.2, hcap, by assumption, raiseTooSmall_next.mp h⟩))
      · exact .inr (.inr (.inl ⟨hc.1, hc.2, hcap, by omega, complete_next.mp h⟩))
    · rename_i hcap
      exact .inr (.inl ⟨hc.1, hc.2, by simpa using hcap, complete_next.mp h⟩)
  · rename_i hc
    exact .inl ⟨hc, complete_next.mp h⟩

/-! ### Requests of the host -/

/-- The accesses that have a meaning (spec/20_memory.md R37 to R39). -/
theorem accessRefusal_none {s : State} {bits off : Nat} :
    accessRefusal s bits off = none ↔
      (off < bufBase ∧ bits = 32 ∧ off % 4 = 0) ∨
      (bufBase ≤ off ∧ (bits = 8 ∨ bits = 16 ∨ bits = 32) ∧ off + bits / 8 ≤ bufBase + s.params.bufSize ∧
        (off - bufBase) % (bits / 8) = 0) := by
  simp only [accessRefusal]
  repeat' split
  all_goals simp_all
  all_goals omega

/-- What a request can be: a command word, a state in which the parameters stand, or a refusal. -/
theorem request_done {s t : State} {i : Input} (h : request s i = .done t) :
    (i = .hardReset ∧ t = s.hardReset) ∨
    (∃ bits off, i = .read bits off ∧ accessRefusal s bits off = none ∧
      t = { s with readData := some (s.hostRead bits off) }) ∨
    (∃ bits off w, i = .write bits off w ∧ accessRefusal s bits off = none ∧ off ≠ Reg.cmd.offset ∧
      t = s.hostWrite bits off w) := by
  cases i with
  | hardReset => cases h; exact .inl ⟨rfl, rfl⟩
  | secondMaster => cases h
  | read bits off =>
    simp only [request] at h
    split at h
    · cases h
    · cases h; exact .inr (.inl ⟨bits, off, rfl, by assumption, rfl⟩)
  | write bits off w =>
    simp only [request] at h
    split at h
    · cases h
    · split at h
      · cases h
      · cases h; exact .inr (.inr ⟨bits, off, w, rfl, by assumption, by assumption, rfl⟩)

/-- The one input that asks for a command: a 32-bit write to CMD (spec/10_state.md R20, spec/20_memory.md R38). -/
theorem request_command {s : State} {i : Input} {w : Word} (h : request s i = .command w) : i = .write 32 0 w := by
  cases i with
  | hardReset => cases h
  | secondMaster => cases h
  | read bits off => simp only [request] at h; split at h <;> cases h
  | write bits off v =>
    simp only [request] at h
    split at h
    · cases h
    · split at h
      · rename_i hn ho
        cases h
        have := accessRefusal_none.mp hn
        simp only [Reg.offset, bufBase] at ho this
        obtain rfl : bits = 32 := by omega
        rw [ho]
      · cases h

/-- What one step can answer: an idle block, a command run to its end, or an input done. -/
theorem step_next {s t : State} (h : step s = .next t) :
    (s.pending = [] ∧ t = s) ∨
    (∃ i rest w, s.pending = i :: rest ∧ request (s.taken rest) i = .command w ∧ issue (s.taken rest) w = .next t) ∨
    (∃ i rest, s.pending = i :: rest ∧ request (s.taken rest) i = .done t) := by
  simp only [step] at h
  split at h
  · rename_i hp; cases h; exact .inl ⟨hp, rfl⟩
  · rename_i i rest hp
    split at h
    · rename_i w hw; exact .inr (.inl ⟨i, rest, w, hp, hw, h⟩)
    · rename_i s' hs; cases h; exact .inr (.inr ⟨i, rest, hp, hs⟩)
    · cases h

/-- What issuing a word can answer: the command's own answer, or the code of a word that is no command. -/
theorem issue_next {s t : State} {w : Word} (h : issue s w = .next t) :
    (∃ i, decode w = .ok i ∧ exec i s = .next t) ∨ (∃ e, decode w = .error e ∧ t = s.withErr (decodeErrorCode e)) := by
  simp only [issue] at h
  split at h
  · exact .inl ⟨_, by assumption, h⟩
  · exact .inr ⟨_, by assumption, raise_next.mp h⟩

@[simp] theorem length_bytesOfWord (n : Nat) (w : Word) : (bytesOfWord n w).length = n := by
  induction n generalizing w with
  | zero => rfl
  | succ n ih => simp [bytesOfWord, ih]

end Sys2Proof.Machine
end

