-- ==== Sys2Proof/Laws/Frame.lean ====
section
/-! SUPPORT. The lengths of what the block writes, and the bytes of a slice of the input: one lemma per function, so
that no proof unfolds a frame. -/

namespace Sys2Proof.Machine

@[simp] theorem length_vlqGroups (a : BitVec 28) (k : Nat) : (vlqGroups a k).length = k := by
  induction k with
  | zero => rfl
  | succ k ih => simp [vlqGroups, ih]

/-- The length of `Vlq(a)` (spec/42_hdlc.md R90). -/
theorem length_vlq (a : BitVec 28) : (vlq a).length = vlqLen a := length_vlqGroups a _

/-- `Vlq(a)` takes 1 to 4 bytes. -/
theorem vlqLen_bounds (a : BitVec 28) : 1 ≤ vlqLen a ∧ vlqLen a ≤ 4 := by
  unfold vlqLen; split_ifs <;> omega

@[simp] theorem length_checkSequence (P : Params) (fill : Bool) (bs : List Byte) :
    (checkSequence P fill bs).length = 2 := by
  unfold checkSequence; split <;> rfl

@[simp] theorem length_frameHeader (dst src : BitVec 28) (L : Nat) (c : Byte) :
    (frameHeader dst src L c).length = (vlq dst).length + (vlq src).length + 3 := by
  simp [frameHeader]; omega

/-- A short form occupies L + 2 bytes (spec/42_hdlc.md R89, R95). -/
theorem length_shortFrame (P : Params) (dst src : BitVec 28) (c : Byte) :
    (shortFrame P dst src c).length = shortLen dst src + 2 := by
  simp [shortFrame, shortLen]

@[simp] theorem length_infoBody (P : Params) (fill : Bool) (dst src : BitVec 28) (c : Byte) (payload : List Byte) :
    (infoBody P fill dst src c payload).length = (vlq dst).length + (vlq src).length + 5 + payload.length := by
  simp [infoBody]; omega

/-- An info form occupies L + 2 bytes (spec/42_hdlc.md R89, R95). -/
theorem length_infoFrame (P : Params) (fill : Bool) (dst src : BitVec 28) (c : Byte) (payload : List Byte) :
    (infoFrame P fill dst src c payload).length = infoLen dst src payload.length + 2 := by
  simp [infoFrame, infoLen]; omega

theorem length_dnp3Cut (P : Params) (k : Nat) (bs : List Byte) (h : k = dnp3Count bs.length) :
    (dnp3Cut P k bs).length = bs.length + 2 * k := by
  unfold dnp3Count at h
  induction k generalizing bs with
  | zero =>
    have : bs.length = 0 := by omega
    simp [dnp3Cut, this]
  | succ k ih =>
    simp only [dnp3Cut, List.length_append, length_le16]
    rw [ih _ (by simp; omega)]
    simp; omega

/-- The DNP3 layout of n bytes in k blocks takes n + 2k bytes (spec/41_checksum.md R86). -/
theorem length_dnp3Layout (P : Params) (bs : List Byte) :
    (dnp3Layout P bs).length = bs.length + 2 * dnp3Count bs.length := length_dnp3Cut P _ bs rfl

/-- The length of a slice that lies inside its sequence. -/
theorem length_slice (bs : List Byte) {i j : Nat} (h : j ≤ bs.length) : (slice bs i j).length = j - i := by
  simp [slice]; omega

/-- The bytes of a slice. -/
theorem getElem_slice (bs : List Byte) (i j k : Nat) (h : k < (slice bs i j).length) :
    (slice bs i j)[k] = byteAt bs (i + k) := by
  have hk : k < (bs.drop i).length := by simp [slice] at h; simp; omega
  simp only [slice, List.getElem_take, List.getElem_drop, byteAt]
  rw [List.getD_eq_getElem _ _ (by simp at hk; omega)]

/-- A byte of a range that was read. -/
theorem State.byteAt_memRead (s : State) (a n i : Nat) (h : i < n) : byteAt (s.memRead a n) i = s.bufByte (a + i) := by
  rw [byteAt, List.getD_eq_getElem _ _ (by simpa using h), State.getElem_memRead]

end Sys2Proof.Machine
end

