-- ==== Sys2Proof/Laws/PerInstr.lean ====
section
/-! SUPPORT. The family `TableRow`: every command's word matches its row of the opcode table
(spec/30_encoding.md R55: match = OPC, the allowed fields masked out). -/

namespace Sys2Proof.Laws

/-- The word of the command matches its row: its masked bits are the row's `match`. -/
def TableRow.Statement (i : Instr) : Prop := encode i &&& i.opcode.tableMask = i.opcode.tableMatch

theorem TableRow.nop : TableRow.Statement .nop := by simp only [TableRow.Statement]; decide
theorem TableRow.crcInit (var : BitVec 2) : TableRow.Statement (.crcInit var) := by
  simp only [TableRow.Statement]; revert var; decide
theorem TableRow.crcUpdate : TableRow.Statement .crcUpdate := by simp only [TableRow.Statement]; decide
theorem TableRow.crcByte (imm : Byte) : TableRow.Statement (.crcByte imm) := by
  simp only [TableRow.Statement]; revert imm; decide +kernel
theorem TableRow.crcCompute (var : BitVec 2) : TableRow.Statement (.crcCompute var) := by
  simp only [TableRow.Statement]; revert var; decide
theorem TableRow.crcStore : TableRow.Statement .crcStore := by simp only [TableRow.Statement]; decide
theorem TableRow.crcVerify (var : BitVec 2) : TableRow.Statement (.crcVerify var) := by
  simp only [TableRow.Statement]; revert var; decide
theorem TableRow.dnp3Blocks : TableRow.Statement .dnp3Blocks := by simp only [TableRow.Statement]; decide
theorem TableRow.hdlcReset : TableRow.Statement .hdlcReset := by simp only [TableRow.Statement]; decide
theorem TableRow.hdlcBuildSnrm : TableRow.Statement .hdlcBuildSnrm := by simp only [TableRow.Statement]; decide
theorem TableRow.hdlcSetConnected : TableRow.Statement .hdlcSetConnected := by
  simp only [TableRow.Statement]; decide
theorem TableRow.hdlcBuildIframe (final : Bool) : TableRow.Statement (.hdlcBuildIframe final) := by
  simp only [TableRow.Statement]; revert final; decide
theorem TableRow.hdlcParse : TableRow.Statement .hdlcParse := by simp only [TableRow.Statement]; decide

end Sys2Proof.Laws
end

