-- ==== Sys2Proof/Tests/Slice0.lean ====
section
/-! SUPPORT. Tests: the ill-formed commands, a word of every command written out from spec/30_encoding.md, the vectors
of spec/95_test_vectors.md one step at a time, and a witness of the hypotheses of every statement that has some. -/

namespace Sys2Proof.Tests

open Sys2Proof Sys2Proof.Machine

-- One test at a time: each kernel evaluation holds a thread while it waits.
set_option Elab.async false

/-! ### Helpers -/

/-- The next state, where there is one. -/
def after (r : Result) : Option State :=
  match r with
  | .next t => some t
  | .fault _ => none
  | .refused _ => none

theorem next_of_after {r : Result} {α : Type} {f : State → α} {x : α} (h : (after r).map f = some x) :
    ∃ t, r = .next t ∧ f t = x := by
  cases r with
  | next t => exact ⟨t, rfl, by simpa [after] using h⟩
  | fault e => simp [after] at h
  | refused e => simp [after] at h

/-- Why the step is refused, where it is. -/
def refusal (r : Result) : Option Refusal :=
  match r with
  | .refused e => some e
  | .next _ => none
  | .fault _ => none

/-- The state of the CRC vectors V18: data and its MODBUS CRC at 0x100, the destination right after the data. -/
def crcState0 : State :=
  { State.reset.memWrite 0x100 [0x01, 0x03, 0x00, 0x01, 0x00, 0x01, 0xD5, 0xCA] with
    srcAddr := 0x100, srcLen := 6, dstAddr := 0x106, dstCap := 2 }

/-- The session of the link vectors: server 1, client 0x10, payload `C0 01 C1` at 0x100, output at 0x300. -/
def session (l : LinkState) : State :=
  { State.reset.memWrite 0x100 [0xC0, 0x01, 0xC1] with
    link := l, serverAddr := 0x01, clientAddr := 0x10, srcAddr := 0x100, srcLen := 3, dstAddr := 0x300,
    dstCap := 64 }

/-- The SNRM frame of V23. -/
def snrmBytes : List Byte := [0x7E, 0xA0, 0x07, 0x03, 0x21, 0x93, 0x0F, 0x01, 0x7E]

/-- The I-frame of V24, with byte 6, byte 9 and byte 2 open for the broken ones of V29. -/
def iframeBytes (b2 b6 b9 : Byte) : List Byte :=
  [0x7E, 0xA0, b2, 0x03, 0x21, 0x01, b6, 0x76, 0xC0, b9, 0xC1, 0xB0, 0x0B, 0x7E]

/-- The parse state of V29: the input at 0x200, RX_CONSUMED = 0xAAAA, no reassembly buffer. -/
def parsing (l : LinkState) (bs : List Byte) : State :=
  { State.reset.memWrite 0x200 bs with
    link := l, srcAddr := 0x200, srcLen := BitVec.ofNat 32 bs.length, rxConsumed := 0xAAAA }

/-- The reassembly state of V30, with its capacity. -/
def reassembly (cap : Word) : State :=
  { parsing .connected (iframeBytes 0x0C 0x81 0x01) with reasmBase := 0x800, reasmCap := cap }

/-! ### Well-formedness, decoding, encoding -/

theorem test_wellFormed_refuses_var3 :
    (Instr.crcInit 3).wellFormed = false ∧ (Instr.crcCompute 3).wellFormed = false ∧
    (Instr.crcVerify 3).wellFormed = false := by decide

theorem test_wellFormed_accepts :
    (Instr.crcInit 2).wellFormed = true ∧ (Instr.crcCompute 2).wellFormed = true ∧
    (Instr.crcVerify 2).wellFormed = true ∧ (Instr.crcByte 0xFF).wellFormed = true ∧
    (Instr.hdlcBuildIframe true).wellFormed = true := by decide

/-- Words from the column OPC of R55 and the fields of R53. -/
theorem test_decode_checksum_words :
    decode 0x00000000 = .ok .nop ∧ decode 0x00000201 = .ok (.crcInit 2) ∧ decode 0x00000002 = .ok .crcUpdate ∧
    decode 0x00350003 = .ok (.crcByte 0x35) ∧ decode 0x00000104 = .ok (.crcCompute 1) ∧
    decode 0x00000005 = .ok .crcStore ∧ decode 0x00000206 = .ok (.crcVerify 2) ∧
    decode 0x00000007 = .ok .dnp3Blocks := by decide

theorem test_decode_link_words :
    decode 0x00000010 = .ok .hdlcReset ∧ decode 0x00000011 = .ok .hdlcBuildSnrm ∧
    decode 0x00000012 = .ok .hdlcSetConnected ∧ decode 0x00000413 = .ok (.hdlcBuildIframe true) ∧
    decode 0x00000013 = .ok (.hdlcBuildIframe false) ∧ decode 0x00000014 = .ok .hdlcParse := by decide

/-- V20, the words that are no command. -/
theorem test_decode_rejects :
    decode 0x00000100 = .error .invalidArg ∧ decode 0x00000008 = .error .notSupported ∧
    decode 0x00000108 = .error .notSupported ∧ decode 0x000000FF = .error .notSupported ∧
    decode 0x00000301 = .error .invalidArg ∧ decode 0x00000311 = .error .invalidArg ∧
    decode 0x00000803 = .error .invalidArg ∧ decode 0x01000003 = .error .invalidArg ∧
    decode 0x00010013 = .error .invalidArg ∧ decode 0x00000015 = .error .notSupported := by decide

/-- The words of R61's list. -/
theorem test_encode_words :
    encode (.crcInit 1) = 0x00000101 ∧ encode (.crcByte 0xFF) = 0x00FF0003 ∧
    encode (.hdlcBuildIframe true) = 0x00000413 ∧ encode .hdlcParse = 0x00000014 := by decide

theorem test_decodeTableWord :
    decodeTableWord 32 0x413 = some (.hdlcBuildIframe true) ∧ decodeTableWord 32 0x100 = none := by decide

theorem test_step_runs_fetched_word :
    (after (step (State.reset.withFetchWord 32 0x00010003))).map (·.crcState) = some 0x807E := by decide +kernel

theorem test_step_of_reserved_word :
    (after (step (State.reset.withFetchWord 32 0x00000108))).map (·.err) = some .notSupported := by decide +kernel

/-! ### CRC algorithms (V10 to V17) -/

theorem test_crc_check_values :
    crc Config.vectorParams .modbus [0x31, 0x32, 0x33, 0x34, 0x35, 0x36, 0x37, 0x38, 0x39] = 0x4B37 ∧
    crc Config.vectorParams .ccitt [0x31, 0x32, 0x33, 0x34, 0x35, 0x36, 0x37, 0x38, 0x39] = 0x906E ∧
    crc Config.vectorParams .dnp3 [0x31, 0x32, 0x33, 0x34, 0x35, 0x36, 0x37, 0x38, 0x39] = 0xEA82 := by
  decide +kernel

theorem test_crc_steps :
    crcStep .modbus 0xFFFF 0x01 = 0x807E ∧ crcStep .ccitt 0xFFFF 0xA0 = 0xAA8D ∧
    crcStep .dnp3 0x0000 0x05 = 0xEF26 := by decide +kernel

theorem test_crc_one_byte :
    crc Config.vectorParams .modbus [0x00] = 0x40BF ∧ crc Config.vectorParams .ccitt [0xFF] = 0xFF00 ∧
    crc Config.vectorParams .dnp3 [0xFF] = 0xEDCA ∧ crc Config.vectorParams .ccitt [] = 0x0000 := by decide +kernel

/-! ### Commands of the common and checksum families (V18, V19) -/

theorem test_nop_clears_err :
    (after (exec .nop { State.reset with err := .checksum, outLen := 9 })).map (fun t => (t.err, t.outLen)) =
      some (.ok, 9) := by decide

theorem test_crcInit_dnp3 :
    (after (exec (.crcInit 2) State.reset)).map (fun t => (t.crcVar, t.crcState, t.crcResult)) =
      some (.dnp3, 0x0000, 0xFFFF) := by decide +kernel

theorem test_crcInit_ccitt :
    (after (exec (.crcInit 1) State.reset)).map (fun t => (t.crcVar, t.crcState, t.crcResult)) =
      some (.ccitt, 0xFFFF, 0x0000) := by decide +kernel

theorem test_crcUpdate_three_bytes :
    (after (exec .crcUpdate { crcState0 with srcLen := 3 })).map (·.crcState) = some 0xF020 := by decide +kernel

theorem test_crcUpdate_no_wrap :
    (after (exec .crcUpdate { State.reset with srcAddr := 0xFFFFFFFF, srcLen := 2 })).map
      (fun t => (t.err, t.crcState)) = some (.outOfBounds, 0xFFFF) := by decide +kernel

theorem test_crcByte_dnp3_zero :
    (after (exec (.crcByte 0x00) { State.reset with crcVar := .dnp3, crcState := 0 })).map
      (fun t => (t.err, t.crcState)) = some (.ok, 0x0000) := by decide +kernel

theorem test_crcByte_modbus :
    (after (exec (.crcByte 0x01) State.reset)).map (·.crcState) = some 0x807E := by decide +kernel

theorem test_crcCompute_ccitt :
    (after (exec (.crcCompute 1) { crcState0 with crcVar := .dnp3, crcState := 0x5555 })).map
      (fun t => (t.crcVar, t.crcState, t.crcResult)) = some (.ccitt, 0x5AC2, 0xA53D) := by decide +kernel

theorem test_crcCompute_out_of_bounds :
    (after (exec (.crcCompute 0)
      { State.reset with srcAddr := 0x0FFE, srcLen := 3, crcVar := .dnp3, crcState := 0x5555 })).map
      (fun t => (t.err, t.crcVar, t.crcState)) = some (.outOfBounds, .dnp3, 0x5555) := by decide +kernel

theorem test_crcStore_ccitt :
    (after (exec .crcStore { crcState0 with crcVar := .ccitt, crcState := 0x5AC2, dstCap := 5 })).map
      (fun t => (t.memRead 0x106 2, t.outLen)) = some ([0x3D, 0xA5], 2) := by decide +kernel

theorem test_crcStore_too_small :
    (after (exec .crcStore { crcState0 with dstCap := 1, outLen := 9 })).map
      (fun t => (t.err, t.outLen, t.bufByte 0x105, t.bufByte 0x107)) =
      some (.bufferTooSmall, 9, 0x01, 0xCA) := by decide +kernel

theorem test_crcVerify_ok :
    (after (exec (.crcVerify 0) crcState0)).map (·.err) = some .ok := by decide +kernel

theorem test_crcVerify_empty_ccitt :
    (after (exec (.crcVerify 1)
      { State.reset.memWrite 0x100 [0xFF, 0xFF] with srcAddr := 0x100, crcState := 0x1234 })).map
      (fun t => (t.err, t.crcState)) = some (.checksum, 0x1234) := by decide +kernel

theorem test_dnp3Blocks_17_bytes :
    (after (exec .dnp3Blocks
      { State.reset.memWrite 0x100 ((List.range 17).map fun k => BitVec.ofNat 8 (k + 1)) with
        srcAddr := 0x100, srcLen := 17, dstAddr := 0x200, dstCap := 21 })).map
      (fun t => (t.outLen, t.memRead 0x20F 6)) = some (21, [0x10, 0xF2, 0xA5, 0x11, 0xCA, 0x7B]) := by
  decide +kernel

theorem test_dnp3Blocks_in_place :
    (after (exec .dnp3Blocks
      { State.reset.memWrite 0x100 [0x05, 0x64, 0x05, 0xC0, 0x01, 0x00, 0x00, 0x04] with
        srcAddr := 0x100, srcLen := 8, dstAddr := 0x101, dstCap := 10 })).map (fun t => t.memRead 0x101 10) =
      some [0x05, 0x64, 0x05, 0xC0, 0x01, 0x00, 0x00, 0x04, 0xE9, 0x21] := by decide +kernel

/-! ### Addresses and link commands (V9, V21 to V28) -/

theorem test_vlq :
    vlq 0x0 = [0x01] ∧ vlq 0x7F = [0xFF] ∧ vlq 0x80 = [0x02, 0x01] ∧ vlq 0x3FFF = [0xFE, 0xFF] ∧
    vlq 0x4000 = [0x02, 0x00, 0x01] ∧ vlq 0x1FFFFF = [0xFE, 0xFE, 0xFF] ∧
    vlq 0x200000 = [0x02, 0x00, 0x00, 0x01] := by decide +kernel

theorem test_vlqDecode :
    vlqDecode [0x00, 0x03] 0 2 = some (1, 2) ∧ vlqDecode [0x02, 0x02, 0x02, 0x02] 0 4 = none ∧
    vlqDecode [0x02, 0x02] 0 2 = none ∧ vlqDecode [0xFE, 0xFE, 0xFE, 0xFF] 0 4 = some (0xFFFFFFF, 4) := by
  decide +kernel

theorem test_iframeControl :
    iframeControl 0 0 true = 0x01 ∧ iframeControl 5 3 false = 0xA6 ∧ iframeControl 7 7 true = 0xEF := by decide

theorem test_hdlcReset :
    (after (exec .hdlcReset { session .connected with ns := 3, nr := 5, reasmFill := 40 })).map
      (fun t => (t.link, t.ns, t.nr, t.reasmFill, t.serverAddr)) = some (.disconnected, 0, 0, 0, 1) := by
  decide +kernel

theorem test_hdlcBuildSnrm :
    (after (exec .hdlcBuildSnrm { session .connected with ns := 3, nr := 5, reasmFill := 6 })).map
      (fun t => (t.memRead 0x300 9, t.outLen, t.link, t.ns, t.reasmFill)) =
      some (snrmBytes, 9, .connecting, 0, 0) := by decide +kernel

theorem test_hdlcBuildSnrm_long_addresses :
    (after (exec .hdlcBuildSnrm { session .disconnected with serverAddr := 0xFFFFFFF, clientAddr := 0xFFFFFFF })).map
      (fun t => t.memRead 0x300 15) =
      some [0x7E, 0xA0, 0x0D, 0xFE, 0xFE, 0xFE, 0xFF, 0xFE, 0xFE, 0xFE, 0xFF, 0x93, 0x5D, 0x06, 0x7E] := by
  decide +kernel

theorem test_hdlcSetConnected :
    (after (exec .hdlcSetConnected (session .connecting))).map (fun t => (t.err, t.link)) =
      some (.ok, .connected) := by decide +kernel

theorem test_hdlcSetConnected_twice :
    (after (exec .hdlcSetConnected (session .connected))).map (fun t => (t.err, t.link)) =
      some (.invalidState, .connected) := by decide +kernel

theorem test_hdlcBuildIframe_wraps_ns :
    (after (exec (.hdlcBuildIframe true) { session .connected with ns := 7, nr := 7 })).map
      (fun t => (t.memRead 0x300 14, t.outLen, t.ns)) =
      some ([0x7E, 0xA0, 0x0C, 0x03, 0x21, 0xEF, 0xF1, 0x78, 0xC0, 0x01, 0xC1, 0xB0, 0x0B, 0x7E], 14, 0) := by
  decide +kernel

theorem test_hdlcBuildIframe_placeholders :
    (after (exec (.hdlcBuildIframe false) { session .connected with ns := 3, fillCrc := false })).map
      (fun t => (t.memRead 0x304 10, t.ns)) =
      some ([0x21, 0x06, 0x00, 0x00, 0xC0, 0x01, 0xC1, 0x00, 0x00, 0x7E], 3) := by decide +kernel

/-! ### Parsing (V29, V30) -/

theorem test_hdlcParse_snrm :
    (after (exec .hdlcParse (parsing .connecting snrmBytes))).map
      (fun t => (t.err, t.rxFmt, t.rxDst, t.rxSrc, t.rxCtrl, t.rxPayAddr, t.rxPayLen, t.rxConsumed)) =
      some (.ok, 0xA007, 1, 0x10, 0x93, 0x208, 0, 8) := by decide +kernel

theorem test_hdlcParse_reassembles :
    (after (exec .hdlcParse (reassembly 4))).map
      (fun t => (t.memRead 0x800 3, t.reasmFill, t.reasmDone, t.nr, t.rxConsumed)) =
      some ([0xC0, 0x01, 0xC1], 3, true, 1, 13) := by decide +kernel

/-- The data stage on the rejected inputs of V29. -/
theorem test_parseFrame_rejects :
    parseFrame Config.vectorParams true (iframeBytes 0x0C 0x80 0x01) = .badCrc 1 ∧
    parseFrame Config.vectorParams true (iframeBytes 0x0C 0x81 0xFE) = .badCrc 1 ∧
    parseFrame Config.vectorParams true (iframeBytes 0x0B 0x81 0x01) = .invalid 1 ∧
    parseFrame Config.vectorParams true [0x7E, 0xA0, 0x06, 0x03, 0x21, 0x93, 0x00, 0x7E] = .invalid 1 ∧
    parseFrame Config.vectorParams true [0x7E, 0xA0, 0x08, 0x03, 0x21, 0x10, 0x00, 0x00, 0x00, 0x7E] = .invalid 1 ∧
    parseFrame Config.vectorParams true
      [0x7E, 0xA0, 0x0B, 0x02, 0x02, 0x02, 0x02, 0x21, 0x10, 0x00, 0x00, 0x00, 0x00, 0x7E] = .invalid 1 ∧
    parseFrame Config.vectorParams true [0x7E, 0x7E, 0x7E] = .incomplete := by decide +kernel

/-- The flag run of V29: payload offset 11 and consumed 16 from the first byte. -/
theorem test_parseFrame_skips_flags :
    parseFrame Config.vectorParams true ([0x00, 0x55, 0x7E] ++ iframeBytes 0x0C 0x81 0x01) =
      .frame { fmt := 0xA00C, dst := 1, src := 0x10, ctrl := 0x01, info := true, payOff := 11, payLen := 3,
               consumed := 16 } := by decide +kernel

/-! ### The host's window -/

theorem test_reset_memory_wf : State.reset.buf.wf = true := rfl

theorem test_status_word :
    (after (step { session .connected with err := .checksum, pending := [.read 32 0x004] })).map (·.readData) =
      some (some 0x28) := by decide +kernel

theorem test_cfg_write_of_three :
    (after (step { State.reset with crcVar := .ccitt, pending := [.write 32 0x020 3] })).map (·.crcVar) =
      some .ccitt := by decide +kernel

theorem test_buf_bytes_little_endian :
    (after (step { State.reset with pending := [.write 16 0x1FFE 0xBEEF] })).map (fun t => t.memRead 0xFFE 2) =
      some [0xEF, 0xBE] := by decide +kernel

theorem test_refusals :
    refusal (step { State.reset with pending := [.read 16 0x004] }) = some .accessWidth ∧
    refusal (step { State.reset with pending := [.write 32 0x1002 0] }) = some .misaligned ∧
    refusal (step { State.reset with pending := [.read 8 0x2000] }) = some .outsideWindow ∧
    refusal (step { State.reset with pending := [.secondMaster] }) = some .secondMaster := by decide +kernel

/-- A number in each base, capital and small letters alike, and a letter that is no digit of the base. -/
theorem test_number :
    number "4096".toList = some 4096 ∧ number "0xFFFF_beef".toList = some 0xFFFFBEEF ∧
    number "0x1g".toList = none ∧ number "1A".toList = none := by decide +kernel

/-- Lines of program P1, and a line that R61 does not have. -/
theorem test_script :
    readScript ["src 0x100, 6".toList, "cmd CRC_COMPUTE.MODBUS        ; word 0x0000_0004".toList,
      "wbytes 0x10: 01 CA".toList, "cmd HDLC_BUILD_IFRAME.F".toList] =
      some [.wr .srcAddr 0x100, .wr .srcLen 6, .cmd (.crcCompute 0), .wrb 0x10 0x01, .wrb 0x11 0xCA,
        .cmd (.hdlcBuildIframe true)] ∧
    readScript ["cmd NOP.MODBUS".toList] = none ∧ readScript ["cmd CRC_BYTE 256".toList] = none := by
  decide +kernel

/-! ### Witnesses: states and operands that meet the hypotheses of the statements, at the ends of their ranges -/

/-- A command ends with a code. -/
theorem ends {i : Instr} {s : State} {e : ResultCode} (h : (after (exec i s)).map (·.err) = some e) :
    ∃ t, exec i s = .next t ∧ t.err = e := next_of_after h

theorem test_witness_EncodeThenDecode :
    (Instr.crcVerify 2).wellFormed = true ∧ (Instr.hdlcBuildIframe true).wellFormed = true := by decide

theorem test_witness_DecodeThenEncode : decode 0x00FF0003 = .ok (.crcByte 0xFF) := by decide

/-- A reserved opcode, a bit outside the fields, VAR = 3, and VAR = 2. -/
theorem test_witness_DecodeStepsInOrder :
    (¬ ∃ op : Opcode, op.code = opcField 0x00000008) ∧
    (Opcode.nop.code = opcField 0x00000100 ∧
      0x00000100#32 &&& ~~~(0x000000FF#32 ||| Opcode.nop.allowed) ≠ 0) ∧
    (Opcode.crcInit.code = opcField 0x00000301 ∧
      0x00000301#32 &&& ~~~(0x000000FF#32 ||| Opcode.crcInit.allowed) = 0 ∧
      Opcode.crcInit.allowed = 0x00000300#32 ∧ varField 0x00000301 = 3) ∧
    (Opcode.crcInit.code = opcField 0x00000201 ∧
      0x00000201#32 &&& ~~~(0x000000FF#32 ||| Opcode.crcInit.allowed) = 0 ∧ varField 0x00000201 ≠ 3) ∧
    decode 0x00000008 = .error .notSupported ∧ decode 0x00000301 = .error .invalidArg ∧
    decode 0x00000201 = .ok (.crcInit 2) := by
  refine ⟨?_, by decide⟩
  rintro ⟨op, h⟩; revert h; cases op <;> decide

/-- For every opcode, its word with bit 31 set: the hypotheses of stage 1 in the statements of the commands. -/
theorem test_witness_OpcodeTableMatchAndMask :
    ∀ op ∈ [Opcode.nop, .crcInit, .crcUpdate, .crcByte, .crcCompute, .crcStore, .crcVerify, .dnp3Blocks, .hdlcReset,
        .hdlcBuildSnrm, .hdlcSetConnected, .hdlcBuildIframe, .hdlcParse],
      op.code = opcField (op.code.setWidth 32 ||| 0x80000000#32) ∧
      (op.code.setWidth 32 ||| 0x80000000#32) &&& op.tableMask ≠ op.tableMatch := by decide +kernel

theorem test_witness_StepRunsDecodedCommand :
    { State.reset with pending := [.write 32 0 0x00000101, .hardReset] }.pending =
      .write 32 0 0x00000101 :: [.hardReset] ∧ decode 0x00000101 = .ok (.crcInit 1) ∧
    0x00000101 < 2 ^ 32 ∧ decodeTableWord 32 0x00000101 = some (.crcInit 1) := by decide

theorem test_witness_StepOfRejectedWord :
    { State.reset with pending := [.write 32 0 0x00000100] }.pending = .write 32 0 0x00000100 :: [] ∧
    decode 0x00000100 = .error .invalidArg := by decide

theorem test_witness_NopOnlyClearsErr : opcField 0x80000000 = 0 ∧ (0x80000000 : Word) ≠ 0 := by decide

theorem test_witness_CrcLaws :
    Config.vectorParams.ccittInit = 0xFFFF ∧ Config.vectorParams.ccittXorOut = 0xFFFF := by decide

theorem test_witness_CrcInitLoadsInitialValue : ∃ t, exec (.crcInit CrcVar.dnp3.code) State.reset = .next t :=
  ⟨_, rfl⟩

/-- V18: the last range of BUF, and the first one past it. -/
theorem test_witness_CrcUpdateFoldsSource :
    (let s := { State.reset with srcAddr := 0x1000, srcLen := 0 }
     s.srcAddr.toNat + s.srcLen.toNat ≤ s.params.bufSize) ∧
    (let s := { State.reset with srcAddr := 0x1001, srcLen := 0 }
     s.params.bufSize < s.srcAddr.toNat + s.srcLen.toNat) := by decide

theorem test_witness_CrcComputeOneShot :
    (let s := { State.reset with srcAddr := 0x0FFE, srcLen := 2 }
     s.srcAddr.toNat + s.srcLen.toNat ≤ s.params.bufSize) ∧
    (let s := { State.reset with srcAddr := 0x0FFE, srcLen := 3 }
     s.params.bufSize < s.srcAddr.toNat + s.srcLen.toNat) := by decide

theorem test_witness_CrcUpdateSplits :
    (2 : Word).toNat + (4 : Word).toNat = crcState0.srcLen.toNat ∧
    crcState0.srcAddr.toNat + crcState0.srcLen.toNat ≤ crcState0.params.bufSize ∧
    crcState0.srcAddr.toNat + crcState0.srcLen.toNat < 2 ^ 32 := by decide

/-- The last two bytes of BUF, one more, and a capacity of one. -/
theorem test_witness_CrcStoreWritesResult :
    (let s := { State.reset with dstAddr := 0xFFE, dstCap := 2 }
     s.dstAddr.toNat + s.dstCap.toNat ≤ s.params.bufSize ∧ 2 ≤ s.dstCap.toNat) ∧
    (let s := { State.reset with dstAddr := 0xFFF, dstCap := 2 }
     s.params.bufSize < s.dstAddr.toNat + s.dstCap.toNat) ∧
    (let s := { State.reset with dstAddr := 0xFFF, dstCap := 1 }
     s.dstAddr.toNat + s.dstCap.toNat ≤ s.params.bufSize ∧ s.dstCap.toNat < 2) := by decide

theorem test_witness_CrcVerifyCompares :
    (let s := { State.reset with srcAddr := 0xFFE, srcLen := 0 }
     s.srcAddr.toNat + (s.srcLen.toNat + 2) ≤ s.params.bufSize) ∧
    (let s := { State.reset with srcAddr := 0xFFF, srcLen := 0 }
     s.params.bufSize < s.srcAddr.toNat + (s.srcLen.toNat + 2)) := by decide

theorem test_witness_StoredCrcVerifies :
    crcState0.dstAddr.toNat = crcState0.srcAddr.toNat + crcState0.srcLen.toNat ∧ 2 ≤ crcState0.dstCap.toNat ∧
    crcState0.dstAddr.toNat + crcState0.dstCap.toNat ≤ crcState0.params.bufSize := by decide

/-- V19, the row of 20 bytes: the exact capacity. -/
theorem test_witness_Dnp3BlocksLayout :
    let s := { State.reset with srcAddr := 0x100, srcLen := 20, dstAddr := 0x200, dstCap := 24 }
    s.srcAddr.toNat + s.srcLen.toNat ≤ s.params.bufSize ∧ s.dstAddr.toNat + s.dstCap.toNat ≤ s.params.bufSize ∧
    s.srcLen.toNat + 2 * ((s.srcLen.toNat + 15) / 16) ≤ s.dstCap.toNat := by decide

/-- V19: one byte too few; and each range past the end of BUF. -/
theorem test_witness_Dnp3BlocksFailures :
    (let s := { State.reset with srcAddr := 0x100, srcLen := 20, dstAddr := 0x200, dstCap := 23 }
     s.srcAddr.toNat + s.srcLen.toNat ≤ s.params.bufSize ∧ s.dstAddr.toNat + s.dstCap.toNat ≤ s.params.bufSize ∧
     s.dstCap.toNat < s.srcLen.toNat + 2 * ((s.srcLen.toNat + 15) / 16)) ∧
    (let s := { State.reset with srcAddr := 0xFFF, srcLen := 2 }
     s.params.bufSize < s.srcAddr.toNat + s.srcLen.toNat) ∧
    (let s := { State.reset with dstAddr := 0xFFF, dstCap := 2 }
     s.params.bufSize < s.dstAddr.toNat + s.dstCap.toNat) := by decide

theorem test_witness_VlqEncoding : (1 : Nat) ≤ 2 ∧ (0x80 : BitVec 28).toNat < 2 ^ (7 * 2) ∧ 1 < (vlq 0x80).length := by
  decide

/-- A minimal address inside a frame, a non-minimal one that ends on its fourth byte and the last one allowed, the same
one byte short of its limit, and four bytes without an end. -/
theorem test_witness_VlqRoundTrip :
    [0x7E, 0xA0, 0x0B].length + (vlq 0xFFFFFFF).length ≤ 7 ∧
    (let bs : List Byte := [0x00, 0x00, 0x02, 0x03]
     0 + 3 < 4 ∧ (∀ k, k < 3 → (byteAt bs (0 + k)).getLsbD 0 = false) ∧ (byteAt bs (0 + 3)).getLsbD 0 = true ∧
     vlqDecode bs 0 4 = some (129, 4) ∧
     (∀ j, j < 4 → 0 + j < 3 → (byteAt bs (0 + j)).getLsbD 0 = false) ∧ vlqDecode bs 0 3 = none) ∧
    (let bs : List Byte := [0x02, 0x02, 0x02, 0x02, 0x03]
     (∀ j, j < 4 → 0 + j < 5 → (byteAt bs (0 + j)).getLsbD 0 = false) ∧ vlqDecode bs 0 5 = none) := by
  decide +kernel

/-- The longest payload of one-byte addresses (V26, L = 2047). -/
theorem test_witness_InfoFrameParses :
    (∀ b ∈ ([0x00, 0x55] : List Byte), b ≠ 0x7E) ∧
    (vlq 0x01).length + (vlq 0x10).length + 7 + (List.replicate 2038 (0 : Byte)).length ≤ 2047 := by
  rw [List.length_replicate]; decide

theorem test_witness_ShortFrameParses : ∀ b ∈ ([0x00, 0x55] : List Byte), b ≠ 0x7E := by decide

theorem test_witness_AcceptedFrameCrcsMatch :
    (∃ f, parseFrame Config.vectorParams true snrmBytes = .frame f ∧ f.info = false) ∧
    (∃ f, parseFrame Config.vectorParams true (iframeBytes 0x0C 0x81 0x01) = .frame f ∧ f.info = true) := by
  refine ⟨⟨{ fmt := 0xA007, dst := 1, src := 0x10, ctrl := 0x93, info := false, payOff := 8, payLen := 0,
             consumed := 8 }, ?_⟩,
    ⟨{ fmt := 0xA00C, dst := 1, src := 0x10, ctrl := 0x01, info := true, payOff := 8, payLen := 3,
       consumed := 13 }, ?_⟩⟩ <;> decide +kernel

/-- V23: the exact capacity, one less, and a window past the end of BUF. -/
theorem test_witness_HdlcBuildSnrmWritesFrame :
    (∃ A B hdr : List Byte, A = vlq (session .connected).serverAddr ∧ B = vlq (session .connected).clientAddr ∧
      hdr = be16 (0xA000 ||| BitVec.ofNat 16 (A.length + B.length + 5)) ++ A ++ B ++ [0x93] ∧
      A.length + B.length + 7 = 9) ∧
    (let s := { session .connected with dstCap := 9 }
     s.dstAddr.toNat + s.dstCap.toNat ≤ s.params.bufSize ∧ 9 ≤ s.dstCap.toNat) ∧
    (let s := { session .connected with dstCap := 8 }
     s.dstAddr.toNat + s.dstCap.toNat ≤ s.params.bufSize ∧ s.dstCap.toNat < 9) ∧
    (let s := { session .connected with dstCap := 0xD01 }
     s.params.bufSize < s.dstAddr.toNat + s.dstCap.toNat) := by
  refine ⟨⟨_, _, _, rfl, rfl, rfl, by decide⟩, by decide⟩

theorem test_witness_HdlcSetConnected :
    (session .connecting).link = .connecting ∧ (session .connected).link ≠ .connecting ∧
    (session .disconnected).link ≠ .connecting := by decide

/-- V24, with the exact capacity. -/
theorem test_witness_HdlcBuildIframeWritesFrame :
    let s := { session .connected with dstCap := 14 }
    ∃ A B hdr body : List Byte, A = vlq s.serverAddr ∧ B = vlq s.clientAddr ∧
      hdr = be16 (0xA000 ||| BitVec.ofNat 16 (A.length + B.length + 7 + s.srcLen.toNat)) ++ A ++ B ++
        [BitVec.ofNat 8 (32 * s.nr.toNat + 2 * s.ns.toNat + if true then 1 else 0)] ∧
      body = hdr ++ (if s.fillCrc then le16 (crc s.params .ccitt hdr) else [0x00, 0x00]) ++
        s.memRead s.srcAddr.toNat s.srcLen.toNat ∧
      s.link = .connected ∧ s.srcAddr.toNat + s.srcLen.toNat ≤ s.params.bufSize ∧
      s.dstAddr.toNat + s.dstCap.toNat ≤ s.params.bufSize ∧ s.srcLen.toNat ≠ 0 ∧
      A.length + B.length + 7 + s.srcLen.toNat ≤ 2047 ∧
      A.length + B.length + 9 + s.srcLen.toNat ≤ s.dstCap.toNat :=
  ⟨_, _, _, _, rfl, rfl, rfl, rfl, rfl, by decide, by decide, by decide, by decide, by decide⟩

/-- V26: not Connected; a source range past the end; no payload; L = 2048; one byte too few. -/
theorem test_witness_HdlcBuildIframeFailures :
    (session .connecting).link ≠ .connected ∧
    (let s := { session .connected with srcAddr := 0xFFE }
     s.link = .connected ∧ s.params.bufSize < s.srcAddr.toNat + s.srcLen.toNat) ∧
    (let s := { session .connected with srcLen := 0 }
     s.link = .connected ∧ s.srcAddr.toNat + s.srcLen.toNat ≤ s.params.bufSize ∧
     s.dstAddr.toNat + s.dstCap.toNat ≤ s.params.bufSize ∧ s.srcLen.toNat = 0) ∧
    (let s := { session .connected with srcLen := 2039 }
     s.link = .connected ∧ s.srcAddr.toNat + s.srcLen.toNat ≤ s.params.bufSize ∧
     s.dstAddr.toNat + s.dstCap.toNat ≤ s.params.bufSize ∧
     2047 < (vlq s.serverAddr).length + (vlq s.clientAddr).length + 7 + s.srcLen.toNat) ∧
    (let s := { session .connected with dstCap := 13 }
     s.link = .connected ∧ s.srcAddr.toNat + s.srcLen.toNat ≤ s.params.bufSize ∧
     s.dstAddr.toNat + s.dstCap.toNat ≤ s.params.bufSize ∧ s.srcLen.toNat ≠ 0 ∧
     (vlq s.serverAddr).length + (vlq s.clientAddr).length + 7 + s.srcLen.toNat ≤ 2047 ∧
     s.dstCap.toNat < (vlq s.serverAddr).length + (vlq s.clientAddr).length + 7 + s.srcLen.toNat + 2) := by decide

/-- What the data stage reads from the V24 frame in any of the parse states above. -/
def v24Frame : RxFrame :=
  { fmt := 0xA00C, dst := 1, src := 0x10, ctrl := 0x01, info := true, payOff := 8, payLen := 3, consumed := 13 }

/-- V29 and V30: framing only, no reassembly buffer, and a payload that just fits. -/
theorem test_witness_HdlcParseAcceptsFrame :
    (∀ s ∈ [parsing .disconnected (iframeBytes 0x0C 0x81 0x01), parsing .connected (iframeBytes 0x0C 0x81 0x01),
        reassembly 3],
      s.srcAddr.toNat + s.srcLen.toNat ≤ s.params.bufSize ∧
      parseFrame s.params s.verifyCrc (s.memRead s.srcAddr.toNat s.srcLen.toNat) = .frame v24Frame) ∧
    (parsing .disconnected (iframeBytes 0x0C 0x81 0x01)).link ≠ .connected ∧
    ((parsing .connected (iframeBytes 0x0C 0x81 0x01)).link = .connected ∧ v24Frame.info = true ∧
      (parsing .connected (iframeBytes 0x0C 0x81 0x01)).reasmCap = 0) ∧
    ((reassembly 3).link = .connected ∧ (reassembly 3).reasmCap ≠ 0 ∧
      (reassembly 3).reasmBase.toNat + (reassembly 3).reasmCap.toNat ≤ (reassembly 3).params.bufSize ∧
      (if (reassembly 3).reasmDone then 0 else (reassembly 3).reasmFill.toNat) + v24Frame.payLen ≤
        (reassembly 3).reasmCap.toNat) := by decide +kernel

/-- V29 and V30: a source past the end, a region past the end, a region one byte too small. -/
theorem test_witness_HdlcParseFailures :
    (let s := { State.reset with srcAddr := 0xFF0, srcLen := 0x20 }
     s.params.bufSize < s.srcAddr.toNat + s.srcLen.toNat) ∧
    (let s := { reassembly 2 with reasmBase := 0xFFF }
     s.link = .connected ∧ s.reasmCap ≠ 0 ∧ s.params.bufSize < s.reasmBase.toNat + s.reasmCap.toNat) ∧
    (let s := reassembly 2
     s.srcAddr.toNat + s.srcLen.toNat ≤ s.params.bufSize ∧
     s.reasmBase.toNat + s.reasmCap.toNat ≤ s.params.bufSize ∧
     parseFrame s.params s.verifyCrc (s.memRead s.srcAddr.toNat s.srcLen.toNat) = .frame v24Frame ∧
     s.link = .connected ∧ v24Frame.info = true ∧ s.reasmCap ≠ 0 ∧
     s.reasmCap.toNat < (if s.reasmDone then 0 else s.reasmFill.toNat) + v24Frame.payLen) := by decide +kernel

/-- No flag, and a run of three flags with one byte after it. -/
theorem test_witness_HdlcParseIncomplete :
    (let s := parsing .connecting [0x00, 0x11, 0x22]
     s.srcAddr.toNat + s.srcLen.toNat ≤ s.params.bufSize ∧ s.link ≠ .connected ∧
     ∀ k, k < s.srcLen.toNat → s.bufByte (s.srcAddr.toNat + k) ≠ 0x7E) ∧
    (let s := parsing .connected [0x00, 0x7E, 0x7E, 0xA0]
     s.srcAddr.toNat + s.srcLen.toNat ≤ s.params.bufSize ∧ s.reasmCap = 0 ∧
     1 < 3 ∧ 3 ≤ s.srcLen.toNat ∧ s.srcLen.toNat < 3 + 2 ∧
     (∀ k, k < 1 → s.bufByte (s.srcAddr.toNat + k) ≠ 0x7E) ∧
     (∀ k, k < 3 → 1 ≤ k → s.bufByte (s.srcAddr.toNat + k) = 0x7E) ∧
     s.bufByte (s.srcAddr.toNat + 3) ≠ 0x7E) := by decide +kernel

/-- The broken frames of V29, one for each check, all with i = 0, p = 1: their bytes, L and the check that fails. -/
theorem test_witness_HdlcParseRejects :
    (∀ bs ∈ [iframeBytes 0x0C 0x80 0x01, iframeBytes 0x0B 0x81 0x01],
      let s := parsing .connected bs
      s.srcAddr.toNat + s.srcLen.toNat ≤ s.params.bufSize ∧ s.reasmCap = 0 ∧
      bs = s.memRead s.srcAddr.toNat s.srcLen.toNat ∧ 1 + 2 ≤ bs.length ∧ byteAt bs 0 = 0x7E ∧
      byteAt bs 1 ≠ 0x7E) ∧
    (byteAt [0x7E, 0xB0, 0x0C] 1).toNat / 16 ≠ 0xA ∧
    (256 * (0xA0 : Byte).toNat + (0x06 : Byte).toNat) % 2048 < 7 ∧
    (iframeBytes 0x0C 0x81 0x01).dropLast.length < 1 + 12 + 1 ∧
    (let bs := iframeBytes 0x0B 0x81 0x01
     11 = (256 * (byteAt bs 1).toNat + (byteAt bs 2).toNat) % 2048 ∧ 1 + 11 + 1 ≤ bs.length ∧
     byteAt bs (1 + 11) ≠ 0x7E) ∧
    vlqDecode [0x7E, 0xA0, 0x0B, 0x02, 0x02, 0x02, 0x02, 0x21, 0x10, 0x00, 0x00, 0x00, 0x00, 0x7E] 3 12 = none ∧
    (let bs : List Byte := [0x7E, 0xA0, 0x08, 0x03, 0x21, 0x10, 0x00, 0x00, 0x00, 0x7E]
     vlqDecode bs (1 + 2) (1 + 8) = some (1, 1) ∧ vlqDecode bs (1 + 2 + 1) (1 + 8) = some (0x10, 1) ∧
     5 = 2 + 1 + 1 + 1 ∧ 8 = 5 + 3) ∧
    (let bs := iframeBytes 0x0C 0x80 0x01
     vlqDecode bs (1 + 2) (1 + 12) = some (1, 1) ∧ vlqDecode bs (1 + 2 + 1) (1 + 12) = some (0x10, 1) ∧
     5 + 4 ≤ 12 ∧ crc Config.vectorParams .ccitt (slice bs 1 (1 + 5)) ≠ rdle16 bs (1 + 5)) ∧
    (let bs := iframeBytes 0x0C 0x81 0xFE
     crc Config.vectorParams .ccitt (slice bs 1 (1 + 12 - 2)) ≠ rdle16 bs (1 + 12 - 2)) := by decide +kernel

/-- A short form (L = h + 2) and an info form. -/
theorem test_witness_ParseFrameAccepts :
    (∀ x ∈ [(snrmBytes, 7), (iframeBytes 0x0C 0x81 0x01, 12)],
      byteAt x.1 0 = 0x7E ∧ (byteAt x.1 1).toNat / 16 = 0xA ∧
      x.2 = (256 * (byteAt x.1 1).toNat + (byteAt x.1 2).toNat) % 2048 ∧ 7 ≤ x.2 ∧ 1 + x.2 + 1 ≤ x.1.length ∧
      byteAt x.1 (1 + x.2) = 0x7E ∧ vlqDecode x.1 (1 + 2) (1 + x.2) = some (1, 1) ∧
      vlqDecode x.1 (1 + 2 + 1) (1 + x.2) = some (0x10, 1) ∧ 5 = 2 + 1 + 1 + 1 ∧
      crc Config.vectorParams .ccitt (slice x.1 1 (1 + 5)) = rdle16 x.1 (1 + 5)) ∧
    7 = 5 + 2 ∧ 5 + 4 ≤ 12 ∧
    crc Config.vectorParams .ccitt (slice (iframeBytes 0x0C 0x81 0x01) 1 (1 + 12 - 2)) =
      rdle16 (iframeBytes 0x0C 0x81 0x01) (1 + 12 - 2) := by decide +kernel

theorem test_witness_HdlcParseConsumed :
    (∃ t, exec .hdlcParse (parsing .connected snrmBytes) = .next t ∧ t.err = .ok) ∧
    (∃ t, exec .hdlcParse (parsing .connected (iframeBytes 0x0B 0x81 0x01)) = .next t ∧ t.err = .invalidFrame) ∧
    (∃ t, exec .hdlcParse (parsing .connected (iframeBytes 0x0C 0x80 0x01)) = .next t ∧ t.err = .checksum) ∧
    (∃ t, exec .hdlcParse (parsing .connected [0x7E]) = .next t ∧ t.err = .incompleteData) :=
  ⟨ends (by decide +kernel), ends (by decide +kernel), ends (by decide +kernel), ends (by decide +kernel)⟩

theorem test_witness_IframeLoopback :
    let s := { session .connected with dstCap := 14 }
    s.params.legal ∧ s.link = .connected ∧ s.fillCrc = true ∧ s.reasmCap = 0 ∧
    s.srcAddr.toNat + s.srcLen.toNat ≤ s.params.bufSize ∧ s.dstAddr.toNat + s.dstCap.toNat ≤ s.params.bufSize ∧
    s.srcLen.toNat ≠ 0 ∧ (vlq s.serverAddr).length + (vlq s.clientAddr).length + 7 + s.srcLen.toNat ≤ 2047 ∧
    (vlq s.serverAddr).length + (vlq s.clientAddr).length + 9 + s.srcLen.toNat ≤ s.dstCap.toNat := by decide

theorem test_witness_LinkStateTable :
    nextLink (session .connected).link (Instr.opcode .hdlcSetConnected) = none ∧
    (∃ t, exec .hdlcSetConnected (session .connected) = .next t ∧ t.err = .invalidState) ∧
    nextLink (session .connecting).link (Instr.opcode .hdlcSetConnected) = some .connected ∧
    (∃ t, exec .hdlcSetConnected (session .connecting) = .next t ∧ t.err = .ok) :=
  ⟨rfl, ends (by decide +kernel), rfl, ends (by decide +kernel)⟩

theorem test_witness_SequenceCounterRules :
    (∃ t, exec (.hdlcBuildIframe true) { session .connected with ns := 7 } = .next t ∧ t.err = .ok) ∧
    (∃ t, exec (.hdlcBuildIframe true) (session .connecting) = .next t ∧ t.err = .invalidState) ∧
    (∃ t, exec .hdlcReset (session .connected) = .next t ∧ t.err = .ok) ∧
    (∃ t, exec .hdlcParse { parsing .connected (iframeBytes 0x0C 0x81 0x01) with nr := 7 } = .next t ∧ t.err = .ok) ∧
    (let s := { parsing .connected (iframeBytes 0x0C 0x81 0x01) with nr := 7 }
     parseFrame s.params s.verifyCrc s.srcBytes = .frame v24Frame) :=
  ⟨ends (by decide +kernel), ends (by decide +kernel), ends (by decide +kernel), ends (by decide +kernel),
   by decide +kernel⟩

theorem test_witness_FailedCommandChangesOnlyErr :
    ∃ t, issue (parsing .connected (iframeBytes 0x0C 0x80 0x01)) 0x00000014 = .next t ∧ t.err = .checksum :=
  next_of_after (by decide +kernel)

/-- One command with the destination window, and HDLC_PARSE with the region's. -/
theorem test_witness_TooSmallSpoilsOnlyTheWindow :
    (∃ t, exec .crcStore { crcState0 with dstCap := 1 } = .next t ∧ t.err = .bufferTooSmall) ∧
    (0x106, 1) = spoiledWindow { crcState0 with dstCap := 1 } (Instr.opcode .crcStore) ∧
    (∃ t, exec .hdlcParse (reassembly 2) = .next t ∧ t.err = .bufferTooSmall) ∧
    (0x800, 2) = spoiledWindow (reassembly 2) (Instr.opcode .hdlcParse) :=
  ⟨ends (by decide +kernel), by decide +kernel, ends (by decide +kernel), by decide +kernel⟩

theorem test_witness_ResultCodeTable :
    (Instr.crcVerify 1).wellFormed = true ∧
    (∃ t, exec (.crcVerify 1) crcState0 = .next t ∧ t.err = .checksum) ∧ canEnd .crcVerify .checksum = true :=
  ⟨rfl, ends (by decide +kernel), rfl⟩

theorem test_witness_CommandsKeepHostRegisters : ∃ t, exec .crcUpdate crcState0 = .next t ∧ t.err = .ok :=
  ends (by decide +kernel)

theorem test_witness_CrcRegistersKept :
    (∃ t, exec (.crcVerify 1) crcState0 = .next t ∧ t.err = .checksum) ∧
    (∀ var, Instr.crcVerify 1 ≠ .crcInit var) ∧ Instr.crcVerify 1 ≠ .crcUpdate ∧
    (∀ imm, Instr.crcVerify 1 ≠ .crcByte imm) ∧ (∀ var, Instr.crcVerify 1 ≠ .crcCompute var) :=
  ⟨ends (by decide +kernel), by simp, by simp, by simp, by simp⟩

/-- The first and the last register of R19. -/
theorem test_witness_RegisterReads :
    { State.reset with pending := [.read 32 0] }.pending = .read 32 Reg.cmd.offset :: [] ∧
    { State.reset with pending := [.read 32 0x05C] }.pending = .read 32 Reg.rxConsumed.offset :: [] := by decide

theorem test_witness_RegisterWrites :
    { State.reset with pending := [.write 32 0x004 0xFFFFFFFF] }.pending =
      .write 32 Reg.status.offset 0xFFFFFFFF :: [] ∧ Reg.status ≠ .cmd ∧
    { State.reset with pending := [.write 32 0x03C 5] }.pending = .write 32 Reg.reasmCap.offset 5 :: [] := by decide

theorem test_witness_ReservedOffsetsReadZero :
    0x60 ≤ 0xFFC ∧ 0xFFC < 0x1000 ∧ 0xFFC % 4 = 0 ∧ 0x60 ≤ 0x60 ∧ 0x60 % 4 = 0 ∧
    { State.reset with pending := [.read 32 0xFFC] }.pending = .read 32 0xFFC :: [] ∧
    { State.reset with pending := [.write 32 0x60 7] }.pending = .write 32 0x60 7 :: [] := by decide

/-- The last byte, half-word and word of BUF. -/
theorem test_witness_BufHostReads :
    ({ State.reset with pending := [.read 8 (0x1000 + 4095)] }.pending = .read 8 (0x1000 + 4095) :: [] ∧
      4095 + 1 ≤ State.reset.params.bufSize) ∧
    ({ State.reset with pending := [.read 16 (0x1000 + 4094)] }.pending = .read 16 (0x1000 + 4094) :: [] ∧
      4094 + 2 ≤ State.reset.params.bufSize ∧ 4094 % 2 = 0) ∧
    ({ State.reset with pending := [.read 32 (0x1000 + 4092)] }.pending = .read 32 (0x1000 + 4092) :: [] ∧
      4092 + 4 ≤ State.reset.params.bufSize ∧ 4092 % 4 = 0) := by decide

theorem test_witness_BufHostWrites :
    { State.reset with pending := [.write (8 * 4) (0x1000 + 4092) 7] }.pending =
      .write (8 * 4) (0x1000 + 4092) 7 :: [] ∧
    4092 + 4 ≤ State.reset.params.bufSize ∧ 4092 % 4 = 0 := by decide

theorem test_witness_RefusedAccesses :
    { State.reset with pending := [.read 32 0x1FFE] }.pending = .read 32 0x1FFE :: [] ∧
    { State.reset with pending := [.secondMaster] }.pending = .secondMaster :: [] := by decide

theorem test_witness_HardResetResets :
    { session .connected with pending := [.hardReset] }.pending = .hardReset :: [] := by decide

/-- The smallest and the largest BUF_SIZE of R6. -/
theorem test_witness_InvAtReset :
    Params.legal { bufSize := 1, ccittInit := 0, ccittXorOut := 0 } ∧
    Params.legal { bufSize := 0xFFFFF000, ccittInit := 0xFFFF, ccittXorOut := 0 } := by decide

/-- Every field of the invariant, in a Connected session with counters, a filled region and a payload view. -/
theorem test_witness_StepKeepsInv :
    (let s := { parsing .connected (iframeBytes 0x0C 0x81 0x01) with
        ns := 3, nr := 5, reasmFill := 3, rxFmt := 0xA00C, rxPayAddr := 0x208, rxPayLen := 3, rxConsumed := 13,
        pending := [.write 32 0 0x00000014] }
     s.Inv) ∧
    (after (step { parsing .connected (iframeBytes 0x0C 0x81 0x01) with
      pending := [.write 32 0 0x00000014] })).isSome = true := by
  refine ⟨?_, by decide +kernel⟩
  constructor <;> decide +kernel

/-- A hardware reset, a command that ends in BufferTooSmall, and one that does not. -/
theorem test_witness_DrawsNeverReused :
    (after (step { session .connected with pending := [.hardReset] })).map (fun t => (t.bufDraw, t.draws)) =
      some (1, 2) ∧
    (after (step { crcState0 with dstCap := 1, pending := [.write 32 0 0x00000005] })).map
      (fun t => (t.err, t.bufDraw, t.draws)) = some (.bufferTooSmall, 0, 2) ∧
    (after (step { crcState0 with pending := [.write 32 0 0x00000005] })).map
      (fun t => (t.err, t.bufDraw, t.draws)) = some (.ok, 0, 1) := by decide +kernel

theorem test_witness_AssemblerSpellsLegalWords :
    assemble .crcByte none (some 255) = some (.crcByte 0xFF) ∧ assemble .crcByte none (some 256) = none ∧
    assemble .crcVerify (some "DNP3".toList) none = some (.crcVerify 2) ∧
    assemble .hdlcBuildIframe (some ['F']) none = some (.hdlcBuildIframe true) := by decide +kernel

theorem test_witness_EveryCommandEnds : (Instr.crcVerify 3).wellFormed = false := by decide

end Sys2Proof.Tests
end

/-! The register values after a hardware reset (spec/10_state.md R36): the packed and the derived registers first,
each a view of several fields, then all 24 registers. -/

namespace Sys2Proof.Machine

/-! ### The packed and derived registers at reset -/

/-- R21: ERR = Ok, LINK = Disconnected and REASM_DONE = 0, packed into STATUS. -/
@[simp] theorem State.resetWith_statusWord (P : Params) : (State.resetWith P).statusWord = 0#32 := by
  simp [State.statusWord, State.resetWith, ResultCode.code, LinkState.code]

/-- R23: both CTRL bits are set. -/
@[simp] theorem State.resetWith_ctrlWord (P : Params) : (State.resetWith P).ctrlWord = 3#32 := by
  simp [State.ctrlWord, State.resetWith]

/-- R29: NS = NR = 0, packed into SEQ. -/
@[simp] theorem State.resetWith_seqWord (P : Params) : (State.resetWith P).seqWord = 0#32 := by
  simp [State.seqWord, State.resetWith]

/-- R28: the variant at reset is MODBUS, whose final XOR is 0 whatever the CCITT parameters are, so CRC_RESULT
shows CRC_STATE itself. -/
@[simp] theorem State.resetWith_crcResult (P : Params) : (State.resetWith P).crcResult = 0xFFFF#16 := by
  calc (State.resetWith P).crcResult
      = 0xFFFF#16 ^^^ CrcVar.modbus.xorOut P := rfl
    _ = 0xFFFF#16 := BitVec.xor_zero

/-! ### All registers at reset -/

/-- Settles O55, by cases on the register: the packed and derived ones by their lemmas, and every other one reads a
single field (or nothing, CMD), whose reset value stands in `State.resetWith`. -/
theorem resetValues : Obligations.ResetValues := by
  intro P r
  cases r with
  | status => exact State.resetWith_statusWord P
  | ctrl => exact State.resetWith_ctrlWord P
  | seq => exact State.resetWith_seqWord P
  | crcResult => exact congrArg (BitVec.setWidth 32) (State.resetWith_crcResult P)
  | _ => rfl

end Sys2Proof.Machine

/-! Decoding (spec/30_encoding.md R55, R57): which opcode a low byte names, that the row's mask test and the test for
bits outside the allowed fields are the same test, one equation of `decode` per step of R57, and what issuing a word
does with the decoder's answer. -/

namespace Sys2Proof

/-! ### The opcode byte -/

/-- R55: no two rows share an opcode, so a byte names a row exactly when it is that row's OPC. -/
theorem Opcode.ofCode_eq_some {b : BitVec 8} {op : Opcode} : Opcode.ofCode b = some op ↔ op.code = b := by
  constructor
  · intro h
    unfold Opcode.ofCode at h
    split at h <;> cases h
    all_goals
      rename_i hb
      exact (BitVec.eq_of_toNat_eq hb).symm
  · rintro rfl
    cases op <;> rfl

/-- R58: a byte is reserved exactly when it is no row's OPC. -/
theorem Opcode.ofCode_eq_none {b : BitVec 8} : Opcode.ofCode b = none ↔ ¬ ∃ op : Opcode, op.code = b := by
  simp only [Option.eq_none_iff_forall_ne_some, ne_eq, Opcode.ofCode_eq_some, not_exists]

/-! ### Match and mask -/

/-- R53: no operand field reaches into OPC. -/
theorem Opcode.getLsbD_allowed_of_lt {i : Nat} (op : Opcode) (h : i < 8) : op.allowed.getLsbD i = false := by
  revert i
  cases op <;> decide

/-- The bits of a word outside OPC and the allowed fields are those where its masked bits differ from its low byte:
below bit 8 no field is masked out, and from bit 8 up the low byte has no bits. -/
theorem Opcode.strayBits_eq_xor (w : Word) (op : Opcode) :
    w &&& ~~~(0x000000FF#32 ||| op.allowed) = (w &&& op.tableMask) ^^^ (opcField w).setWidth 32 := by
  have hff (i : Nat) (hi : i < 32) : (0x000000FF#32).getLsbD i = decide (i < 8) := by
    revert i; decide
  have hones (i : Nat) (hi : i < 32) : (0xFFFFFFFF#32).getLsbD i = true := by
    revert i; decide
  ext i hi
  by_cases hlow : i < 8
  · simp [Opcode.tableMask, opcField, ← BitVec.getLsbD_eq_getElem, hff, hones, hi, hlow,
      op.getLsbD_allowed_of_lt hlow]
  · simp [Opcode.tableMask, opcField, ← BitVec.getLsbD_eq_getElem, hff, hones, hi, hlow]

/-- The row's mask test (R55) and step 2 of R57 are one test on a word of that opcode. -/
theorem Opcode.masked_eq_match_iff {w : Word} {op : Opcode} (hop : op.code = opcField w) :
    w &&& op.tableMask = op.tableMatch ↔ w &&& ~~~(0x000000FF#32 ||| op.allowed) = 0 := by
  rw [Opcode.strayBits_eq_xor, Opcode.tableMatch, hop]
  exact BitVec.xor_eq_zero_iff.symm

/-! ### The command of a word -/

/-- The command read from a word is of the opcode it was read for. -/
@[simp] theorem Opcode.opcode_instr (w : Word) (op : Opcode) : (op.instr w).opcode = op := by
  cases op <;> rfl

/-- Step 3 of R57: the command read from a word is well-formed unless VAR is allowed and is 3. -/
theorem Opcode.wellFormed_instr_iff {w : Word} {op : Opcode} :
    (op.instr w).wellFormed = true ↔ (op.allowed = 0x00000300#32 → varField w ≠ 3) := by
  cases op with
  | crcInit | crcCompute | crcVerify =>
    simp [Opcode.instr, Instr.wellFormed, legalVar, Opcode.allowed, varMask]
  | _ => simp [Opcode.instr, Instr.wellFormed, Opcode.allowed, finalMask, imm8Mask]

/-! ### The steps of R57 -/

/-- Step 1: the low byte is no opcode. -/
theorem decode_of_no_opcode {w : Word} (h : ¬ ∃ op : Opcode, op.code = opcField w) :
    decode w = .error .notSupported := by
  simp [decode, Opcode.ofCode_eq_none.mpr h]

/-- Steps 2 to 4, for a word whose opcode is known. -/
theorem decode_of_opcode {w : Word} {op : Opcode} (hop : op.code = opcField w) :
    decode w =
      if w &&& ~~~(0x000000FF#32 ||| op.allowed) ≠ 0 then .error .invalidArg
      else if (op.instr w).wellFormed then .ok (op.instr w)
      else .error .invalidArg := by
  simp [decode, Opcode.ofCode_eq_some.mpr hop]

/-- Step 2: a bit outside OPC and the allowed fields is set. -/
theorem decode_of_strayBits {w : Word} {op : Opcode} (hop : op.code = opcField w)
    (h : w &&& ~~~(0x000000FF#32 ||| op.allowed) ≠ 0) : decode w = .error .invalidArg := by
  rw [decode_of_opcode hop, if_pos h]

/-- Step 2, as the opcode table puts it: the masked bits differ from the row's match. -/
theorem decode_of_masked_ne_match {w : Word} {op : Opcode} (hop : op.code = opcField w)
    (h : w &&& op.tableMask ≠ op.tableMatch) : decode w = .error .invalidArg :=
  decode_of_strayBits hop (mt (Opcode.masked_eq_match_iff hop).mpr h)

/-- Step 3: VAR is allowed and is 3. -/
theorem decode_of_illegalVar {w : Word} {op : Opcode} (hop : op.code = opcField w)
    (hbits : w &&& ~~~(0x000000FF#32 ||| op.allowed) = 0) (hvar : op.allowed = 0x00000300#32)
    (h : varField w = 3) : decode w = .error .invalidArg := by
  have hwf : ¬ (op.instr w).wellFormed = true := fun hwf => Opcode.wellFormed_instr_iff.mp hwf hvar h
  rw [decode_of_opcode hop, if_neg (not_not.mpr hbits), if_neg hwf]

/-- Step 4: the word is the command its fields spell. -/
theorem decode_of_legal {w : Word} {op : Opcode} (hop : op.code = opcField w)
    (hbits : w &&& ~~~(0x000000FF#32 ||| op.allowed) = 0) (hvar : op.allowed = 0x00000300#32 → varField w ≠ 3) :
    decode w = .ok (op.instr w) := by
  rw [decode_of_opcode hop, if_neg (not_not.mpr hbits), if_pos (Opcode.wellFormed_instr_iff.mpr hvar)]

end Sys2Proof

namespace Sys2Proof.Machine

/-! ### Issuing a word -/

/-- A word that decodes runs its command. -/
theorem issue_of_decode_ok {w : Word} {i : Instr} (h : decode w = .ok i) (s : State) : issue s w = exec i s := by
  simp only [issue, h]

/-- A word that is no command writes its code to STATUS.ERR and nothing else (R57, R68). -/
theorem issue_of_decode_error {w : Word} {e : DecodeError} (h : decode w = .error e) (s : State) :
    issue s w = .next (s.withErr (decodeErrorCode e)) := by
  simp only [issue, h]
  exact raise_next.mpr rfl

/-! ### The opcode table and the decoding steps -/

/-- Settles O5: each step of R57 by its equation of `decode`, and the effect of a word by what `issue` does with the
decoder's answer. -/
theorem decodeStepsInOrder : Obligations.DecodeStepsInOrder := by
  refine ⟨fun w => decode_of_no_opcode, fun w op hop => ⟨?step2, ?step3, ?step4⟩, fun w s => ⟨?_, ?_, ?_⟩⟩
  case step2 => exact decode_of_strayBits hop
  case step3 => exact decode_of_illegalVar hop
  case step4 => exact fun hbits hvar => ⟨op.instr w, decode_of_legal hop hbits hvar, op.opcode_instr w⟩
  · exact fun h => issue_of_decode_error h s
  · exact fun h => issue_of_decode_error h s
  · exact fun i h => issue_of_decode_ok h s

/-- Settles O2: the constants row by row, and the rejected words by the mask test of step 2. -/
theorem opcodeTableMatchAndMask : Obligations.OpcodeTableMatchAndMask := by
  intro op
  refine ⟨rfl, ?mask, ?code, fun w => decode_of_masked_ne_match⟩
  case mask => cases op <;> decide
  case code => cases op <;> rfl

end Sys2Proof.Machine

/-! How a command ends (spec/40_common.md R65 to R69): the four ways, which of them each command takes, and what a
failed command word leaves behind. -/

namespace Sys2Proof.Machine

/-! ### NOP -/

/-- R55: NOP has no operand fields, so its mask takes the whole word. -/
theorem masked_nop (w : Word) : w &&& Opcode.nop.tableMask = w := BitVec.and_allOnes

/-- R72: a word with OPC = 0 and any other bit set is no command. -/
theorem decode_of_nop_opcode_ne_zero {w : Word} (hop : opcField w = 0) (hw : w ≠ 0) :
    decode w = .error .invalidArg := by
  apply decode_of_masked_ne_match (op := .nop) hop.symm
  rw [masked_nop]
  exact hw

/-- Settles O10: the word by its encoding and by the decoder's last step, any other word of the opcode by the mask
test, and the effect by what stage 7 writes. -/
theorem nopOnlyClearsErr : Obligations.NopOnlyClearsErr := by
  refine ⟨by decide, ?word, fun _ => decode_of_nop_opcode_ne_zero, fun s => complete_next.mpr rfl⟩
  case word => exact decode_of_legal (op := .nop) rfl rfl (by decide)

/-! ### The ways a command ends -/

/-- The four ways command `i` can end from `s`: it succeeds; it raises a code that spoils nothing; it is HDLC_PARSE,
which also reports how much input a bad frame takes; or its output does not fit, which spoils the window of R69. -/
inductive ExecEnds (i : Instr) (s : State) : Result → Prop where
  | completes (s' : State) : ExecEnds i s (complete s')
  | raises {e : ResultCode} (he : e ≠ .bufferTooSmall) : ExecEnds i s (raise s e)
  | rejects {e : ResultCode} (p : Nat) (hi : i = .hdlcParse) (he : e = .invalidFrame ∨ e = .checksum) :
      ExecEnds i s (raise (s.withConsumed p) e)
  | tooSmall : ExecEnds i s (raiseTooSmall s (spoiledWindow s i.opcode).1 (spoiledWindow s i.opcode).2)

/-! ### How each command ends -/

section
variable {i : Instr} {s : State} {r r' : Result} {c : Prop} [Decidable c]

theorem ExecEnds.ite (h : ExecEnds i s r) (h' : ExecEnds i s r') : ExecEnds i s (if c then r else r') := by
  split
  · exact h
  · exact h'

/-- A stage that checks one condition (R65): its own code where the check fails, and the later stages otherwise. -/
theorem ExecEnds.check {e : ResultCode} (h : ExecEnds i s r) (he : e ≠ .bufferTooSmall := by decide) :
    ExecEnds i s (if c then raise s e else r) := .ite (.raises he) h

end

section
variable (s : State)

theorem execCrcInit_ends (var : BitVec 2) : ExecEnds (.crcInit var) s (execCrcInit var s) := by
  unfold execCrcInit
  split
  · exact .raises (by decide)
  · exact .completes _

theorem execCrcUpdate_ends : ExecEnds .crcUpdate s (execCrcUpdate s) := .check (.completes _)

theorem execCrcCompute_ends (var : BitVec 2) : ExecEnds (.crcCompute var) s (execCrcCompute var s) := by
  unfold execCrcCompute
  split
  · exact .raises (by decide)
  · exact .check (.completes _)

theorem execCrcStore_ends : ExecEnds .crcStore s (execCrcStore s) := .check (.ite .tooSmall (.completes _))

theorem execCrcVerify_ends (var : BitVec 2) : ExecEnds (.crcVerify var) s (execCrcVerify var s) := by
  unfold execCrcVerify
  split
  · exact .raises (by decide)
  · exact .check (.check (.completes s))

theorem execDnp3Blocks_ends : ExecEnds .dnp3Blocks s (execDnp3Blocks s) :=
  .check (.check (.ite .tooSmall (.completes _)))

theorem execHdlcBuildSnrm_ends : ExecEnds .hdlcBuildSnrm s (execHdlcBuildSnrm s) :=
  .check (.ite .tooSmall (.completes _))

theorem execHdlcSetConnected_ends : ExecEnds .hdlcSetConnected s (execHdlcSetConnected s) := .check (.completes _)

/-- HDLC_BUILD_IFRAME: five checks of the link, the two ranges and the length, then the room for the output. -/
theorem execHdlcBuildIframe_ends (final : Bool) :
    ExecEnds (.hdlcBuildIframe final) s (execHdlcBuildIframe final s) :=
  .check (.check (.check (.check (.check (.ite .tooSmall (.ite (.completes _) (.completes _)))))))

/-- Stages 6 and 7 of HDLC_PARSE: the one failure is a payload that does not fit the reassembly region. -/
theorem acceptFrame_ends (bs : List Byte) (f : RxFrame) : ExecEnds .hdlcParse s (acceptFrame s bs f) :=
  .ite (.ite (.ite .tooSmall (.completes _)) (.completes _)) (.completes _)

theorem execHdlcParse_ends : ExecEnds .hdlcParse s (execHdlcParse s) := by
  refine .check (.check ?data)
  case data =>
    split
    · exact .raises (by decide)
    · exact .rejects _ rfl (.inl rfl)
    · exact .rejects _ rfl (.inr rfl)
    · exact acceptFrame_ends s _ _

/-- Every command ends in one of the four ways. -/
theorem exec_ends (i : Instr) : ExecEnds i s (exec i s) := by
  cases i with
  | nop => exact .completes s
  | crcInit var => exact execCrcInit_ends s var
  | crcUpdate => exact execCrcUpdate_ends s
  | crcByte imm => exact .completes _
  | crcCompute var => exact execCrcCompute_ends s var
  | crcStore => exact execCrcStore_ends s
  | crcVerify var => exact execCrcVerify_ends s var
  | dnp3Blocks => exact execDnp3Blocks_ends s
  | hdlcReset => exact .completes _
  | hdlcBuildSnrm => exact execHdlcBuildSnrm_ends s
  | hdlcSetConnected => exact execHdlcSetConnected_ends s
  | hdlcBuildIframe final => exact execHdlcBuildIframe_ends s final
  | hdlcParse => exact execHdlcParse_ends s

end

/-! ### What a failure leaves -/

/-- Outside the window of a BufferTooSmall failure every byte of BUF reads as before (R69). -/
theorem State.bufByte_unspecify_outside (s : State) {a n x : Nat} (h : x < a ∨ a + n ≤ x) :
    (s.unspecify a n).bufByte x = s.bufByte x :=
  State.bufByte_unwritten (State.unspecify_buf s a n) rfl (by simpa using h)

/-- The states a command that ends with a code other than Ok can leave. -/
theorem ExecEnds.failed {i : Instr} {s t : State} {r : Result} (h : ExecEnds i s r) (hr : r = .next t)
    (ht : t.err ≠ .ok) :
    (∃ e, e ≠ .bufferTooSmall ∧ t = s.withErr e) ∨
    (∃ p e, i = .hdlcParse ∧ (e = .invalidFrame ∨ e = .checksum) ∧ t = (s.withConsumed p).withErr e) ∨
    t = (s.unspecify (spoiledWindow s i.opcode).1 (spoiledWindow s i.opcode).2).withErr .bufferTooSmall := by
  cases h with
  | completes s' =>
    obtain rfl := complete_next.mp hr
    exact absurd rfl ht
  | raises he => exact .inl ⟨_, he, raise_next.mp hr⟩
  | rejects p hi he => exact .inr (.inl ⟨p, _, hi, he, raise_next.mp hr⟩)
  | tooSmall => exact .inr (.inr (raiseTooSmall_next.mp hr))

/-- The states a command word that ends with a code other than Ok can leave: one that is no command raises its code
like a command that spoils nothing. -/
theorem issue_failed {w : Word} {s t : State} (h : issue s w = .next t) (ht : t.err ≠ .ok) :
    (∃ e, e ≠ .bufferTooSmall ∧ t = s.withErr e) ∨
    (∃ p e, decode w = .ok .hdlcParse ∧ (e = .invalidFrame ∨ e = .checksum) ∧
      t = (s.withConsumed p).withErr e) ∨
    ∃ i, decode w = .ok i ∧
      t = (s.unspecify (spoiledWindow s i.opcode).1 (spoiledWindow s i.opcode).2).withErr .bufferTooSmall := by
  rcases issue_next h with ⟨i, hw, hexec⟩ | ⟨e, -, rfl⟩
  · rcases (exec_ends s i).failed hexec ht with hraise | ⟨p, e, rfl, he, hst⟩ | hst
    · exact .inl hraise
    · exact .inr (.inl ⟨p, e, hw, he, hst⟩)
    · exact .inr (.inr ⟨i, hw, hst⟩)
  · exact .inl ⟨_, by cases e <;> decide, rfl⟩

/-- Settles O44, by the states a failed word can leave. -/
theorem failedCommandChangesOnlyErr : Obligations.FailedCommandChangesOnlyErr := by
  intro w s t h ht
  rcases issue_failed h ht with ⟨e, he, rfl⟩ | ⟨p, e, hw, he, rfl⟩ | ⟨i, hw, rfl⟩
  · exact ⟨rfl, .inl rfl, fun _ a => s.bufByte_withErr e a, fun hsmall => absurd hsmall he⟩
  · refine ⟨rfl, .inr ⟨hw, he⟩, fun _ a => by simp, fun hsmall => ?_⟩
    rcases he with rfl | rfl <;> cases hsmall
  · refine ⟨rfl, .inl rfl, fun hother => absurd rfl hother, fun _ => ⟨i, hw, fun a ha => ?_⟩⟩
    rw [State.bufByte_withErr, State.bufByte_unspecify_outside s ha]

end Sys2Proof.Machine

/-! The checksum family (spec/41_checksum.md R73 to R87): the CRC algorithms, the bytes the commands read and write,
one equation of `exec` per branch of each command, and the DNP3 layout block by block. -/

namespace Sys2Proof.Machine

/-! ### The CRC algorithms -/

/-- R74: the loop of CrcStep is the shift, iterated. -/
theorem crcShifts_eq_iterate (poly : BitVec 16) (k : Nat) (c : BitVec 16) :
    crcShifts poly k c = (crcShift poly)^[k] c := by
  induction k generalizing c with
  | zero => rfl
  | succ k ih => exact ih (crcShift poly c)

/-- Settles O11: the parameters, the fold and the one-shot CRC are the definitions' equations, and the eight shifts
of a byte are an iteration. -/
theorem crcAlgorithm : Obligations.CrcAlgorithm := by
  refine ⟨⟨rfl, rfl, rfl⟩, fun P => ⟨rfl, rfl, rfl⟩, fun P => ⟨rfl, rfl, rfl⟩, fun v c b => ?step,
    fun v c => rfl, fun v c b bs => rfl, fun P v bs => rfl⟩
  case step => exact crcShifts_eq_iterate v.poly 8 (c ^^^ b.setWidth 16)

/-- The MODBUS CRC does not depend on the CCITT parameters (R73). -/
theorem crc_modbus (P : Params) (bs : List Byte) : crc P .modbus bs = crcFold .modbus 0xFFFF bs :=
  BitVec.xor_zero

/-- The DNP3 CRC does not depend on the CCITT parameters (R73). -/
theorem crc_dnp3 (P : Params) (bs : List Byte) : crc P .dnp3 bs = crcFold .dnp3 0x0000 bs ^^^ 0xFFFF := rfl

/-- Settles O13: the MODBUS and DNP3 CRCs take no parameter, so each value is one closed computation. -/
theorem crcCheckValues : Obligations.CrcCheckValues := by
  refine ⟨fun P => ⟨?_, ?_, ?_⟩, by decide +kernel, by decide⟩
  · rw [crc_modbus]; decide +kernel
  · rw [crc_dnp3]; decide +kernel
  · rw [crc_modbus]; decide +kernel

/-! ### Byte order -/

/-- A high byte shifted over a low byte is the two put side by side. -/
theorem or_shiftLeft_eq_append (lo hi : Byte) : lo.setWidth 16 ||| (hi.setWidth 16 <<< 8) = hi ++ lo := by
  ext i hi
  rw [BitVec.getElem_append]
  split
  · next h => simp [h]
  · next h => simp [h, show i - 8 < 8 by omega, BitVec.getLsbD_of_ge lo i (by omega)]

/-- `le16` as R10 writes it: the low byte, then the value shifted down by 8. -/
theorem le16_eq (v : BitVec 16) : le16 v = [v.setWidth 8, (v >>> 8).setWidth 8] := by
  have hshift (k : Nat) : v.extractLsb' k 8 = (v >>> k).setWidth 8 := by ext; simp
  rw [le16, hshift 0, hshift 8, BitVec.ushiftRight_zero]

/-- Two bytes of BUF read low byte first. -/
theorem State.rdle16_memRead (s : State) (a : Nat) :
    rdle16 (s.memRead a 2) 0 = s.bufByte (a + 1) ++ s.bufByte a :=
  or_shiftLeft_eq_append _ _

/-- Two bytes of BUF that hold `le16 v` are the halves of `v`. -/
theorem State.append_bufByte_of_le16 {s : State} {a : Nat} {v : BitVec 16} (h : s.memRead a 2 = le16 v) :
    s.bufByte (a + 1) ++ s.bufByte a = v := by
  rw [← s.rdle16_memRead, h]
  exact rdle16_le16 [] [] v

/-! ### Parts of a range -/

/-- The bytes of a range from its `k`-th on. -/
theorem State.drop_memRead (s : State) (a : Nat) {k n : Nat} (h : k ≤ n) :
    (s.memRead a n).drop k = s.memRead (a + k) (n - k) := by
  obtain ⟨m, rfl⟩ := Nat.exists_eq_add_of_le h
  rw [s.memRead_add, List.drop_left' (s.length_memRead a k), Nat.add_sub_cancel_left]

/-- The first `k` bytes of a range, or all of them. -/
theorem State.take_memRead (s : State) (a k n : Nat) : (s.memRead a n).take k = s.memRead a (min k n) := by
  rcases Nat.le_total k n with h | h
  · obtain ⟨m, rfl⟩ := Nat.exists_eq_add_of_le h
    rw [s.memRead_add, List.take_left' (s.length_memRead a k), Nat.min_eq_left h]
  · rw [List.take_of_length_le (by simpa using h), Nat.min_eq_right h]

/-- A part of a written range reads back. -/
theorem State.memRead_written_part {s t : State} {a k : Nat} {bs xs : List Byte}
    (ht : t.buf = s.buf.writeRange a bs) (h : xs <+: bs.drop k) : t.memRead (a + k) xs.length = xs := by
  apply List.ext_getElem (by simp)
  intro i _ hi
  have hlen := h.length_le
  rw [List.length_drop] at hlen
  rw [State.getElem_memRead, Nat.add_assoc, State.bufByte_written ht (by omega), h.getElem hi, List.getElem_drop]

/-- Ranges that read the same agree byte by byte. -/
theorem State.bufByte_of_memRead_eq {s t : State} {a b n i : Nat} (h : t.memRead a n = s.memRead b n) (hi : i < n) :
    t.bufByte (a + i) = s.bufByte (b + i) := by
  rw [← t.byteAt_memRead a n i hi, h, s.byteAt_memRead b n i hi]

/-! ### What the checksum commands write -/

/-- CRC_RESULT after a write of the CRC registers (spec/10_state.md R28). -/
@[simp] theorem State.crcResult_withCrc (s : State) (v : CrcVar) (c : BitVec 16) :
    (s.withCrc v c).crcResult = c ^^^ v.xorOut s.params := rfl

@[simp] theorem State.crcResult_withErr (s : State) (e : ResultCode) : (s.withErr e).crcResult = s.crcResult := rfl

/-- The bytes an output command writes read back from DST_ADDR up (spec/10_state.md R25). -/
theorem State.memRead_emit (s : State) (bs : List Byte) : (s.emit bs).memRead s.dstAddr.toNat bs.length = bs :=
  State.memRead_written (s.emit_buf bs)

/-- Outside its output an output command leaves BUF as it was. -/
theorem State.bufByte_emit_outside (s : State) {bs : List Byte} {x : Nat}
    (h : x < s.dstAddr.toNat ∨ s.dstAddr.toNat + bs.length ≤ x) : (s.emit bs).bufByte x = s.bufByte x :=
  State.bufByte_unwritten (s.emit_buf bs) (s.emit_bufDraw bs) h

/-! ### Words that are no command -/

/-- Stage 1 is the decoder's mask test, for every opcode. -/
theorem stageOneFails_all (op : Opcode) : stageOneFails op := fun _ s hop hbits =>
  issue_of_decode_error (decode_of_masked_ne_match hop.symm hbits) s

/-- A word whose only fault is VAR = 3 ends in InvalidArg (spec/30_encoding.md R57 step 3). -/
theorem issue_of_illegalVar {w : Word} {op : Opcode} (hop : op.code = opcField w)
    (hbits : w &&& ~~~(0x000000FF#32 ||| op.allowed) = 0) (hvar : op.allowed = 0x00000300#32)
    (h : varField w = 3) (s : State) : issue s w = .next (s.withErr .invalidArg) :=
  issue_of_decode_error (decode_of_illegalVar hop hbits hvar h) s

/-! ### The commands, branch by branch -/

section
variable (s : State)

/-- R80. -/
theorem exec_crcInit (v : CrcVar) :
    exec (.crcInit v.code) s = .next ((s.withCrc v (v.init s.params)).withErr .ok) := by
  simp only [exec, execCrcInit, selectVar_code, complete]

/-- R81, the range in BUF. -/
theorem exec_crcUpdate_of_inRange (h : s.srcInRange) :
    exec .crcUpdate s =
      .next ((s.withCrc s.crcVar (crcFold s.crcVar s.crcState s.srcBytes)).withErr .ok) :=
  if_neg (not_not.mpr h)

/-- R81, stage 3. -/
theorem exec_crcUpdate_of_outOfBounds (h : ¬ s.srcInRange) :
    exec .crcUpdate s = .next (s.withErr .outOfBounds) :=
  if_pos h

/-- R82. -/
theorem exec_crcByte (imm : Byte) :
    exec (.crcByte imm) s = .next ((s.withCrc s.crcVar (crcStep s.crcVar s.crcState imm)).withErr .ok) := rfl

/-- R83, the range in BUF. -/
theorem exec_crcCompute_of_inRange (v : CrcVar) (h : s.srcInRange) :
    exec (.crcCompute v.code) s =
      .next ((s.withCrc v (crcFold v (v.init s.params) s.srcBytes)).withErr .ok) := by
  simp only [exec, execCrcCompute, selectVar_code, if_neg (not_not.mpr h), complete]

/-- R83, stage 3. -/
theorem exec_crcCompute_of_outOfBounds (v : CrcVar) (h : ¬ s.srcInRange) :
    exec (.crcCompute v.code) s = .next (s.withErr .outOfBounds) := by
  simp only [exec, execCrcCompute, selectVar_code, if_pos h, raise]

/-- R84, stage 3. -/
theorem exec_crcStore_of_outOfBounds (h : ¬ s.dstInRange) :
    exec .crcStore s = .next (s.withErr .outOfBounds) :=
  if_pos h

/-- R84, stage 6. -/
theorem exec_crcStore_of_tooSmall (h : s.dstInRange) (hcap : s.dstCap.toNat < 2) :
    exec .crcStore s = .next ((s.unspecify s.dstAddr.toNat s.dstCap.toNat).withErr .bufferTooSmall) :=
  (if_neg (not_not.mpr h)).trans (if_pos hcap)

/-- R84, the output fits. -/
theorem exec_crcStore_of_fits (h : s.dstInRange) (hcap : 2 ≤ s.dstCap.toNat) :
    exec .crcStore s = .next ((s.emit (le16 s.crcResult)).withErr .ok) :=
  (if_neg (not_not.mpr h)).trans (if_neg (Nat.not_lt.mpr hcap))

/-- R85, stage 3. -/
theorem exec_crcVerify_of_outOfBounds (v : CrcVar) (h : ¬ s.inRange s.srcAddr.toNat (s.srcLen.toNat + 2)) :
    exec (.crcVerify v.code) s = .next (s.withErr .outOfBounds) := by
  simp only [exec, execCrcVerify, selectVar_code, if_pos h, raise]

/-- R85, the range and the two bytes after it in BUF: the comparison decides the code. -/
theorem exec_crcVerify_of_inRange (v : CrcVar) (h : s.inRange s.srcAddr.toNat (s.srcLen.toNat + 2)) :
    exec (.crcVerify v.code) s =
      .next (s.withErr (if crc s.params v s.srcBytes = s.storedCrc then .ok else .checksum)) := by
  simp only [exec, execCrcVerify, selectVar_code, if_neg (not_not.mpr h), complete, raise, ite_not]
  split <;> rfl

/-- R87, both ranges in BUF and the output fits. -/
theorem exec_dnp3Blocks_of_fits (hsrc : s.srcInRange) (hdst : s.dstInRange)
    (hcap : s.srcLen.toNat + 2 * dnp3Count s.srcLen.toNat ≤ s.dstCap.toNat) :
    exec .dnp3Blocks s = .next ((s.emit (dnp3Layout s.params s.srcBytes)).withErr .ok) :=
  (if_neg (not_not.mpr hsrc)).trans ((if_neg (not_not.mpr hdst)).trans (if_neg (Nat.not_lt.mpr hcap)))

end

/-! ### CRC_INIT, CRC_UPDATE, CRC_BYTE, CRC_COMPUTE -/

/-- Settles O14, by the equation of CRC_INIT at each variant's code. -/
theorem crcInitLoadsInitialValue : Obligations.CrcInitLoadsInitialValue := by
  refine ⟨by decide, stageOneFails_all .crcInit, fun s => ⟨?modbus, ?ccitt, ?dnp3, ?illegal, fun v t ht => ?result⟩⟩
  case modbus => exact exec_crcInit s .modbus
  case ccitt => exact exec_crcInit s .ccitt
  case dnp3 => exact exec_crcInit s .dnp3
  case illegal => exact issue_of_illegalVar (op := .crcInit) rfl rfl rfl rfl s
  case result =>
    rw [exec_crcInit, Host.Outcome.next.injEq] at ht
    rw [← ht, State.crcResult_withErr, State.crcResult_withCrc]

/-- Settles O15, by the two branches of CRC_UPDATE. -/
theorem crcUpdateFoldsSource : Obligations.CrcUpdateFoldsSource :=
  ⟨by decide, stageOneFails_all .crcUpdate, fun s =>
    ⟨exec_crcUpdate_of_inRange s, fun h => exec_crcUpdate_of_outOfBounds s (Nat.not_le.mpr h)⟩⟩

/-- The word of CRC_BYTE: its opcode and the immediate at bit 16 (R82). -/
theorem encode_crcByte (imm : Byte) : encode (.crcByte imm) = 0x03#32 ||| (imm.setWidth 32 <<< 16) := rfl

/-- OPC and IMM8 do not overlap (R53): each reads back from a word made of the two. -/
theorem opcField_or_imm8 (opc imm : Byte) : opcField (opc.setWidth 32 ||| (imm.setWidth 32 <<< 16)) = opc := by
  ext i hi
  simp [opcField, hi, show i < 16 by omega, show i < 32 by omega]

theorem imm8Field_or_imm8 (opc imm : Byte) : imm8Field (opc.setWidth 32 ||| (imm.setWidth 32 <<< 16)) = imm := by
  ext i hi
  simp [imm8Field, hi, show 16 + i < 32 by omega, BitVec.getLsbD_of_ge opc (16 + i) (by omega)]

/-- The word of CRC_BYTE decodes to it: its masked bits are its row's (R55), and it has no field VAR. -/
theorem decode_crcByte (imm : Byte) :
    decode (0x03#32 ||| (imm.setWidth 32 <<< 16)) = .ok (.crcByte imm) := by
  have hop : Opcode.crcByte.code = opcField (0x03#32 ||| (imm.setWidth 32 <<< 16)) := (opcField_or_imm8 0x03 imm).symm
  have hbits := (Opcode.masked_eq_match_iff hop).mp (Laws.TableRow.crcByte imm)
  have hvar : Opcode.crcByte.allowed ≠ 0x00000300#32 := by decide
  calc decode (0x03#32 ||| (imm.setWidth 32 <<< 16))
      = .ok (.crcByte (imm8Field (0x03#32 ||| (imm.setWidth 32 <<< 16)))) :=
        decode_of_legal hop hbits (absurd · hvar)
    _ = .ok (.crcByte imm) := congrArg (Except.ok ∘ Instr.crcByte) (imm8Field_or_imm8 0x03 imm)

/-- Settles O16, by the word's encoding and decoding and the equation of CRC_BYTE. -/
theorem crcByteFoldsImmediate : Obligations.CrcByteFoldsImmediate :=
  ⟨stageOneFails_all .crcByte, fun imm => ⟨encode_crcByte imm, decode_crcByte imm, fun s => exec_crcByte s imm⟩⟩

/-- R83: CRC_INIT, then CRC_UPDATE over the source range, end in the state that CRC_COMPUTE ends in. -/
theorem exec_crcUpdate_after_crcInit (s : State) (v : CrcVar) (h : s.srcInRange) :
    exec .crcUpdate ((s.withCrc v (v.init s.params)).withErr .ok) = exec (.crcCompute v.code) s := by
  have hbytes : ((s.withCrc v (v.init s.params)).withErr .ok).srcBytes = s.srcBytes := by simp [State.srcBytes]
  have hrange : ((s.withCrc v (v.init s.params)).withErr .ok).srcInRange := h
  rw [exec_crcUpdate_of_inRange _ hrange, exec_crcCompute_of_inRange s v h, hbytes]
  rfl

/-- Settles O17, by the branches of CRC_COMPUTE and its agreement with the two commands. -/
theorem crcComputeOneShot : Obligations.CrcComputeOneShot := by
  refine ⟨by decide, stageOneFails_all .crcCompute, fun s => ⟨fun v h => ?fits, fun v h => ?outOfBounds,
    fun v h => ?twoCommands, ?illegal⟩⟩
  case fits => exact ⟨_, exec_crcCompute_of_inRange s v h, rfl, rfl⟩
  case outOfBounds => exact exec_crcCompute_of_outOfBounds s v (Nat.not_le.mpr h)
  case twoCommands =>
    have hcompute := exec_crcCompute_of_inRange s v h
    exact ⟨_, _, exec_crcInit s v, (exec_crcUpdate_after_crcInit s v h).trans hcompute, hcompute⟩
  case illegal => exact issue_of_illegalVar (op := .crcCompute) rfl rfl rfl rfl s

/-! ### CRC_STORE and CRC_VERIFY -/

/-- Settles O19, by the three branches of CRC_STORE: the window of a failure, and the two bytes of the output. -/
theorem crcStoreWritesResult : Obligations.CrcStoreWritesResult := by
  refine ⟨by decide, stageOneFails_all .crcStore, fun s => ⟨fun h => ?outOfBounds, fun h hcap => ?tooSmall,
    fun h hcap => ?fits⟩⟩
  case outOfBounds => exact exec_crcStore_of_outOfBounds s (Nat.not_le.mpr h)
  case tooSmall =>
    refine ⟨_, exec_crcStore_of_tooSmall s h hcap, rfl, fun a ha => ?_⟩
    rw [State.bufByte_withErr, State.bufByte_unspecify_outside s ha]
  case fits =>
    have hout : (s.emit (le16 s.crcResult)).memRead s.dstAddr.toNat 2 =
        [s.crcResult.setWidth 8, (s.crcResult >>> 8).setWidth 8] := by
      rw [← le16_eq]
      exact s.memRead_emit (le16 s.crcResult)
    obtain ⟨hlow, hhigh, -⟩ := List.cons.inj hout |>.imp_right List.cons.inj
    refine ⟨_, exec_crcStore_of_fits s h hcap, rfl, ?low, ?high, fun a ha => ?frame⟩
    case low => rw [State.bufByte_withErr, hlow]
    case high => rw [State.bufByte_withErr, hhigh]
    case frame => rw [State.bufByte_withErr, s.bufByte_emit_outside ha]

/-- Settles O20, by the two branches of CRC_VERIFY, the expected CRC being the two bytes side by side. -/
theorem crcVerifyCompares : Obligations.CrcVerifyCompares := by
  refine ⟨by decide, stageOneFails_all .crcVerify, fun s => ⟨fun v h => ?outOfBounds, fun v h => ?inRange, ?illegal⟩⟩
  case outOfBounds => exact exec_crcVerify_of_outOfBounds s v (Nat.not_le.mpr h)
  case inRange =>
    rw [exec_crcVerify_of_inRange s v h, State.storedCrc, State.rdle16_memRead]
    rfl
  case illegal => exact issue_of_illegalVar (op := .crcVerify) rfl rfl rfl rfl s

/-! ### DNP3_BLOCKS -/

/-- `j` full blocks take 18 bytes each, so what stands at 18 j is the layout of the bytes from 16 j on (R86). -/
theorem drop_dnp3Cut (P : Params) (j k : Nat) (bs : List Byte) (h : 16 * j ≤ bs.length) :
    (dnp3Cut P (j + k) bs).drop (18 * j) = dnp3Cut P k (bs.drop (16 * j)) := by
  induction j generalizing bs with
  | zero => simp
  | succ j ih =>
    have hblock : (bs.take 16 ++ le16 (crc P .dnp3 (bs.take 16))).length = 18 := by simp; omega
    calc (dnp3Cut P (j + 1 + k) bs).drop (18 * (j + 1))
        = ((dnp3Cut P (j + 1 + k) bs).drop 18).drop (18 * j) := by rw [List.drop_drop]; congr 1; omega
      _ = (dnp3Cut P (j + k) (bs.drop 16)).drop (18 * j) := by
          rw [Nat.add_right_comm, dnp3Cut, List.drop_left' hblock]
      _ = dnp3Cut P k ((bs.drop 16).drop (16 * j)) := ih _ (by simp; omega)
      _ = dnp3Cut P k (bs.drop (16 * (j + 1))) := by rw [List.drop_drop]; congr 2; omega

/-- Block `j` of the layout and its CRC stand at offset 18 j (R86). -/
theorem dnp3Layout_block (P : Params) {bs : List Byte} {j : Nat} (h : j < dnp3Count bs.length) :
    (bs.drop (16 * j)).take 16 ++ le16 (crc P .dnp3 ((bs.drop (16 * j)).take 16)) <+:
      (dnp3Layout P bs).drop (18 * j) := by
  obtain ⟨k, hk⟩ := Nat.exists_eq_add_of_lt h
  have hfull : 16 * j ≤ bs.length := by unfold dnp3Count at h; omega
  rw [dnp3Layout, hk, Nat.add_assoc, drop_dnp3Cut P j (k + 1) bs hfull]
  exact ⟨dnp3Cut P k ((bs.drop (16 * j)).drop 16), rfl⟩

/-- Block `j` of the source range. -/
theorem State.srcBytes_block (s : State) {j : Nat} (h : j < dnp3Count s.srcLen.toNat) :
    (s.srcBytes.drop (16 * j)).take 16 =
      s.memRead (s.srcAddr.toNat + 16 * j) (min 16 (s.srcLen.toNat - 16 * j)) := by
  have hfull : 16 * j ≤ s.srcLen.toNat := by unfold dnp3Count at h; omega
  rw [State.srcBytes, s.drop_memRead _ hfull, s.take_memRead]

/-- What DNP3_BLOCKS leaves in BUF for block `j`: the block's bytes, then its CRC, low byte first (R86). -/
theorem State.memRead_emit_dnp3Block (s : State) {j m : Nat} (h : j < dnp3Count s.srcLen.toNat)
    (hm : m = min 16 (s.srcLen.toNat - 16 * j)) :
    (s.emit (dnp3Layout s.params s.srcBytes)).memRead (s.dstAddr.toNat + 18 * j) m =
        s.memRead (s.srcAddr.toNat + 16 * j) m ∧
      (s.emit (dnp3Layout s.params s.srcBytes)).memRead (s.dstAddr.toNat + 18 * j + m) 2 =
        le16 (crc s.params .dnp3 (s.memRead (s.srcAddr.toNat + 16 * j) m)) := by
  have hblock := dnp3Layout_block s.params (bs := s.srcBytes) (by rwa [s.length_srcBytes])
  rw [s.srcBytes_block h, ← hm] at hblock
  have hread := State.memRead_written_part (s.emit_buf _) hblock
  rw [List.length_append, s.length_memRead, length_le16, State.memRead_add] at hread
  exact List.append_inj hread (by simp)

/-- Settles O22: OUT_LEN by the layout's length, each block and its CRC by what stands at its offset, and the frame
by what an output command leaves alone. -/
theorem dnp3BlocksLayout : Obligations.Dnp3BlocksLayout := by
  intro s hsrc hdst hcap
  have hlen : (dnp3Layout s.params s.srcBytes).length =
      s.srcLen.toNat + 2 * ((s.srcLen.toNat + 15) / 16) := by
    rw [length_dnp3Layout, s.length_srcBytes, dnp3Count]
  refine ⟨_, exec_dnp3Blocks_of_fits s hsrc hdst hcap, ?outLen, fun j i hj hi => ?data, fun j hj => ?crc,
    fun a ha => ?frame⟩
  case outLen => rw [← hlen]; rfl
  case data =>
    rw [State.bufByte_withErr]
    exact State.bufByte_of_memRead_eq (s.memRead_emit_dnp3Block hj rfl).1 hi
  case crc =>
    rw [State.bufByte_withErr, State.bufByte_withErr]
    exact State.append_bufByte_of_le16 (s.memRead_emit_dnp3Block hj rfl).2
  case frame => rw [State.bufByte_withErr, s.bufByte_emit_outside (by rwa [hlen])]

end Sys2Proof.Machine

/-! The link family (spec/42_hdlc.md R88 to R113): addresses and frames as the rules write them, one equation of
`exec` per branch of each building command, the ways HDLC_PARSE can end, and the session (link state and counters)
that each command leaves. -/

namespace Sys2Proof.Machine

/-! ### Addresses -/

/-- R90: `vlqLen a` is the least byte count k ≥ 1 with a < 2^(7k). -/
theorem vlqLen_le_iff (a : BitVec 28) {k : Nat} (hk : 1 ≤ k) : vlqLen a ≤ k ↔ a.toNat < 2 ^ (7 * k) := by
  have hlt : a.toNat < 2 ^ 28 := a.isLt
  unfold vlqLen
  rcases Nat.lt_or_ge k 4 with hk4 | hk4
  · interval_cases k <;> split_ifs <;> omega
  · have hpow : 2 ^ 28 ≤ 2 ^ (7 * k) := Nat.pow_le_pow_right (by decide) (by omega)
    split_ifs <;> omega

/-- R90: seven address bits and the end mark in one byte. -/
theorem toNat_vlqByte (a : BitVec 28) (shift : Nat) (last : Bool) :
    (vlqByte a shift last).toNat = a.toNat / 2 ^ shift % 128 * 2 + if last then 1 else 0 := by
  have hgroup : ((a >>> shift).setWidth 8 &&& 0x7F#8).toNat = a.toNat / 2 ^ shift % 128 := by
    rw [BitVec.toNat_and, BitVec.toNat_setWidth, BitVec.toNat_ushiftRight, Nat.shiftRight_eq_div_pow]
    exact (Nat.and_two_pow_sub_one_eq_mod _ 7).trans (Nat.mod_mod_of_dvd _ (by decide))
  have hmark : ((BitVec.ofBool last).setWidth 8).toNat = if last then 1 else 0 := by
    cases last <;> rfl
  have hlt : a.toNat / 2 ^ shift % 128 * 2 < 2 ^ 8 := by omega
  rw [vlqByte, BitVec.toNat_or, BitVec.toNat_shiftLeft, hgroup, hmark, Nat.shiftLeft_eq, pow_one,
    Nat.mod_eq_of_lt hlt, ← Nat.shiftLeft_eq _ 1, Nat.shiftLeft_add_eq_or_of_lt]
  split <;> decide

/-- R90: the groups run from the most significant one down to group 0, which alone ends the address. -/
theorem getElem_vlqGroups (a : BitVec 28) {k j : Nat} (h : j < (vlqGroups a k).length) :
    (vlqGroups a k)[j] = vlqByte a (7 * (k - 1 - j)) (decide (j = k - 1)) := by
  induction k generalizing j with
  | zero => simp [vlqGroups] at h
  | succ k ih =>
    cases j with
    | zero => simp [vlqGroups, eq_comm]
    | succ j =>
      rw [length_vlqGroups] at h
      simp only [vlqGroups, List.getElem_cons_succ, ih]
      congr 1
      · omega
      · simp; omega

/-- Settles O24: the length by its bound, each byte by its group, and the examples by computation. -/
theorem vlqEncoding : Obligations.VlqEncoding := by
  refine ⟨fun a => ?address, by decide⟩
  case address =>
    obtain ⟨hlow, hhigh⟩ := vlqLen_bounds a
    simp only [length_vlq]
    refine ⟨hlow, hhigh, (vlqLen_le_iff a hlow).mp le_rfl, fun k hk => (vlqLen_le_iff a hk).mpr, fun j hj => ?byte⟩
    case byte =>
      simp only [vlq, getElem_vlqGroups, toNat_vlqByte, decide_eq_true_eq]

/-! ### The control byte and the frames as the rules write them -/

/-- R93: the three fields of an I-frame's control byte do not overlap, so joining them is adding them. -/
theorem iframeControl_eq_ofNat (nr ns : BitVec 3) (final : Bool) :
    iframeControl nr ns final = BitVec.ofNat 8 (32 * nr.toNat + 2 * ns.toNat + if final then 1 else 0) := by
  revert nr ns final; decide

/-- R92, R94, R95: the SNRM frame around its header. -/
theorem State.snrmFrame_eq (s : State) {A B hdr : List Byte} (hA : A = vlq s.serverAddr) (hB : B = vlq s.clientAddr)
    (hhdr : hdr = be16 (0xA000 ||| BitVec.ofNat 16 (A.length + B.length + 5)) ++ A ++ B ++ [0x93]) :
    s.snrmFrame = [0x7E] ++ hdr ++ le16 (crc s.params .ccitt hdr) ++ [0x7E] := by
  subst hA hB hhdr; rfl

/-- R102: an SNRM frame takes L + 2 bytes. -/
theorem State.length_snrmFrame (s : State) :
    s.snrmFrame.length = (vlq s.serverAddr).length + (vlq s.clientAddr).length + 7 :=
  length_shortFrame s.params s.serverAddr s.clientAddr snrmControl

/-- R105: an info frame around the source range takes L + 2 bytes. -/
theorem State.length_iframe (s : State) (final : Bool) :
    (s.iframe final).length = (vlq s.serverAddr).length + (vlq s.clientAddr).length + 9 + s.srcLen.toNat := by
  rw [State.iframe, length_infoFrame, s.length_srcBytes, infoLen]
  omega

/-- R92, R93, R95 to R97, R104: the info frame around its header and its body. -/
theorem State.iframe_eq (s : State) (final : Bool) {A B hdr body : List Byte} (hA : A = vlq s.serverAddr)
    (hB : B = vlq s.clientAddr)
    (hhdr : hdr = be16 (0xA000 ||| BitVec.ofNat 16 (A.length + B.length + 7 + s.srcLen.toNat)) ++ A ++ B ++
      [BitVec.ofNat 8 (32 * s.nr.toNat + 2 * s.ns.toNat + if final then 1 else 0)])
    (hbody : body = hdr ++ (if s.fillCrc then le16 (crc s.params .ccitt hdr) else [0x00, 0x00]) ++
      s.memRead s.srcAddr.toNat s.srcLen.toNat) :
    s.iframe final =
      [0x7E] ++ body ++ (if s.fillCrc then le16 (crc s.params .ccitt body) else [0x00, 0x00]) ++ [0x7E] := by
  have hheader : frameHeader s.serverAddr s.clientAddr (infoLen s.serverAddr s.clientAddr s.srcBytes.length)
      (iframeControl s.nr s.ns final) = hdr := by
    rw [iframeControl_eq_ofNat, s.length_srcBytes, hhdr, hA, hB]
    rfl
  have hinfo : infoBody s.params s.fillCrc s.serverAddr s.clientAddr (iframeControl s.nr s.ns final) s.srcBytes =
      body := by
    rw [infoBody, hheader, hbody]
    rfl
  rw [State.iframe, infoFrame, hinfo]
  rfl

/-- NS advances where the frame built is final (R100, R105). -/
def State.countBuilt (s : State) (final : Bool) : State := if final then s.advanceNs else s

@[simp] theorem State.bufByte_countBuilt (s : State) (final : Bool) (x : Nat) :
    (s.countBuilt final).bufByte x = s.bufByte x := by
  cases final with
  | false => rfl
  | true => exact s.bufByte_advanceNs x

@[simp] theorem State.memRead_countBuilt (s : State) (final : Bool) (x n : Nat) :
    (s.countBuilt final).memRead x n = s.memRead x n :=
  State.memRead_congr fun i _ => s.bufByte_countBuilt final (x + i)

/-- What an output command that restarts the link writes beside BUF (R25, R102). -/
theorem State.restartLink_emit_registers (s : State) (bs : List Byte) (l : LinkState) :
    { ((s.emit bs).restartLink l).withErr .ok with buf := s.buf } =
      { s with outLen := BitVec.ofNat 32 bs.length, link := l, ns := 0, nr := 0, reasmFill := 0, reasmDone := false,
               err := .ok } := rfl

/-- What HDLC_BUILD_IFRAME writes beside BUF (R25, R105). -/
theorem State.countBuilt_emit_registers (s : State) (bs : List Byte) (final : Bool) :
    { ((s.emit bs).countBuilt final).withErr .ok with buf := s.buf } =
      { s with outLen := BitVec.ofNat 32 bs.length, ns := if final then s.ns + 1 else s.ns, err := .ok } := by
  cases final <;> rfl

/-! ### The link commands, branch by branch -/

section
variable (s : State)

/-- R101. -/
theorem exec_hdlcReset : exec .hdlcReset s = .next ((s.restartLink .disconnected).withErr .ok) := rfl

/-- R103, from Connecting. -/
theorem exec_hdlcSetConnected_of_connecting (h : s.link = .connecting) :
    exec .hdlcSetConnected s = .next { s with link := .connected, err := .ok } :=
  if_neg (not_not.mpr h)

/-- R103, stage 2. -/
theorem exec_hdlcSetConnected_of_not_connecting (h : s.link ≠ .connecting) :
    exec .hdlcSetConnected s = .next (s.withErr .invalidState) :=
  if_pos h

/-- R102, stage 3. -/
theorem exec_hdlcBuildSnrm_of_outOfBounds (h : ¬ s.dstInRange) :
    exec .hdlcBuildSnrm s = .next (s.withErr .outOfBounds) :=
  if_pos h

/-- R102, stage 6. -/
theorem exec_hdlcBuildSnrm_of_tooSmall (h : s.dstInRange)
    (hcap : s.dstCap.toNat < shortLen s.serverAddr s.clientAddr + 2) :
    exec .hdlcBuildSnrm s = .next ((s.unspecify s.dstAddr.toNat s.dstCap.toNat).withErr .bufferTooSmall) :=
  (if_neg (not_not.mpr h)).trans (if_pos hcap)

/-- R102, the output fits. -/
theorem exec_hdlcBuildSnrm_of_fits (h : s.dstInRange)
    (hcap : shortLen s.serverAddr s.clientAddr + 2 ≤ s.dstCap.toNat) :
    exec .hdlcBuildSnrm s = .next (((s.emit s.snrmFrame).restartLink .connecting).withErr .ok) :=
  (if_neg (not_not.mpr h)).trans (if_neg (Nat.not_lt.mpr hcap))

/-- R105, stage 2. -/
theorem exec_hdlcBuildIframe_of_not_connected (final : Bool) (h : s.link ≠ .connected) :
    exec (.hdlcBuildIframe final) s = .next (s.withErr .invalidState) :=
  if_pos h

/-- R105, every stage passed. -/
theorem exec_hdlcBuildIframe_of_fits (final : Bool) (hlink : s.link = .connected) (hsrc : s.srcInRange)
    (hdst : s.dstInRange) (hempty : s.srcLen.toNat ≠ 0)
    (hlong : infoLen s.serverAddr s.clientAddr s.srcLen.toNat ≤ 2047)
    (hcap : infoLen s.serverAddr s.clientAddr s.srcLen.toNat + 2 ≤ s.dstCap.toNat) :
    exec (.hdlcBuildIframe final) s =
      .next (((s.emit (s.iframe final)).countBuilt final).withErr .ok) := by
  simp only [exec, execHdlcBuildIframe, hlink, ne_eq, not_true_eq_false, if_false, if_neg (not_not.mpr hsrc),
    if_neg (not_not.mpr hdst), if_neg hempty, if_neg (Nat.not_lt.mpr hlong), if_neg (Nat.not_lt.mpr hcap), complete]
  cases final <;> rfl

end

/-! ### HDLC_RESET, HDLC_SET_CONNECTED, HDLC_BUILD_SNRM, HDLC_BUILD_IFRAME -/

/-- Settles O30, by the equation of HDLC_RESET. -/
theorem hdlcResetDisconnects : Obligations.HdlcResetDisconnects :=
  ⟨by decide, stageOneFails_all .hdlcReset, exec_hdlcReset⟩

/-- Settles O32, by the two branches of HDLC_SET_CONNECTED. -/
theorem hdlcSetConnected : Obligations.HdlcSetConnected :=
  ⟨by decide, stageOneFails_all .hdlcSetConnected, fun s =>
    ⟨exec_hdlcSetConnected_of_connecting s, exec_hdlcSetConnected_of_not_connecting s⟩⟩

/-- Settles O31, by the three branches of HDLC_BUILD_SNRM: the window of a failure, and the bytes of the frame. -/
theorem hdlcBuildSnrmWritesFrame : Obligations.HdlcBuildSnrmWritesFrame := by
  refine ⟨by decide, stageOneFails_all .hdlcBuildSnrm, fun s A B hdr hA hB hhdr => ?_⟩
  have hL : shortLen s.serverAddr s.clientAddr = A.length + B.length + 5 := by rw [hA, hB, shortLen]
  refine ⟨fun h => ?outOfBounds, fun h hcap => ?tooSmall, fun h hcap => ?fits⟩
  case outOfBounds => exact exec_hdlcBuildSnrm_of_outOfBounds s (Nat.not_le.mpr h)
  case tooSmall =>
    refine ⟨_, exec_hdlcBuildSnrm_of_tooSmall s h (by omega), rfl, fun a ha => ?_⟩
    rw [State.bufByte_withErr, State.bufByte_unspecify_outside s ha]
  case fits =>
    have hlen : s.snrmFrame.length = A.length + B.length + 7 := by rw [hA, hB, s.length_snrmFrame]
    refine ⟨_, exec_hdlcBuildSnrm_of_fits s h (by omega), ?registers, ?bytes, fun a ha => ?frame⟩
    case registers => rw [← hlen]; exact s.restartLink_emit_registers s.snrmFrame .connecting
    case bytes =>
      rw [State.memRead_withErr, State.memRead_restartLink, ← hlen, s.memRead_emit]
      exact s.snrmFrame_eq hA hB hhdr
    case frame =>
      rw [State.bufByte_withErr, State.bufByte_restartLink, s.bufByte_emit_outside (by rwa [hlen])]

/-- Settles O33: the bytes and the frame by what an output command writes, which advancing NS leaves alone. -/
theorem hdlcBuildIframeWritesFrame : Obligations.HdlcBuildIframeWritesFrame := by
  intro s f A B hdr body hA hB hhdr hbody hlink hsrc hdst hempty hlong hcap
  have hlen : (s.iframe f).length = A.length + B.length + 9 + s.srcLen.toNat := by rw [hA, hB, s.length_iframe]
  have hL : infoLen s.serverAddr s.clientAddr s.srcLen.toNat = A.length + B.length + 7 + s.srcLen.toNat := by
    rw [hA, hB, infoLen]
  refine ⟨_, exec_hdlcBuildIframe_of_fits s f hlink hsrc hdst hempty (by omega) (by omega), ?registers, ?bytes,
    fun a ha => ?frame⟩
  case registers => rw [← hlen]; exact s.countBuilt_emit_registers (s.iframe f) f
  case bytes =>
    rw [State.memRead_withErr, State.memRead_countBuilt, ← hlen, s.memRead_emit]
    exact s.iframe_eq f hA hB hhdr hbody
  case frame =>
    rw [State.bufByte_withErr, State.bufByte_countBuilt, s.bufByte_emit_outside (by rwa [hlen])]

/-! ### What HDLC_PARSE reads -/

/-- R107: a frame is accepted only where a flag stands right behind its L bytes. -/
theorem byteAt_of_parseAt_frame {P : Params} {v : Bool} {bs : List Byte} {p : Nat} {f : RxFrame}
    (h : parseAt P v bs p = .frame f) : byteAt bs (p + fmtLength (fmtAt bs p)) = flagByte := by
  by_contra hflag
  simp only [parseAt, ne_eq, hflag, not_false_eq_true, if_true] at h
  split_ifs at h

/-- R106, R109: a rejected frame is reported by its start, behind the first run of flags. -/
theorem parseFrame_reject_start {P : Params} {v : Bool} {bs : List Byte} {p : Nat}
    (h : parseFrame P v bs = .invalid p ∨ parseFrame P v bs = .badCrc p) :
    ∃ i, firstFlag bs = some i ∧ p = i + flagRun (bs.drop i) := by
  cases hflag : firstFlag bs with
  | none => simp [parseFrame, hflag] at h
  | some i =>
    simp only [parseFrame, hflag] at h
    rcases parseAt_cases (P := P) (v := v) (bs := bs) (p := i + flagRun (bs.drop i)) rfl with
      hinc | ⟨hrej | hrej, -⟩ | ⟨g, hg, -⟩
    · simp [hinc] at h
    · exact ⟨i, rfl, by simpa [hrej, eq_comm] using h⟩
    · exact ⟨i, rfl, by simpa [hrej, eq_comm] using h⟩
    · simp [hg] at h

/-- R106, R109: an accepted frame starts behind the first run of flags and ends at its closing flag, L bytes on. -/
theorem parseFrame_frame_consumed {P : Params} {v : Bool} {bs : List Byte} {f : RxFrame}
    (h : parseFrame P v bs = .frame f) :
    ∃ i, firstFlag bs = some i ∧ f.consumed = i + flagRun (bs.drop i) + fmtLength f.fmt ∧
      f.consumed < bs.length ∧ byteAt bs f.consumed = flagByte := by
  cases hflag : firstFlag bs with
  | none => simp [parseFrame, hflag] at h
  | some i =>
    simp only [parseFrame, hflag] at h
    rcases parseAt_cases h with hinc | ⟨hrej | hrej, -⟩ | ⟨g, hg, hfmt, -, -, hcons, hlt, -⟩
    · cases hinc
    · cases hrej
    · cases hrej
    · cases hg
      exact ⟨i, rfl, hcons, hlt, by rw [hcons, hfmt]; exact byteAt_of_parseAt_frame h⟩

/-- The ways HDLC_PARSE can end (R113): a check before the data stage fails or the frame is cut; the frame is
rejected; or it is accepted and stages 6 and 7 decide. -/
theorem exec_hdlcParse_next {s t : State} (h : exec .hdlcParse s = .next t) :
    (∃ e, (e = .outOfBounds ∨ e = .incompleteData) ∧ t = s.withErr e) ∨
    (∃ p e, (e = .invalidFrame ∨ e = .checksum) ∧
      (parseFrame s.params s.verifyCrc s.srcBytes = .invalid p ∨
        parseFrame s.params s.verifyCrc s.srcBytes = .badCrc p) ∧
      t = (s.withConsumed p).withErr e) ∨
    ∃ f, parseFrame s.params s.verifyCrc s.srcBytes = .frame f ∧ acceptFrame s s.srcBytes f = .next t := by
  simp only [exec, execHdlcParse] at h
  split at h
  · exact .inl ⟨_, .inl rfl, raise_next.mp h⟩
  · split at h
    · exact .inl ⟨_, .inl rfl, raise_next.mp h⟩
    · split at h
      · exact .inl ⟨_, .inr rfl, raise_next.mp h⟩
      · next p hp => exact .inr (.inl ⟨p, _, .inl rfl, .inl hp, raise_next.mp h⟩)
      · next p hp => exact .inr (.inl ⟨p, _, .inr rfl, .inr hp, raise_next.mp h⟩)
      · next f hf => exact .inr (.inr ⟨f, hf, h⟩)

/-- R109: an accepted frame either succeeds and reports where it ends, or does not fit and leaves RX_CONSUMED
as it was. -/
theorem acceptFrame_consumed {s t : State} {bs : List Byte} {f : RxFrame} (h : acceptFrame s bs f = .next t) :
    (t.err = .ok ∧ t.rxFmt = f.fmt ∧ t.rxConsumed = BitVec.ofNat 32 f.consumed) ∨
    (t.err = .bufferTooSmall ∧ t.rxConsumed = s.rxConsumed) := by
  rcases acceptFrame_cases h with ⟨-, rfl⟩ | ⟨-, -, -, rfl⟩ | ⟨-, -, -, -, rfl⟩ | ⟨-, -, -, -, rfl⟩
  · exact .inl ⟨rfl, rfl, rfl⟩
  · exact .inl ⟨rfl, rfl, rfl⟩
  · exact .inl ⟨rfl, rfl, rfl⟩
  · exact .inr ⟨rfl, rfl⟩

/-- Settles O40, by the ways HDLC_PARSE can end: a rejected frame reports its start, an accepted one its closing
flag. -/
theorem hdlcParseConsumed : Obligations.HdlcParseConsumed := by
  intro s t h
  rcases exec_hdlcParse_next h with ⟨e, he, rfl⟩ | ⟨q, e, he, hrej, rfl⟩ | ⟨f, hf, hacc⟩
  · refine ⟨fun hcode => ?_, fun _ _ _ => rfl⟩
    rcases he with rfl | rfl <;> simp at hcode
  · have hne : e ≠ .ok := by rcases he with rfl | rfl <;> decide
    refine ⟨fun _ => ?reported, fun _ hinv hsum => (he.elim hinv hsum).elim⟩
    case reported =>
      obtain ⟨i, hi, hq⟩ := parseFrame_reject_start hrej
      exact ⟨i, q, hi, hq, fun hok => absurd hok hne, fun _ => rfl⟩
  · rcases acceptFrame_consumed hacc with ⟨hok, hfmt, hcons⟩ | ⟨hsmall, hcons⟩
    · refine ⟨fun _ => ?accepted, fun hnok => absurd hok hnok⟩
      case accepted =>
        obtain ⟨i, hi, hend, hlt, hflag⟩ := parseFrame_frame_consumed hf
        rw [s.length_srcBytes] at hlt
        refine ⟨i, _, hi, rfl, fun _ => ?_, fun hnok => absurd hok hnok⟩
        have hstop : i + flagRun (s.srcBytes.drop i) + fmtLength t.rxFmt = f.consumed := by rw [hfmt, hend]
        change t.rxConsumed = BitVec.ofNat 32 (i + flagRun (s.srcBytes.drop i) + fmtLength t.rxFmt) ∧
          s.bufByte (s.srcAddr.toNat + (i + flagRun (s.srcBytes.drop i) + fmtLength t.rxFmt)) = 0x7E
        rw [hstop]
        exact ⟨hcons, (s.byteAt_memRead _ _ _ hlt).symm.trans hflag⟩
    · exact ⟨fun hcode => by simp [hsmall] at hcode, fun _ _ _ => hcons⟩

/-! ### The session over all commands -/

/-- What R99 and R100 are about: the link state and the two counters. -/
structure Session where
  link : LinkState
  ns : BitVec 3
  nr : BitVec 3

/-- The session that a state holds. -/
def State.session (s : State) : Session := ⟨s.link, s.ns, s.nr⟩

/-- The frame counts for NR (R100, R112): it is of info form and its final bit is set. -/
def ParseResult.counts : ParseResult → Bool
  | .frame f => f.info && finalBit f.ctrl
  | _ => false

/-- The session that a success of the command leaves (R99, R100). -/
def State.sessionAfter (s : State) : Instr → Session
  | .hdlcReset => ⟨.disconnected, 0, 0⟩
  | .hdlcBuildSnrm => ⟨.connecting, 0, 0⟩
  | .hdlcSetConnected => ⟨.connected, s.ns, s.nr⟩
  | .hdlcBuildIframe final => ⟨s.link, if final then s.ns + 1 else s.ns, s.nr⟩
  | .hdlcParse =>
    ⟨s.link, s.ns,
      if s.link = .connected ∧ (parseFrame s.params s.verifyCrc s.srcBytes).counts then s.nr + 1 else s.nr⟩
  | _ => s.session

/-- If the command succeeds, it leaves this session. -/
def SuccessLeaves (k : Session) (r : Result) : Prop := ∀ t, r = .next t → t.err = .ok → t.session = k

section
variable {k : Session} {c : Prop} [Decidable c] {r r' : Result}

theorem SuccessLeaves.complete {s : State} (h : s.session = k) : SuccessLeaves k (complete s) := by
  intro t ht _
  obtain rfl := complete_next.mp ht
  exact h

theorem SuccessLeaves.raise {s : State} {e : ResultCode} (he : e ≠ .ok := by decide) :
    SuccessLeaves k (raise s e) := by
  intro t ht hok
  obtain rfl := raise_next.mp ht
  exact absurd hok he

theorem SuccessLeaves.raiseTooSmall {s : State} {a n : Nat} : SuccessLeaves k (raiseTooSmall s a n) := by
  intro t ht hok
  obtain rfl := raiseTooSmall_next.mp ht
  cases hok

theorem SuccessLeaves.ite (h : c → SuccessLeaves k r) (h' : ¬ c → SuccessLeaves k r') :
    SuccessLeaves k (if c then r else r') := by
  by_cases hc : c
  · rw [if_pos hc]
    exact h hc
  · rw [if_neg hc]
    exact h' hc

/-- A stage that checks one condition (R65). -/
theorem SuccessLeaves.check {s : State} {e : ResultCode} (h : SuccessLeaves k r) (he : e ≠ .ok := by decide) :
    SuccessLeaves k (if c then Machine.raise s e else r) :=
  .ite (fun _ => .raise he) fun _ => h

end

section
variable (s : State)

theorem execCrcInit_leaves (var : BitVec 2) : SuccessLeaves s.session (execCrcInit var s) := by
  unfold execCrcInit
  split
  · exact .raise
  · exact .complete rfl

theorem execCrcCompute_leaves (var : BitVec 2) : SuccessLeaves s.session (execCrcCompute var s) := by
  unfold execCrcCompute
  split
  · exact .raise
  · exact .check (.complete rfl)

theorem execCrcStore_leaves : SuccessLeaves s.session (execCrcStore s) :=
  .check (.ite (fun _ => .raiseTooSmall) fun _ => .complete rfl)

theorem execCrcVerify_leaves (var : BitVec 2) : SuccessLeaves s.session (execCrcVerify var s) := by
  unfold execCrcVerify
  split
  · exact .raise
  · exact .check (.check (.complete rfl))

theorem execDnp3Blocks_leaves : SuccessLeaves s.session (execDnp3Blocks s) :=
  .check (.check (.ite (fun _ => .raiseTooSmall) fun _ => .complete rfl))

theorem execHdlcBuildSnrm_leaves : SuccessLeaves ⟨.connecting, 0, 0⟩ (execHdlcBuildSnrm s) :=
  .check (.ite (fun _ => .raiseTooSmall) fun _ => .complete rfl)

theorem execHdlcBuildIframe_leaves (final : Bool) :
    SuccessLeaves ⟨s.link, if final then s.ns + 1 else s.ns, s.nr⟩ (execHdlcBuildIframe final s) := by
  refine .check (.check (.check (.check (.check (.ite (fun _ => .raiseTooSmall) fun _ =>
    .ite (fun hfinal => .complete ?advances) fun hmore => .complete ?keeps)))))
  case advances => simp [State.session, hfinal]
  case keeps => simp [State.session, hmore]

/-- R112: an accepted frame advances NR exactly where it counts and the link is Connected. -/
theorem acceptFrame_leaves (bs : List Byte) (f : RxFrame) :
    SuccessLeaves ⟨s.link, s.ns, if s.link = .connected ∧ (ParseResult.frame f).counts then s.nr + 1 else s.nr⟩
      (acceptFrame s bs f) := by
  intro t h hok
  rcases acceptFrame_cases h with ⟨hno, rfl⟩ | ⟨hlink, hinfo, -, rfl⟩ | ⟨hlink, hinfo, -, -, rfl⟩ | ⟨-, -, -, -, rfl⟩
  · have hkeep : ¬ (s.link = .connected ∧ (ParseResult.frame f).counts) := by
      simp only [ParseResult.counts, Bool.and_eq_true]
      exact fun ⟨hlink, hinfo, _⟩ => hno ⟨hlink, hinfo⟩
    rw [if_neg hkeep]
    rfl
  · simp [State.session, ParseResult.counts, hlink, hinfo]
  · simp [State.session, ParseResult.counts, hlink, hinfo]
  · cases hok

theorem execHdlcParse_leaves : SuccessLeaves (s.sessionAfter .hdlcParse) (exec .hdlcParse s) := by
  intro t h hok
  rcases exec_hdlcParse_next h with ⟨e, he, rfl⟩ | ⟨q, e, he, -, rfl⟩ | ⟨f, hf, hacc⟩
  · rcases he with rfl | rfl <;> cases hok
  · rcases he with rfl | rfl <;> cases hok
  · rw [State.sessionAfter, hf]
    exact acceptFrame_leaves s _ f t hacc hok

/-- Every command that succeeds leaves the session of the tables R99 and R100. -/
theorem exec_leaves (i : Instr) : SuccessLeaves (s.sessionAfter i) (exec i s) := by
  cases i with
  | nop => exact .complete rfl
  | crcInit var => exact execCrcInit_leaves s var
  | crcUpdate => exact .check (.complete rfl)
  | crcByte imm => exact .complete rfl
  | crcCompute var => exact execCrcCompute_leaves s var
  | crcStore => exact execCrcStore_leaves s
  | crcVerify var => exact execCrcVerify_leaves s var
  | dnp3Blocks => exact execDnp3Blocks_leaves s
  | hdlcReset => exact .complete rfl
  | hdlcBuildSnrm => exact execHdlcBuildSnrm_leaves s
  | hdlcSetConnected => exact .check (.complete rfl)
  | hdlcBuildIframe final => exact execHdlcBuildIframe_leaves s final
  | hdlcParse => exact execHdlcParse_leaves s

end

/-- R68: a failure leaves the session as it was. -/
theorem session_of_failed {i : Instr} {s t : State} (h : exec i s = .next t) (ht : t.err ≠ .ok) :
    t.session = s.session := by
  rcases (exec_ends s i).failed h ht with ⟨e, -, rfl⟩ | ⟨p, e, -, -, rfl⟩ | rfl
  all_goals rfl

/-- R99, the cells marked "err". -/
theorem exec_of_nextLink_none {i : Instr} {s : State} (h : nextLink s.link i.opcode = none) :
    exec i s = .next (s.withErr .invalidState) := by
  cases i with
  | hdlcSetConnected =>
    refine exec_hdlcSetConnected_of_not_connecting s fun hlink => ?_
    rw [hlink] at h
    cases h
  | hdlcBuildIframe final =>
    refine exec_hdlcBuildIframe_of_not_connected s final fun hlink => ?_
    rw [hlink] at h
    cases h
  | _ => cases hlink : s.link <;> rw [hlink] at h <;> cases h

/-- R99, the cells that name a state. -/
theorem link_sessionAfter {i : Instr} {s : State} {l : LinkState} (h : nextLink s.link i.opcode = some l) :
    (s.sessionAfter i).link = l := by
  generalize hlink : s.link = now at h
  cases i with
  | hdlcReset | hdlcBuildSnrm | hdlcSetConnected => cases now <;> cases h <;> rfl
  | _ => cases now <;> cases h <;> exact hlink

/-- R100: beside the commands that restart the link, only a final frame built advances NS. -/
theorem ns_sessionAfter {i : Instr} (s : State) (hreset : i ≠ .hdlcReset) (hsnrm : i ≠ .hdlcBuildSnrm) :
    (s.sessionAfter i).ns = if i = .hdlcBuildIframe true then s.ns + 1 else s.ns := by
  cases i with
  | hdlcReset => exact absurd rfl hreset
  | hdlcBuildSnrm => exact absurd rfl hsnrm
  | hdlcBuildIframe final => cases final <;> rfl
  | _ => exact (if_neg nofun).symm

/-- R100: beside the commands that restart the link, only HDLC_PARSE advances NR. -/
theorem nr_sessionAfter {i : Instr} (s : State) (hreset : i ≠ .hdlcReset) (hsnrm : i ≠ .hdlcBuildSnrm)
    (hparse : i ≠ .hdlcParse) : (s.sessionAfter i).nr = s.nr := by
  cases i with
  | hdlcReset => exact absurd rfl hreset
  | hdlcBuildSnrm => exact absurd rfl hsnrm
  | hdlcParse => exact absurd rfl hparse
  | _ => rfl

/-- R100, R112: a frame received advances NR exactly where the link is Connected, the form is info and the control
byte has its final bit. -/
theorem nr_sessionAfter_hdlcParse {s : State} {f : RxFrame}
    (hf : parseFrame s.params s.verifyCrc s.srcBytes = .frame f) :
    (s.sessionAfter .hdlcParse).nr =
      if s.link = .connected ∧ f.info = true ∧ f.ctrl.getLsbD 0 = true then s.nr + 1 else s.nr := by
  simp only [State.sessionAfter, hf, ParseResult.counts, Bool.and_eq_true, finalBit]

/-- R100: the counters advance modulo 8. -/
theorem toNat_advance_if {c : Prop} [Decidable c] (n : BitVec 3) :
    (if c then n + 1 else n).toNat = if c then (n.toNat + 1) % 8 else n.toNat := by
  split
  · exact BitVec.toNat_add n 1
  · rfl

/-- Settles O42: the cells marked "err" and those that name a state by the table, the failures by R68. -/
theorem linkStateTable : Obligations.LinkStateTable := by
  intro i s t h
  refine ⟨fun hnone => ?err, fun l hl hok => ?state, fun ht => ?failed⟩
  case err => exact (Host.Outcome.next.inj ((exec_of_nextLink_none hnone).symm.trans h)).symm
  case state => exact (congrArg Session.link (exec_leaves s i t h hok)).trans (link_sessionAfter hl)
  case failed => exact congrArg Session.link (session_of_failed h ht)

/-- Settles O43: a failure keeps the session, and a success leaves the one whose counters R100 gives. -/
theorem sequenceCounterRules : Obligations.SequenceCounterRules := by
  intro i s t h
  refine ⟨fun ht => ?failed, fun hok hi => ?restart,
    fun hok hreset hsnrm => ⟨?ns, fun hparse => ?nr, fun f hparse hf => ?received⟩⟩
  case failed =>
    have hkept := session_of_failed h ht
    exact ⟨congrArg Session.ns hkept, congrArg Session.nr hkept⟩
  case restart =>
    have hleft := exec_leaves s i t h hok
    rcases hi with rfl | rfl
    all_goals exact ⟨congrArg Session.ns hleft, congrArg Session.nr hleft⟩
  case ns =>
    have hns : t.ns = _ := (congrArg Session.ns (exec_leaves s i t h hok)).trans (ns_sessionAfter s hreset hsnrm)
    rw [hns, toNat_advance_if]
  case nr => exact (congrArg Session.nr (exec_leaves s i t h hok)).trans (nr_sessionAfter s hreset hsnrm hparse)
  case received =>
    subst hparse
    have hnr : t.nr = _ := (congrArg Session.nr (exec_leaves s _ t h hok)).trans (nr_sessionAfter_hdlcParse hf)
    rw [hnr, toNat_advance_if]

end Sys2Proof.Machine

/-! Encoding and decoding as inverses (spec/30_encoding.md R53, R55, R57, R61): the four fields of an assembled word
read back, and a word that decodes is made of its opcode and its allowed bits. -/

namespace Sys2Proof

/-! ### The fields of an assembled word -/

section
variable (op : Opcode) (var : BitVec 2) (final : Bool) (imm : Byte)

/-- R53: OPC stands in [7:0]. -/
@[simp] theorem opcField_assembleWord : opcField (assembleWord op var final imm) = op.code := by
  ext i hi
  simp [opcField, assembleWord, hi, show i < 16 by omega, show i < 10 by omega, show i < 32 by omega]

/-- R53: VAR stands in [9:8]. -/
@[simp] theorem varField_assembleWord : varField (assembleWord op var final imm) = var := by
  ext i hi
  simp [varField, assembleWord, show 8 + i < 16 by omega, show 8 + i < 10 by omega, show 8 + i < 32 by omega,
    show i ≤ 1 by omega]

/-- R53: F stands in [10]. -/
@[simp] theorem finalField_assembleWord : finalField (assembleWord op var final imm) = final := by
  simp [finalField, assembleWord]

/-- R53: IMM8 stands in [23:16]. -/
@[simp] theorem imm8Field_assembleWord : imm8Field (assembleWord op var final imm) = imm := by
  ext i hi
  simp [imm8Field, assembleWord, show 16 + i < 32 by omega, BitVec.getLsbD_of_ge op.code (16 + i) (by omega),
    BitVec.getLsbD_of_ge var (16 + i - 8) (by omega), show 16 + i - 10 ≠ 0 by omega, hi]

end

/-! ### Decoding an encoded command -/

/-- A command's word holds its opcode. -/
theorem opcField_encode (i : Instr) : opcField (encode i) = i.opcode.code := by
  cases i <;> exact opcField_assembleWord ..

/-- A command's operands read back from its word. -/
theorem instr_encode (i : Instr) : i.opcode.instr (encode i) = i := by
  cases i <;> simp [Instr.opcode, Opcode.instr, encode]

/-- R55: every command's word matches its row of the table. -/
theorem encode_masked (i : Instr) : encode i &&& i.opcode.tableMask = i.opcode.tableMatch := by
  cases i with
  | nop => exact Laws.TableRow.nop
  | crcInit var => exact Laws.TableRow.crcInit var
  | crcUpdate => exact Laws.TableRow.crcUpdate
  | crcByte imm => exact Laws.TableRow.crcByte imm
  | crcCompute var => exact Laws.TableRow.crcCompute var
  | crcStore => exact Laws.TableRow.crcStore
  | crcVerify var => exact Laws.TableRow.crcVerify var
  | dnp3Blocks => exact Laws.TableRow.dnp3Blocks
  | hdlcReset => exact Laws.TableRow.hdlcReset
  | hdlcBuildSnrm => exact Laws.TableRow.hdlcBuildSnrm
  | hdlcSetConnected => exact Laws.TableRow.hdlcSetConnected
  | hdlcBuildIframe final => exact Laws.TableRow.hdlcBuildIframe final
  | hdlcParse => exact Laws.TableRow.hdlcParse

/-- Settles O3: the word of a command has its opcode and no stray bit, so step 4 of R57 reads the command back. -/
theorem encodeThenDecode : Obligations.EncodeThenDecode := by
  intro i hwf
  have hop : i.opcode.code = opcField (encode i) := (opcField_encode i).symm
  have hbits := (Opcode.masked_eq_match_iff hop).mp (encode_masked i)
  have hvar := Opcode.wellFormed_instr_iff.mp (by rwa [instr_encode])
  rw [decode_of_legal hop hbits hvar, instr_encode]

/-! ### Encoding a decoded command -/

/-- What a word that decodes is: the opcode is known, no bit is astray, and the command is the one its fields spell,
well-formed. -/
theorem decode_ok_iff {w : Word} {i : Instr} :
    decode w = .ok i ↔ ∃ op : Opcode, op.code = opcField w ∧
      w &&& ~~~(0x000000FF#32 ||| op.allowed) = 0 ∧ (op.instr w).wellFormed = true ∧ i = op.instr w := by
  constructor
  · intro h
    by_cases hop : ∃ op : Opcode, op.code = opcField w
    · obtain ⟨op, hop⟩ := hop
      rw [decode_of_opcode hop] at h
      split_ifs at h with hbits hwf
      exact ⟨op, hop, not_not.mp hbits, hwf, (Except.ok.inj h).symm⟩
    · rw [decode_of_no_opcode hop] at h
      cases h
  · rintro ⟨op, hop, hbits, hwf, rfl⟩
    exact decode_of_legal hop hbits (Opcode.wellFormed_instr_iff.mp hwf)

/-- A field of a word, put back in its place, is the word's bits there. -/
theorem setWidth_extractLsb'_shiftLeft (w : Word) (start len : Nat) :
    (w.extractLsb' start len).setWidth 32 <<< start = w &&& ((BitVec.allOnes len).setWidth 32 <<< start) := by
  ext i hi
  by_cases hlow : i < start
  · simp [hlow]
  · simp [hlow, show start + (i - start) = i by omega, ← BitVec.getLsbD_eq_getElem, hi,
      show i - start < 32 by omega, Bool.and_comm]

/-- F, put back in its place. -/
theorem ofBool_finalField_shiftLeft (w : Word) :
    (BitVec.ofBool (finalField w)).setWidth 32 <<< 10 = w &&& finalMask := by
  have hbit : BitVec.ofBool (finalField w) = w.extractLsb' 10 1 := by
    ext i hi
    simp [finalField, show i = 0 by omega]
  rw [hbit]
  exact setWidth_extractLsb'_shiftLeft w 10 1

/-- The command that an opcode reads from a word encodes to the opcode and the word's allowed bits. -/
theorem encode_instr (w : Word) (op : Opcode) : encode (op.instr w) = op.tableMatch ||| (w &&& op.allowed) := by
  cases op with
  | crcInit | crcCompute | crcVerify =>
    have hvar : (varField w).setWidth 32 <<< 8 = w &&& varMask := setWidth_extractLsb'_shiftLeft w 8 2
    simp [Opcode.instr, encode, assembleWord, Opcode.tableMatch, Opcode.allowed, hvar]
  | crcByte =>
    have himm : (imm8Field w).setWidth 32 <<< 16 = w &&& imm8Mask := setWidth_extractLsb'_shiftLeft w 16 8
    simp [Opcode.instr, encode, assembleWord, Opcode.tableMatch, Opcode.allowed, himm]
  | hdlcBuildIframe =>
    simp [Opcode.instr, encode, assembleWord, Opcode.tableMatch, Opcode.allowed, ofBool_finalField_shiftLeft]
  | _ => simp [Opcode.instr, encode, assembleWord, Opcode.tableMatch, Opcode.allowed]

/-- Settles O4: a word without stray bits is its opcode and its allowed bits, which is what its command encodes to. -/
theorem decodeThenEncode : Obligations.DecodeThenEncode := by
  intro w i h
  obtain ⟨op, hop, hbits, hwf, rfl⟩ := decode_ok_iff.mp h
  have hmatch : w &&& op.tableMask = op.tableMatch := (Opcode.masked_eq_match_iff hop).mpr hbits
  refine ⟨?_, hwf⟩
  calc encode (op.instr w)
      = (w &&& op.tableMask) ||| (w &&& op.allowed) := by rw [hmatch, encode_instr]
    _ = w := by
      have hmask : op.tableMask = ~~~op.allowed := BitVec.allOnes_and
      ext i hi
      cases hb : op.allowed[i] <;> simp [hmask, hb]

/-! ### The reserved opcodes -/

/-- The first step of R57 alone answers NotSupported. -/
theorem decode_eq_notSupported_iff {w : Word} :
    decode w = .error .notSupported ↔ ¬ ∃ op : Opcode, op.code = opcField w := by
  refine ⟨?_, decode_of_no_opcode⟩
  rintro h ⟨op, hop⟩
  rw [decode_of_opcode hop] at h
  split_ifs at h <;> cases h

/-- R58: the byte values that no row of R55 uses. -/
theorem Opcode.ofCode_eq_none_iff_reserved (b : BitVec 8) :
    Opcode.ofCode b = none ↔ (8 ≤ b.toNat ∧ b.toNat ≤ 15) ∨ 0x15 ≤ b.toNat := by
  revert b
  decide

/-- Settles O6: step 1 of R57 looks at the low byte alone. -/
theorem reservedOpcodesNotSupported : Obligations.ReservedOpcodesNotSupported := by
  intro w
  have hlow : (opcField w).toNat = w.toNat % 256 := by simp [opcField]
  rw [decode_eq_notSupported_iff, ← Opcode.ofCode_eq_none, Opcode.ofCode_eq_none_iff_reserved, hlow]

/-- Settles O1: each word is one computation of the decoder. -/
theorem specWordsDecode : Obligations.SpecWordsDecode := by
  unfold Obligations.SpecWordsDecode
  decide

end Sys2Proof

/-! Reading frames (spec/42_hdlc.md R90, R91, R106 to R108): what `VlqDecode` gives on every sequence, where the flag
scan puts a frame's start, which sequences are one frame, and that every frame the block builds is among them. -/

namespace Sys2Proof.Machine

/-! ### VlqDecode -/

/-- The 7-bit groups of the `k` bytes from `q` on, joined most significant first (R91). -/
def vlqValue (bs : List Byte) (q : Nat) : Nat → Nat
  | 0 => 0
  | k + 1 => vlqValue bs q k * 128 + (byteAt bs (q + k)).toNat / 2

theorem vlqValue_lt (bs : List Byte) (q k : Nat) : vlqValue bs q k < 128 ^ k := by
  induction k with
  | zero => exact Nat.one_pos
  | succ k ih =>
    have hbyte := (byteAt bs (q + k)).isLt
    rw [vlqValue, Nat.pow_succ]
    omega

/-- The joined groups as R91 sums them, each at its place. -/
theorem vlqValue_eq_sum (bs : List Byte) (q j : Nat) :
    vlqValue bs q (j + 1) =
      ((List.range (j + 1)).map fun k => (byteAt bs (q + k)).toNat / 2 * 128 ^ (j - k)).sum := by
  induction j with
  | zero => simp [vlqValue]
  | succ j ih =>
    have hshift (k : Nat) (hk : k ∈ List.range (j + 1)) :
        (byteAt bs (q + k)).toNat / 2 * 128 ^ (j + 1 - k) = (byteAt bs (q + k)).toNat / 2 * 128 ^ (j - k) * 128 := by
      rw [List.mem_range] at hk
      rw [Nat.succ_sub (by omega), Nat.pow_succ, Nat.mul_assoc]
    rw [vlqValue, ih, List.range_succ (n := j + 1), List.map_append, List.sum_append, List.map_congr_left hshift,
      List.sum_map_mul_right]
    simp

/-- One round of R91 joins a group, which does not overflow before the fifth. -/
theorem toNat_joinGroup (a : BitVec 28) (b : Byte) (h : a.toNat < 2 ^ 21) :
    ((a <<< 7) ||| (b >>> 1).setWidth 28).toNat = a.toNat * 128 + b.toNat / 2 := by
  have hgroup : ((b >>> 1).setWidth 28).toNat = b.toNat / 2 := by
    have := b.isLt
    rw [BitVec.toNat_setWidth, BitVec.toNat_ushiftRight, Nat.shiftRight_eq_div_pow, Nat.mod_eq_of_lt (by omega)]
  have hshift : (a <<< 7).toNat = a.toNat <<< 7 := by
    rw [BitVec.toNat_shiftLeft, Nat.mod_eq_of_lt]
    rw [Nat.shiftLeft_eq]
    omega
  have := b.isLt
  rw [BitVec.toNat_or, hgroup, hshift, ← Nat.shiftLeft_add_eq_or_of_lt (by omega), Nat.shiftLeft_eq]

/-- The loop of R91 stops at the first byte with bit 0 set. -/
theorem vlqDecodeLoop_of_end {bs : List Byte} {q lim j : Nat} (hlim : q + j < lim)
    (hend : (byteAt bs (q + j)).getLsbD 0 = true) {fuel j₀ : Nat} {a : BitVec 28} (hfuel : j₀ + fuel ≤ 4)
    (hle : j₀ ≤ j) (hlt : j < j₀ + fuel) (hmore : ∀ k, j₀ ≤ k → k < j → (byteAt bs (q + k)).getLsbD 0 = false)
    (ha : a.toNat = vlqValue bs q j₀) :
    ∃ x, vlqDecodeLoop bs q lim fuel j₀ a = some (x, j + 1) ∧ x.toNat = vlqValue bs q (j + 1) := by
  induction fuel generalizing j₀ a with
  | zero => omega
  | succ fuel ih =>
    have hsmall : vlqValue bs q j₀ < 2 ^ 21 :=
      (vlqValue_lt bs q j₀).trans_le (Nat.pow_le_pow_right (by decide) (by omega : j₀ ≤ 3))
    have hjoin : ((a <<< 7) ||| (byteAt bs (q + j₀) >>> 1).setWidth 28).toNat = vlqValue bs q (j₀ + 1) := by
      rw [toNat_joinGroup a _ (by omega), ha, vlqValue]
    rw [vlqDecodeLoop, if_neg (by omega)]
    rcases Nat.lt_or_eq_of_le hle with hbefore | rfl
    · simp only [hmore j₀ le_rfl hbefore, Bool.false_eq_true, if_false]
      exact ih (by omega) hbefore (by omega) (fun k hk => hmore k (by omega)) hjoin
    · simp only [hend, if_true]
      exact ⟨_, rfl, hjoin⟩

/-- The loop of R91 fails where no byte below the limit ends the address in time. -/
theorem vlqDecodeLoop_of_no_end {bs : List Byte} {q lim fuel j₀ : Nat} {a : BitVec 28}
    (h : ∀ k, j₀ ≤ k → k < j₀ + fuel → q + k < lim → (byteAt bs (q + k)).getLsbD 0 = false) :
    vlqDecodeLoop bs q lim fuel j₀ a = none := by
  induction fuel generalizing j₀ a with
  | zero => rfl
  | succ fuel ih =>
    rw [vlqDecodeLoop]
    split
    · rfl
    · simp only [h j₀ le_rfl (by omega) (by omega), Bool.false_eq_true, if_false]
      exact ih fun k hk hk' => h k (by omega) (by omega)

/-- R91: the address ends at the first byte with bit 0 set, at most the fourth. -/
theorem vlqDecode_of_end {bs : List Byte} {q lim j : Nat} (hj : j ≤ 3) (hlim : q + j < lim)
    (hmore : ∀ k, k < j → (byteAt bs (q + k)).getLsbD 0 = false) (hend : (byteAt bs (q + j)).getLsbD 0 = true) :
    ∃ x, vlqDecode bs q lim = some (x, j + 1) ∧ x.toNat = vlqValue bs q (j + 1) :=
  vlqDecodeLoop_of_end hlim hend (by omega) (Nat.zero_le j) (by omega) (fun k _ => hmore k) rfl

theorem getLsbD_zero_eq (b : Byte) : b.getLsbD 0 = decide (b.toNat % 2 = 1) := by
  simp [BitVec.getLsbD, Nat.testBit_zero]

/-- A byte of an address inside a longer sequence. -/
theorem toNat_byteAt_vlq (a : BitVec 28) (pre post : List Byte) {k : Nat} (hk : k < (vlq a).length) :
    (byteAt (pre ++ vlq a ++ post) (pre.length + k)).toNat =
      a.toNat / 128 ^ ((vlq a).length - 1 - k) % 128 * 2 + if k = (vlq a).length - 1 then 1 else 0 := by
  obtain ⟨-, -, -, -, hbytes⟩ := vlqEncoding.1 a
  rw [List.append_assoc, byteAt_append_right, byteAt_append_left _ _ _ hk, byteAt, List.getD_eq_getElem _ _ hk,
    hbytes k hk, Nat.pow_mul]

/-- The first `k` groups of an address join to its upper part. -/
theorem vlqValue_vlq (a : BitVec 28) (pre post : List Byte) {k : Nat} (hk : k ≤ (vlq a).length) :
    vlqValue (pre ++ vlq a ++ post) pre.length k = a.toNat / 128 ^ ((vlq a).length - k) := by
  induction k with
  | zero =>
    obtain ⟨-, -, hlt, -⟩ := vlqEncoding.1 a
    rw [Nat.pow_mul] at hlt
    exact (Nat.div_eq_of_lt hlt).symm
  | succ k ih =>
    obtain ⟨m, hm⟩ := Nat.exists_eq_add_of_lt hk
    rw [vlqValue, ih (by omega), toNat_byteAt_vlq a pre post hk, show (vlq a).length - k = m + 1 by omega,
      show (vlq a).length - 1 - k = m by omega, show (vlq a).length - (k + 1) = m by omega, Nat.pow_succ,
      ← Nat.div_div_eq_div_mul]
    split <;> omega

/-- R91: decoding an encoded address gives it back. -/
theorem vlqDecode_vlq (a : BitVec 28) (pre post : List Byte) {lim : Nat} (h : pre.length + (vlq a).length ≤ lim) :
    vlqDecode (pre ++ vlq a ++ post) pre.length lim = some (a, (vlq a).length) := by
  obtain ⟨hlow, hhigh, -⟩ := vlqEncoding.1 a
  have hbit {k : Nat} (hk : k < (vlq a).length) :
      (byteAt (pre ++ vlq a ++ post) (pre.length + k)).getLsbD 0 = decide (k = (vlq a).length - 1) := by
    rw [getLsbD_zero_eq, toNat_byteAt_vlq a pre post hk]
    split <;> simp [*]
  obtain ⟨x, hx, hval⟩ := vlqDecode_of_end (bs := pre ++ vlq a ++ post) (q := pre.length) (lim := lim)
    (j := (vlq a).length - 1) (by omega) (by omega)
    (fun k hk => by rw [hbit (by omega)]; exact decide_eq_false (by omega)) (by rw [hbit (by omega)]; simp)
  rw [Nat.sub_add_cancel hlow] at hx hval
  rw [vlqValue_vlq a pre post le_rfl, Nat.sub_self, Nat.pow_zero, Nat.div_one] at hval
  rw [hx, BitVec.eq_of_toNat_eq hval]

/-- Settles O25: encoded addresses by their groups, every other sequence by where the loop stops. -/
theorem vlqRoundTrip : Obligations.VlqRoundTrip := by
  refine ⟨fun a pre post lim => vlqDecode_vlq a pre post, fun bs q lim j hj hlim hmore hend => ?ends,
    fun bs q lim h => ?fails, by decide⟩
  case ends =>
    obtain ⟨x, hx, hval⟩ := vlqDecode_of_end hj hlim hmore hend
    exact ⟨x, hx, hval.trans (vlqValue_eq_sum bs q j)⟩
  case fails => exact vlqDecodeLoop_of_no_end fun k _ hk => h k (by omega)

/-! ### The bytes of a sequence -/

@[simp] theorem byteAt_cons_zero (b : Byte) (bs : List Byte) : byteAt (b :: bs) 0 = b := rfl

@[simp] theorem byteAt_cons_succ (b : Byte) (bs : List Byte) (k : Nat) : byteAt (b :: bs) (k + 1) = byteAt bs k := rfl

@[simp] theorem byteAt_drop (bs : List Byte) (i k : Nat) : byteAt (bs.drop i) k = byteAt bs (i + k) := by
  simp [byteAt, List.getD_eq_getElem?_getD]

/-- The last byte of a part of a sequence. -/
theorem byteAt_append_singleton (xs : List Byte) (b : Byte) (ys : List Byte) :
    byteAt (xs ++ [b] ++ ys) xs.length = b := by
  rw [List.append_assoc]
  exact byteAt_append_right xs ([b] ++ ys) 0

/-- Only a byte inside a sequence is a flag: past the end every byte counts as 0. -/
theorem lt_length_of_byteAt_eq_flag {bs : List Byte} {k : Nat} (h : byteAt bs k = flagByte) : k < bs.length := by
  by_contra hk
  rw [byteAt, List.getD_eq_default _ _ (Nat.not_lt.mp hk)] at h
  cases h

/-- A part of a sequence, cut out again. -/
theorem slice_append (xs ys zs : List Byte) : slice (xs ++ ys ++ zs) xs.length (xs.length + ys.length) = ys := by
  rw [slice, Nat.add_sub_cancel_left, List.append_assoc, List.drop_left, List.take_left]

/-! ### The flag scan -/

/-- R106: the first flag stands behind bytes that are none. -/
theorem firstFlag_of_byteAt {bs : List Byte} {i : Nat} (hbefore : ∀ k, k < i → byteAt bs k ≠ flagByte)
    (hflag : byteAt bs i = flagByte) : firstFlag bs = some i := by
  induction bs generalizing i with
  | nil => exact absurd (lt_length_of_byteAt_eq_flag hflag) (Nat.not_lt_zero i)
  | cons b bs ih =>
    rw [firstFlag]
    cases i with
    | zero => exact if_pos hflag
    | succ i =>
      have hrest : firstFlag bs = some i := ih (fun k hk => hbefore (k + 1) (by omega)) hflag
      rw [if_neg (show b ≠ flagByte from hbefore 0 i.succ_pos), hrest, Option.map_some]

/-- R106: without a flag there is no frame. -/
theorem firstFlag_of_no_flag {bs : List Byte} (h : ∀ k, k < bs.length → byteAt bs k ≠ flagByte) :
    firstFlag bs = none := by
  induction bs with
  | nil => rfl
  | cons b bs ih =>
    have hrest : firstFlag bs = none := ih fun k hk => h (k + 1) (by simpa using hk)
    rw [firstFlag, if_neg (show b ≠ flagByte from h 0 (by simp)), hrest, Option.map_none]

/-- R106: the run of flags ends at the first byte that is none. -/
theorem flagRun_of_byteAt {bs : List Byte} {n : Nat} (hrun : ∀ k, k < n → byteAt bs k = flagByte)
    (hend : byteAt bs n ≠ flagByte) : flagRun bs = n := by
  induction bs generalizing n with
  | nil =>
    cases n with
    | zero => rfl
    | succ n => exact absurd (lt_length_of_byteAt_eq_flag (hrun 0 n.succ_pos)) (Nat.not_lt_zero 0)
  | cons b bs ih =>
    rw [flagRun]
    cases n with
    | zero => exact if_neg hend
    | succ n =>
      have hrest : flagRun bs = n := ih (fun k hk => hrun (k + 1) (by omega)) hend
      rw [if_pos (show b = flagByte from hrun 0 n.succ_pos), hrest]

/-- R106: the frame starts at `p`, behind the run of flags that starts at `i`. -/
theorem parseFrame_of_start (P : Params) (v : Bool) {bs : List Byte} {i p : Nat} (hip : i < p)
    (hbefore : ∀ k, k < i → byteAt bs k ≠ flagByte) (hrun : ∀ k, i ≤ k → k < p → byteAt bs k = flagByte)
    (hend : byteAt bs p ≠ flagByte) : parseFrame P v bs = parseAt P v bs p := by
  have hfirst : firstFlag bs = some i := firstFlag_of_byteAt hbefore (hrun i le_rfl hip)
  have hflags : flagRun (bs.drop i) = p - i := by
    apply flagRun_of_byteAt
    · intro k hk
      rw [byteAt_drop]
      exact hrun (i + k) (by omega) (by omega)
    · rwa [byteAt_drop, Nat.add_sub_cancel' hip.le]
  simp only [parseFrame, hfirst, hflags, Nat.add_sub_cancel' hip.le]

/-! ### The format field -/

/-- R107: the format field, high byte first. -/
theorem toNat_fmtAt (bs : List Byte) (p : Nat) :
    (fmtAt bs p).toNat = 256 * (byteAt bs p).toNat + (byteAt bs (p + 1)).toNat := by
  have hlow := (byteAt bs (p + 1)).isLt
  rw [fmtAt, BitVec.or_comm, or_shiftLeft_eq_append, BitVec.toNat_append, ← Nat.shiftLeft_add_eq_or_of_lt hlow,
    Nat.shiftLeft_eq, Nat.mul_comm]

/-- R89: the length field is the low 11 bits. -/
theorem fmtLength_eq (fmt : BitVec 16) : fmtLength fmt = fmt.toNat % 2048 := by
  simp [fmtLength]

/-- R89: the frame type is the high 4 bits. -/
theorem toNat_fmtType (fmt : BitVec 16) : (fmtType fmt).toNat = fmt.toNat / 4096 := by
  have := fmt.isLt
  simp [fmtType, Nat.shiftRight_eq_div_pow]
  omega

/-- R107: the frame type as the first byte gives it. -/
theorem fmtType_fmtAt_iff (bs : List Byte) (p : Nat) :
    fmtType (fmtAt bs p) = 0xA#4 ↔ (byteAt bs p).toNat / 16 = 0xA := by
  have hlow := (byteAt bs (p + 1)).isLt
  rw [← BitVec.toNat_inj, toNat_fmtType, toNat_fmtAt]
  change _ = 10 ↔ _
  omega

/-- R107: the length field as the two bytes give it. -/
theorem fmtLength_fmtAt (bs : List Byte) (p : Nat) :
    fmtLength (fmtAt bs p) = (256 * (byteAt bs p).toNat + (byteAt bs (p + 1)).toNat) % 2048 := by
  rw [fmtLength_eq, toNat_fmtAt]

/-- A byte that starts a format field of type 0xA is no flag. -/
theorem ne_flag_of_type {b : Byte} (h : b.toNat / 16 = 0xA) : b ≠ flagByte := by
  rintro rfl
  cases h

/-- R95: the format field of a built frame, its two parts side by side. -/
theorem toNat_builtFormat {L : Nat} (h : L ≤ 2047) : (0xA000#16 ||| BitVec.ofNat 16 L).toNat = 0xA000 + L := by
  have hL : (BitVec.ofNat 16 L).toNat = L := Nat.mod_eq_of_lt (by omega)
  rw [BitVec.toNat_or, hL]
  exact (Nat.shiftLeft_add_eq_or_of_lt (b := L) (i := 12) (by omega) 10).symm

theorem fmtType_builtFormat {L : Nat} (h : L ≤ 2047) : fmtType (0xA000#16 ||| BitVec.ofNat 16 L) = 0xA#4 := by
  apply BitVec.eq_of_toNat_eq
  rw [toNat_fmtType, toNat_builtFormat h, BitVec.toNat_ofNat]
  omega

theorem fmtLength_builtFormat {L : Nat} (h : L ≤ 2047) : fmtLength (0xA000#16 ||| BitVec.ofNat 16 L) = L := by
  rw [fmtLength_eq, toNat_builtFormat h]
  omega

/-! ### The stages of the data stage -/

section
variable {P : Params} {v : Bool} {bs : List Byte} {p L h : Nat} {dst src : BitVec 28}

/-- R106: no room for the format field. -/
theorem parseAt_of_no_format (hlen : bs.length < p + 2) : parseAt P v bs p = .incomplete := if_pos hlen

/-- R107, check by check, in the bytes of the format field. -/
theorem parseAt_of_format (hlen : p + 2 ≤ bs.length)
    (hL : L = (256 * (byteAt bs p).toNat + (byteAt bs (p + 1)).toNat) % 2048) :
    parseAt P v bs p =
      if (byteAt bs p).toNat / 16 ≠ 0xA then .invalid p
      else if L < 7 then .invalid p
      else if bs.length < p + L + 1 then .incomplete
      else if byteAt bs (p + L) ≠ flagByte then .invalid p
      else parseAddresses P v bs p L := by
  simp only [parseAt, if_neg (Nat.not_lt.mpr hlen), fmtLength_fmtAt, ne_eq, fmtType_fmtAt_iff, ← hL]

/-- R107: every check on the format field and on the closing flag passed. -/
theorem parseAt_of_closed (htype : (byteAt bs p).toNat / 16 = 0xA)
    (hL : L = (256 * (byteAt bs p).toNat + (byteAt bs (p + 1)).toNat) % 2048) (hmin : 7 ≤ L)
    (hlen : p + L + 1 ≤ bs.length) (hflag : byteAt bs (p + L) = flagByte) :
    parseAt P v bs p = parseAddresses P v bs p L := by
  rw [parseAt_of_format (by omega) hL, if_neg (not_not.mpr htype), if_neg (Nat.not_lt.mpr hmin),
    if_neg (Nat.not_lt.mpr hlen), if_neg (not_not.mpr hflag)]

/-- The destination address does not decode. -/
theorem parseAddresses_of_no_dst (hdst : vlqDecode bs (p + 2) (p + L) = none) :
    parseAddresses P v bs p L = .invalid p := by
  simp only [parseAddresses, hdst]

/-- The source address does not decode. -/
theorem parseAddresses_of_no_src {kd : Nat} (hdst : vlqDecode bs (p + 2) (p + L) = some (dst, kd))
    (hsrc : vlqDecode bs (p + 2 + kd) (p + L) = none) : parseAddresses P v bs p L = .invalid p := by
  simp only [parseAddresses, hdst, hsrc]

/-- Both addresses decode: the header has `h` bytes. -/
theorem parseAddresses_of_header {kd ks : Nat} (hdst : vlqDecode bs (p + 2) (p + L) = some (dst, kd))
    (hsrc : vlqDecode bs (p + 2 + kd) (p + L) = some (src, ks)) (hh : h = 2 + kd + ks + 1) :
    parseAddresses P v bs p L = if L < h + 2 then .invalid p else parseTail P v bs p L dst src h := by
  simp only [parseAddresses, hdst, hsrc, hh]

/-- R108: a header, its CRC and one byte more are no form of a frame. -/
theorem parseTail_of_odd_length (hL : L = h + 3) : parseTail P v bs p L dst src h = .invalid p :=
  if_pos (by omega)

/-- R108: the CRC over the header does not match. -/
theorem parseTail_of_bad_header (hv : v = true) (hL : L ≠ h + 3) (hle : h + 2 ≤ L)
    (hcrc : crc P .ccitt (slice bs p (p + h)) ≠ rdle16 bs (p + h)) : parseTail P v bs p L dst src h = .badCrc p := by
  have hbad : (v && !crcMatches P bs p (p + h)) = true := by simp [hv, crcMatches, hcrc]
  rw [parseTail, if_neg (by omega), if_pos hbad]

/-- R108: the CRC from the format field through the payload does not match. -/
theorem parseTail_of_bad_body (hv : v = true) (hL : h + 4 ≤ L)
    (hcrc : crc P .ccitt (slice bs p (p + L - 2)) ≠ rdle16 bs (p + L - 2)) :
    parseTail P v bs p L dst src h = .badCrc p := by
  have hend : p + h + 2 + (L - h - 4) = p + L - 2 := by omega
  have hbad : (v && !crcMatches P bs p (p + h + 2 + (L - h - 4))) = true := by simp [hv, crcMatches, hend, hcrc]
  rw [parseTail, if_neg (show L - h ≠ 3 by omega), if_neg (show L - h ≠ 2 by omega), if_pos hbad, ite_self]

/-- The check on the header's CRC passes, or is not made. -/
theorem not_bad_of_crc {e : Nat} (hcrc : v = true → crc P .ccitt (slice bs p e) = rdle16 bs e) :
    ¬ (v && !crcMatches P bs p e) = true := by
  cases v with
  | false => exact Bool.false_ne_true
  | true => simp [crcMatches, hcrc rfl]

/-- R108, R113: a short form. -/
theorem parseTail_of_short (hL : L = h + 2)
    (hcrc : v = true → crc P .ccitt (slice bs p (p + h)) = rdle16 bs (p + h)) :
    parseTail P v bs p L dst src h = .frame {
      fmt := fmtAt bs p, dst := dst, src := src, ctrl := byteAt bs (p + h - 1), info := false,
      payOff := p + h + 2, payLen := 0, consumed := p + L } := by
  rw [parseTail, if_neg (by omega), if_neg (not_bad_of_crc hcrc), if_pos (by omega)]

/-- R108, R113: an info form. -/
theorem parseTail_of_info (hL : h + 4 ≤ L)
    (hheader : v = true → crc P .ccitt (slice bs p (p + h)) = rdle16 bs (p + h))
    (hbody : v = true → crc P .ccitt (slice bs p (p + L - 2)) = rdle16 bs (p + L - 2)) :
    parseTail P v bs p L dst src h = .frame {
      fmt := fmtAt bs p, dst := dst, src := src, ctrl := byteAt bs (p + h - 1), info := true,
      payOff := p + h + 2, payLen := L - h - 4, consumed := p + L } := by
  have hend : p + h + 2 + (L - h - 4) = p + L - 2 := by omega
  rw [parseTail, if_neg (by omega), if_neg (not_bad_of_crc hheader), if_neg (by omega), hend,
    if_neg (not_bad_of_crc hbody)]

end

/-- Settles O39: the flag scan finds `p`, the format field, the closing flag and the addresses pass their checks, and
the length decides the form. -/
theorem parseFrameAccepts : Obligations.ParseFrameAccepts := by
  intro P verify bs i p L kd ks h dst src hip hbefore hrun htype hL hmin hlen hflag hdst hsrc hh hheader
  have hparse : h + 2 ≤ L → parseFrame P verify bs = parseTail P verify bs p L dst src h := fun hle => by
    rw [parseFrame_of_start P verify hip hbefore hrun (ne_flag_of_type htype),
      parseAt_of_closed htype hL hmin hlen hflag, parseAddresses_of_header hdst hsrc hh, if_neg (Nat.not_lt.mpr hle)]
  refine ⟨fun hshort => ?short, fun hinfo hbody => ?info⟩
  case short => rw [hparse hshort.ge, parseTail_of_short hshort hheader]
  case info => rw [hparse (by omega), parseTail_of_info hinfo hheader hbody]

/-! ### Built frames are read back -/

/-- R95: the header of a built frame, read back from behind the opening flag. -/
theorem header_reads_back (xs ys : List Byte) (dst src : BitVec 28) {L h lim : Nat} (c : Byte)
    (hh : h = (vlq dst).length + (vlq src).length + 3) (hlim : xs.length + h ≤ lim) :
    fmtAt (xs ++ frameHeader dst src L c ++ ys) xs.length = 0xA000#16 ||| BitVec.ofNat 16 L ∧
    vlqDecode (xs ++ frameHeader dst src L c ++ ys) (xs.length + 2) lim = some (dst, (vlq dst).length) ∧
    vlqDecode (xs ++ frameHeader dst src L c ++ ys) (xs.length + 2 + (vlq dst).length) lim =
      some (src, (vlq src).length) ∧
    byteAt (xs ++ frameHeader dst src L c ++ ys) (xs.length + h - 1) = c := by
  have hfmt := fmtAt_be16 xs (vlq dst ++ vlq src ++ [c] ++ ys) (0xA000#16 ||| BitVec.ofNat 16 L)
  have hdst := vlqDecode_vlq dst (xs ++ be16 (0xA000#16 ||| BitVec.ofNat 16 L)) (vlq src ++ [c] ++ ys) (lim := lim)
    (by simp; omega)
  have hsrc := vlqDecode_vlq src (xs ++ be16 (0xA000#16 ||| BitVec.ofNat 16 L) ++ vlq dst) ([c] ++ ys) (lim := lim)
    (by simp; omega)
  have hctrl := byteAt_append_singleton (xs ++ be16 (0xA000#16 ||| BitVec.ofNat 16 L) ++ vlq dst ++ vlq src) c ys
  simp only [List.length_append, length_be16] at hdst hsrc hctrl
  rw [show xs.length + h - 1 = xs.length + 2 + (vlq dst).length + (vlq src).length by omega]
  simp only [frameHeader, List.append_assoc] at hfmt hdst hsrc hctrl ⊢
  exact ⟨hfmt, hdst, hsrc, hctrl⟩

/-- A built frame behind flagless bytes: the data stage reads its header and goes on with its tail. -/
theorem parseFrame_of_header (P : Params) (v : Bool) {pre ys : List Byte} (hpre : ∀ b ∈ pre, b ≠ 0x7E)
    {dst src : BitVec 28} {L h : Nat} {c : Byte} (hh : h = (vlq dst).length + (vlq src).length + 3)
    (hle : h + 2 ≤ L) (hmax : L ≤ 2047) (hflag : byteAt ys (L - h) = flagByte) :
    parseFrame P v (pre ++ [flagByte] ++ frameHeader dst src L c ++ ys) =
      parseTail P v (pre ++ [flagByte] ++ frameHeader dst src L c ++ ys) (pre.length + 1) L dst src h := by
  obtain ⟨hdlow, -⟩ := vlqLen_bounds dst
  obtain ⟨hslow, -⟩ := vlqLen_bounds src
  rw [← length_vlq] at hdlow hslow
  have hp : (pre ++ [flagByte]).length = pre.length + 1 := List.length_append
  have hlen : (pre ++ [flagByte] ++ frameHeader dst src L c).length = pre.length + 1 + h := by simp [hh]; omega
  obtain ⟨hfmt, hdst, hsrc, -⟩ := header_reads_back (pre ++ [flagByte]) ys dst src (L := L)
    (lim := pre.length + 1 + L) c hh (by omega)
  have hclose := byteAt_append_right (pre ++ [flagByte] ++ frameHeader dst src L c) ys (L - h)
  rw [hlen, hflag, show pre.length + 1 + h + (L - h) = pre.length + 1 + L by omega] at hclose
  rw [hp] at hfmt hdst hsrc
  have htype := (fmtType_fmtAt_iff _ _).mp ((congrArg fmtType hfmt).trans (fmtType_builtFormat hmax))
  have hL := (fmtLength_fmtAt _ _).symm.trans ((congrArg fmtLength hfmt).trans (fmtLength_builtFormat hmax))
  rw [parseFrame_of_start P v (Nat.lt_succ_self pre.length) ?before ?run (ne_flag_of_type htype),
    parseAt_of_closed htype hL.symm (by omega) (lt_length_of_byteAt_eq_flag hclose) hclose,
    parseAddresses_of_header (h := h) hdst hsrc (by omega), if_neg (by omega)]
  case before =>
    intro k hk
    rw [List.append_assoc, List.append_assoc, byteAt_append_left _ _ _ hk, byteAt, List.getD_eq_getElem _ _ hk]
    exact hpre _ (List.getElem_mem hk)
  case run =>
    intro k hk hk'
    rw [show k = pre.length by omega, List.append_assoc, byteAt_append_singleton]

/-- A check sequence that the block fills matches (R96, R97, R104). -/
theorem crc_eq_of_filled (P : Params) (xs body ys : List Byte) {e : Nat} (he : e = xs.length + body.length) :
    crc P .ccitt (slice (xs ++ body ++ (le16 (crc P .ccitt body) ++ ys)) xs.length e) =
      rdle16 (xs ++ body ++ (le16 (crc P .ccitt body) ++ ys)) e := by
  have hread := rdle16_le16 (xs ++ body) ys (crc P .ccitt body)
  rw [List.length_append, List.append_assoc (xs ++ body)] at hread
  rw [he, hread, slice_append]

/-- Settles O28: behind the header stand its CRC and the closing flag. -/
theorem shortFrameParses : Obligations.ShortFrameParses := by
  intro P verify pre post dst src c hpre
  obtain ⟨-, hdst⟩ := vlqLen_bounds dst
  obtain ⟨-, hsrc⟩ := vlqLen_bounds src
  rw [← length_vlq] at hdst hsrc
  have hp : (pre ++ [flagByte]).length = pre.length + 1 := List.length_append
  have hbytes : pre ++ shortFrame P dst src c ++ post =
      pre ++ [flagByte] ++ frameHeader dst src (shortLen dst src) c ++
        (le16 (crc P .ccitt (frameHeader dst src (shortLen dst src) c)) ++ ([flagByte] ++ post)) := by
    simp only [shortFrame, List.append_assoc]
  have hL : shortLen dst src = (vlq dst).length + (vlq src).length + 3 + 2 := rfl
  obtain ⟨hfmt, -, -, hctrl⟩ := header_reads_back (pre ++ [flagByte])
    (le16 (crc P .ccitt (frameHeader dst src (shortLen dst src) c)) ++ ([flagByte] ++ post)) dst src
    (L := shortLen dst src) c rfl le_rfl
  have hcrc := crc_eq_of_filled P (pre ++ [flagByte]) (frameHeader dst src (shortLen dst src) c) ([flagByte] ++ post)
    (e := pre.length + 1 + ((vlq dst).length + (vlq src).length + 3)) (by rw [hp, length_frameHeader])
  rw [hp] at hfmt hctrl hcrc
  rw [hbytes, parseFrame_of_header P verify hpre rfl hL.ge (by omega) (by rw [hL, Nat.add_sub_cancel_left]; rfl),
    parseTail_of_short hL fun _ => hcrc, hfmt, hctrl]
  rfl

/-- A filled info frame as its body, the CRC of that and the closing flag (R97). -/
theorem append_infoFrame_by_body (P : Params) (pre post : List Byte) {dst src : BitVec 28} {c : Byte}
    {payload body : List Byte} (hbody : infoBody P true dst src c payload = body) :
    pre ++ infoFrame P true dst src c payload ++ post =
      pre ++ [flagByte] ++ body ++ (le16 (crc P .ccitt body) ++ ([flagByte] ++ post)) := by
  simp only [infoFrame, hbody, checkSequence, if_true, List.append_assoc]

/-- A filled info frame as its header, the CRC of that, and the rest (R96). -/
theorem append_infoFrame_by_header (P : Params) (pre post : List Byte) {dst src : BitVec 28} {c : Byte}
    {payload body hdr : List Byte} (hbody : infoBody P true dst src c payload = body)
    (hhdr : frameHeader dst src (infoLen dst src payload.length) c = hdr) :
    pre ++ infoFrame P true dst src c payload ++ post =
      pre ++ [flagByte] ++ hdr ++
        (le16 (crc P .ccitt hdr) ++ (payload ++ le16 (crc P .ccitt body) ++ [flagByte] ++ post)) := by
  rw [append_infoFrame_by_body P pre post hbody, ← hbody]
  simp only [infoBody, hhdr, checkSequence, if_true, List.append_assoc]

/-- Settles O27: behind the header stand its CRC, the payload, the CRC of all that, and the closing flag. -/
theorem infoFrameParses : Obligations.InfoFrameParses := by
  intro P verify pre post dst src c payload hpre hmax
  have hp : (pre ++ [flagByte]).length = pre.length + 1 := List.length_append
  have hL : infoLen dst src payload.length = (vlq dst).length + (vlq src).length + 7 + payload.length := rfl
  have htail : infoLen dst src payload.length - ((vlq dst).length + (vlq src).length + 3) = 2 + payload.length + 2 := by
    omega
  generalize hbody : infoBody P true dst src c payload = body
  have hbodylen : body.length = (vlq dst).length + (vlq src).length + 5 + payload.length := by
    rw [← hbody, length_infoBody]
  have hbytes := append_infoFrame_by_header P pre post hbody rfl
  have hbodycrc := crc_eq_of_filled P (pre ++ [flagByte]) body ([flagByte] ++ post)
    (e := pre.length + 1 + infoLen dst src payload.length - 2) (by rw [hp, hbodylen, hL]; omega)
  have hhdrcrc := crc_eq_of_filled P (pre ++ [flagByte]) (frameHeader dst src (infoLen dst src payload.length) c)
    (payload ++ le16 (crc P .ccitt body) ++ [flagByte] ++ post)
    (e := pre.length + 1 + ((vlq dst).length + (vlq src).length + 3)) (by rw [hp, length_frameHeader])
  obtain ⟨hfmt, -, -, hctrl⟩ := header_reads_back (pre ++ [flagByte]) _ dst src
    (L := infoLen dst src payload.length) c rfl le_rfl
  rw [hp] at hfmt hctrl hhdrcrc hbodycrc
  rw [← append_infoFrame_by_body P pre post hbody, hbytes] at hbodycrc
  rw [hbytes, parseFrame_of_header P verify hpre rfl (by omega) (by omega) ?flag,
    parseTail_of_info (by omega) (fun _ => hhdrcrc) (fun _ => hbodycrc), hfmt, hctrl, htail, hL]
  case flag =>
    have hflag := byteAt_append_singleton
      (le16 (crc P .ccitt (frameHeader dst src (infoLen dst src payload.length) c)) ++ payload ++
        le16 (crc P .ccitt body)) flagByte post
    simp only [List.length_append, length_le16] at hflag
    rw [htail]
    simpa only [List.append_assoc] using hflag
  congr 2
  omega

/-! ### Accepted frames -/

/-- R107: what an accepted frame passed before its tail is read. -/
theorem parseTail_of_parseAt_frame {P : Params} {v : Bool} {bs : List Byte} {p : Nat} {f : RxFrame}
    (h : parseAt P v bs p = .frame f) :
    ∃ dst src m, m + 2 ≤ fmtLength (fmtAt bs p) ∧
      parseTail P v bs p (fmtLength (fmtAt bs p)) dst src m = .frame f := by
  simp only [parseAt, parseAddresses] at h
  split_ifs at h
  split at h
  · cases h
  · split at h
    · cases h
    · split_ifs at h with hlen
      exact ⟨_, _, _, Nat.not_lt.mp hlen, h⟩

/-- R108: with the checks on, a tail is accepted only if its check sequences match. -/
theorem crcs_of_parseTail_frame {P : Params} {bs : List Byte} {p L m : Nat} {dst src : BitVec 28} {f : RxFrame}
    (h : parseTail P true bs p L dst src m = .frame f) :
    crc P .ccitt (slice bs p (p + m)) = rdle16 bs (p + m) ∧
    (f.info = true → crc P .ccitt (slice bs p (p + m + 2 + f.payLen)) = rdle16 bs (p + m + 2 + f.payLen)) := by
  simp only [parseTail, Bool.true_and, Bool.not_eq_true', crcMatches, decide_eq_false_iff_not] at h
  split_ifs at h with hodd hhdr hshort hbody
  · cases h
    exact ⟨hhdr, nofun⟩
  · cases h
    exact ⟨hhdr, fun _ => hbody⟩

/-- Settles O29, by inverting the stages in their order. -/
theorem acceptedFrameCrcsMatch : Obligations.AcceptedFrameCrcsMatch := by
  intro P bs f h
  cases hflag : firstFlag bs with
  | none => simp [parseFrame, hflag] at h
  | some i =>
    simp only [parseFrame, hflag] at h
    obtain ⟨dst, src, m, hlen, htail⟩ := parseTail_of_parseAt_frame h
    obtain ⟨hhdr, hbody⟩ := crcs_of_parseTail_frame htail
    rcases parseTail_cases htail hlen with hinv | hbad | ⟨g, hg, hfmt, -, -, hctrl, hend, hpay, hinfo, hshort⟩
    · cases hinv
    · cases hbad
    · cases hg
      refine ⟨i, _, m, rfl, rfl, hpay, by rw [hend, hfmt], hfmt, hctrl, hhdr, fun hform => ?short, fun hform => ?info⟩
      case short =>
        obtain ⟨hempty, hL⟩ := hshort hform
        exact ⟨by rw [hfmt, hL], hempty⟩
      case info =>
        have hL := hinfo hform
        exact ⟨by rw [hfmt]; omega, hbody hform⟩

end Sys2Proof.Machine

/-! What a command can answer, said once for all thirteen (spec/40_common.md R65 to R69), and the rules over all
commands that follow from it: the window of a BufferTooSmall failure, the result codes of
spec/60_exceptions.md R115, and the registers no command writes. -/

namespace Sys2Proof.Machine

/-! ### Every next state of an answer -/

/-- Where the answer is a next state, it satisfies `Q`. -/
def AllNext (Q : State → Prop) (r : Result) : Prop := ∀ t, r = .next t → Q t

section
variable {Q : State → Prop} {c : Prop} [Decidable c] {r r' : Result} {s : State}

theorem AllNext.complete (h : Q (s.withErr .ok)) : AllNext Q (complete s) := by
  intro t ht
  rwa [complete_next.mp ht]

theorem AllNext.raise {e : ResultCode} (h : Q (s.withErr e)) : AllNext Q (raise s e) := by
  intro t ht
  rwa [raise_next.mp ht]

theorem AllNext.raiseTooSmall {a n : Nat} (h : Q ((s.unspecify a n).withErr .bufferTooSmall)) :
    AllNext Q (raiseTooSmall s a n) := by
  intro t ht
  rwa [raiseTooSmall_next.mp ht]

theorem AllNext.ite (h : c → AllNext Q r) (h' : ¬ c → AllNext Q r') : AllNext Q (if c then r else r') := by
  split
  · exact h ‹_›
  · exact h' ‹_›

/-- A stage that checks one condition (R65): its own code where the check fails, and the later stages otherwise. -/
theorem AllNext.check {e : ResultCode} (he : Q (s.withErr e)) (h : ¬ c → AllNext Q r) :
    AllNext Q (if c then Machine.raise s e else r) :=
  .ite (fun _ => .raise he) h

end

/-! ### The answers -/

/-- The commands that write the CRC registers (spec/70_reset_and_hazards.md R135). -/
def writesCrc : Instr → Bool
  | .crcInit _ | .crcUpdate | .crcByte _ | .crcCompute _ => true
  | _ => false

/-- What a command can leave, with what its stages have checked by then: its selector is illegal; a code its row of
R115 marks; a rejected frame; a spoiled window; or one of its successes. -/
inductive Answers (s : State) : Instr → State → Prop where
  | illegal {i : Instr} (hi : i.wellFormed = false) : Answers s i (s.withErr .invalidArg)
  | code {i : Instr} {e : ResultCode} (he : canEnd i.opcode e = true) (hne : e ≠ .bufferTooSmall) :
      Answers s i (s.withErr e)
  | rejected {p : Nat} {e : ResultCode} (he : e = .invalidFrame ∨ e = .checksum)
      (hp : p ≤ s.params.bufSize) : Answers s .hdlcParse ((s.withConsumed p).withErr e)
  | tooSmall {i : Instr} {a n : Nat} (hwin : (a, n) = spoiledWindow s i.opcode)
      (hi : canEnd i.opcode .bufferTooSmall = true) (hn : n = 0 ∨ a + n ≤ s.params.bufSize) :
      Answers s i ((s.unspecify a n).withErr .bufferTooSmall)
  | crc {i : Instr} (hi : writesCrc i = true) (v : CrcVar) (c : BitVec 16) :
      Answers s i ((s.withCrc v c).withErr .ok)
  | output {i : Instr} (hi : i = .crcStore ∨ i = .dnp3Blocks) (bs : List Byte)
      (hfit : s.dstAddr.toNat + bs.length ≤ s.params.bufSize) : Answers s i ((s.emit bs).withErr .ok)
  | disconnected : Answers s .hdlcReset ((s.restartLink .disconnected).withErr .ok)
  | connecting (hfit : s.dstAddr.toNat + s.snrmFrame.length ≤ s.params.bufSize) :
      Answers s .hdlcBuildSnrm (((s.emit s.snrmFrame).restartLink .connecting).withErr .ok)
  | connected (hlink : s.link = .connecting) :
      Answers s .hdlcSetConnected (State.withErr { s with link := .connected } .ok)
  | built (final : Bool) (hlink : s.link = .connected)
      (hfit : s.dstAddr.toNat + (s.iframe final).length ≤ s.params.bufSize) :
      Answers s (.hdlcBuildIframe final) (((s.emit (s.iframe final)).countBuilt final).withErr .ok)
  | received {f : RxFrame} (hsrc : s.srcInRange) (hf : parseFrame s.params s.verifyCrc s.srcBytes = .frame f) :
      Answers s .hdlcParse ((s.receive f).withErr .ok)
  | counted {f : RxFrame} (hsrc : s.srcInRange) (hf : parseFrame s.params s.verifyCrc s.srcBytes = .frame f)
      (hlink : s.link = .connected) : Answers s .hdlcParse (((s.countFrame f.ctrl).receive f).withErr .ok)
  | appended {f : RxFrame} (hsrc : s.srcInRange) (hf : parseFrame s.params s.verifyCrc s.srcBytes = .frame f)
      (hlink : s.link = .connected)
      (hfit : s.reasmBase.toNat + (s.reasmStart + (f.payload s.srcBytes).length) ≤ s.params.bufSize) :
      Answers s .hdlcParse
        (((s.append s.reasmStart (f.payload s.srcBytes) (finalBit f.ctrl)).countFrame f.ctrl).receive f |>.withErr .ok)

theorem canEnd_ok (op : Opcode) : canEnd op .ok = true := by cases op <;> rfl

/-- A selector that names no variant makes the command ill-formed. -/
theorem legalVar_of_selectVar_none {var : BitVec 2} (h : selectVar var = none) : legalVar var = false := by
  rw [← selectVar_isSome, h]
  rfl

section
variable (s : State)

/-- The failure of the output commands in a destination range inside BUF. -/
theorem Answers.outputTooSmall {s : State} {i : Instr} (hdst : s.dstInRange)
    (hi : canEnd i.opcode .bufferTooSmall = true) (hparse : i ≠ .hdlcParse) :
    AllNext (Answers s i) (raiseOutputTooSmall s) := by
  refine .raiseTooSmall (.tooSmall ?_ hi (.inr hdst))
  cases i with
  | hdlcParse => exact absurd rfl hparse
  | _ => rfl

theorem execCrcInit_answers (var : BitVec 2) : AllNext (Answers s (.crcInit var)) (execCrcInit var s) := by
  unfold execCrcInit
  split
  · next h => exact .raise (.illegal (legalVar_of_selectVar_none h))
  · exact .complete (.crc rfl _ _)

theorem execCrcUpdate_answers : AllNext (Answers s .crcUpdate) (execCrcUpdate s) :=
  .check (.code rfl nofun) fun _ => .complete (.crc rfl _ _)

theorem execCrcCompute_answers (var : BitVec 2) : AllNext (Answers s (.crcCompute var)) (execCrcCompute var s) := by
  unfold execCrcCompute
  split
  · next h => exact .raise (.illegal (legalVar_of_selectVar_none h))
  · exact .check (.code rfl nofun) fun _ => .complete (.crc rfl _ _)

theorem execCrcStore_answers : AllNext (Answers s .crcStore) (execCrcStore s) := by
  refine .check (.code rfl nofun) fun hdst =>
    .ite (fun _ => .outputTooSmall (not_not.mp hdst) rfl nofun) fun hcap => .complete (.output (.inl rfl) _ ?_)
  have hin : s.dstAddr.toNat + s.dstCap.toNat ≤ s.params.bufSize := not_not.mp hdst
  rw [length_le16]
  omega

theorem execCrcVerify_answers (var : BitVec 2) : AllNext (Answers s (.crcVerify var)) (execCrcVerify var s) := by
  unfold execCrcVerify
  split
  · next h => exact .raise (.illegal (legalVar_of_selectVar_none h))
  · exact .check (.code rfl nofun) fun _ => .check (.code rfl nofun) fun _ => .complete (.code rfl nofun)

theorem execDnp3Blocks_answers : AllNext (Answers s .dnp3Blocks) (execDnp3Blocks s) := by
  refine .check (.code rfl nofun) fun _ => .check (.code rfl nofun) fun hdst =>
    .ite (fun _ => .outputTooSmall (not_not.mp hdst) rfl nofun) fun hcap => .complete (.output (.inr rfl) _ ?_)
  rw [length_dnp3Layout, s.length_srcBytes]
  have hin : s.dstAddr.toNat + s.dstCap.toNat ≤ s.params.bufSize := not_not.mp hdst
  omega

theorem execHdlcBuildSnrm_answers : AllNext (Answers s .hdlcBuildSnrm) (execHdlcBuildSnrm s) := by
  refine .check (.code rfl nofun) fun hdst =>
    .ite (fun _ => .outputTooSmall (not_not.mp hdst) rfl nofun) fun hcap => .complete (.connecting ?_)
  have hin : s.dstAddr.toNat + s.dstCap.toNat ≤ s.params.bufSize := not_not.mp hdst
  have hlen : s.snrmFrame.length = shortLen s.serverAddr s.clientAddr + 2 := length_shortFrame ..
  omega

theorem execHdlcBuildIframe_answers (final : Bool) :
    AllNext (Answers s (.hdlcBuildIframe final)) (execHdlcBuildIframe final s) := by
  refine .check (.code rfl nofun) fun hlink => .check (.code rfl nofun) fun _ => .check (.code rfl nofun) fun hdst =>
    .check (.code rfl nofun) fun _ => .check (.code rfl nofun) fun _ =>
    .ite (fun _ => .outputTooSmall (not_not.mp hdst) rfl nofun) fun hcap => ?fits
  have hin : s.dstAddr.toNat + s.dstCap.toNat ≤ s.params.bufSize := not_not.mp hdst
  have hlen : (s.iframe final).length = infoLen s.serverAddr s.clientAddr s.srcLen.toNat + 2 := by
    rw [State.iframe, length_infoFrame, s.length_srcBytes]
  have hbuilt := Answers.built (s := s) final (not_not.mp hlink) (by omega)
  cases final with
  | false => exact .complete hbuilt
  | true => exact .complete hbuilt

/-- Stages 6 and 7 of HDLC_PARSE; a region in use is inside BUF by stage 3. -/
theorem acceptFrame_answers {f : RxFrame} (hsrc : s.srcInRange) (hreasm : s.reassembling = true → s.reasmInRange)
    (hf : parseFrame s.params s.verifyCrc s.srcBytes = .frame f) :
    AllNext (Answers s .hdlcParse) (acceptFrame s s.srcBytes f) := by
  have hregion (hlink : s.link = .connected) (hcap : s.reasmCap ≠ 0) :
      s.reasmBase.toNat + s.reasmCap.toNat ≤ s.params.bufSize :=
    hreasm (by simpa [State.reassembling, hlink] using hcap)
  intro t h
  rcases acceptFrame_cases h with
    ⟨-, rfl⟩ | ⟨hlink, -, -, rfl⟩ | ⟨hlink, -, hcap, hfit, rfl⟩ | ⟨hlink, -, hcap, -, rfl⟩
  · exact .received hsrc hf
  · exact .counted hsrc hf hlink
  · have hin := hregion hlink hcap
    have hlen : (f.payload s.srcBytes).length ≤ f.payLen := by simp [RxFrame.payload, slice]
    exact .appended hsrc hf hlink (by omega)
  · have hin := hregion hlink hcap
    exact .tooSmall rfl rfl (by omega)

theorem execHdlcParse_answers : AllNext (Answers s .hdlcParse) (execHdlcParse s) := by
  refine .check (.code rfl nofun) fun hsrc => .check (.code rfl nofun) fun hreasm => ?data
  have hin : s.srcAddr.toNat + s.srcLen.toNat ≤ s.params.bufSize := not_not.mp hsrc
  have hstart {p : Nat} (h : parseFrame s.params s.verifyCrc s.srcBytes = .invalid p ∨
      parseFrame s.params s.verifyCrc s.srcBytes = .badCrc p) : p ≤ s.params.bufSize := by
    have hcases := parseFrame_cases (P := s.params) (v := s.verifyCrc) (bs := s.srcBytes) rfl
    rw [s.length_srcBytes] at hcases
    rcases h with h | h
    all_goals
      simp only [h, reduceCtorEq, false_or, or_false, false_and, exists_false] at hcases
      obtain ⟨q, hq, hle⟩ := hcases
      cases hq
      omega
  split
  · exact .raise (.code rfl nofun)
  · next h => exact .raise (.rejected (.inl rfl) (hstart (.inl h)))
  · next h => exact .raise (.rejected (.inr rfl) (hstart (.inr h)))
  · next h => exact acceptFrame_answers s hin (fun hr => not_not.mp fun hout => hreasm ⟨hr, hout⟩) h

/-- Every command answers one of these. -/
theorem exec_answers (i : Instr) : AllNext (Answers s i) (exec i s) := by
  cases i with
  | nop => exact .complete (.code rfl nofun)
  | crcInit var => exact execCrcInit_answers s var
  | crcUpdate => exact execCrcUpdate_answers s
  | crcByte imm => exact .complete (.crc rfl _ _)
  | crcCompute var => exact execCrcCompute_answers s var
  | crcStore => exact execCrcStore_answers s
  | crcVerify var => exact execCrcVerify_answers s var
  | dnp3Blocks => exact execDnp3Blocks_answers s
  | hdlcReset => exact .complete .disconnected
  | hdlcBuildSnrm => exact execHdlcBuildSnrm_answers s
  | hdlcSetConnected => exact .check (.code rfl nofun) fun hlink => .complete (.connected (not_not.mp hlink))
  | hdlcBuildIframe final => exact execHdlcBuildIframe_answers s final
  | hdlcParse => exact execHdlcParse_answers s

end

/-! ### Every command ends -/

/-- A CRC command whose selector is 3 fails before it reads anything (log entry 10). -/
theorem exec_of_not_wellFormed {i : Instr} (h : i.wellFormed = false) (s : State) :
    exec i s = .next (s.withErr .invalidArg) := by
  have hsel {var : BitVec 2} (hvar : legalVar var = false) : selectVar var = none := by
    rw [← selectVar_isSome] at hvar
    exact Option.not_isSome_iff_eq_none.mp (by simp [hvar])
  cases i with
  | crcInit var => simp only [exec, execCrcInit, hsel h, raise]
  | crcCompute var => simp only [exec, execCrcCompute, hsel h, raise]
  | crcVerify var => simp only [exec, execCrcVerify, hsel h, raise]
  | _ => cases h

/-- Settles O9: each way to end is a next state, and an illegal selector is checked first. -/
theorem everyCommandEnds : Obligations.EveryCommandEnds := by
  refine ⟨fun i s => ?ends, fun i s h => exec_of_not_wellFormed h s⟩
  case ends =>
    generalize hr : exec i s = r
    cases hr ▸ exec_ends s i with
    | completes s' => exact ⟨_, rfl⟩
    | raises => exact ⟨_, rfl⟩
    | rejects => exact ⟨_, rfl⟩
    | tooSmall => exact ⟨_, rfl⟩

/-! ### The window of a BufferTooSmall failure -/

/-- R69: a byte of a spoiled window is the free value of the draw it took. -/
theorem State.bufByte_unspecify_inside (s : State) {a n x : Nat} (ha : a ≤ x) (hx : x < a + n) :
    (s.unspecify a n).bufByte x = Config.freeByte s.draws x := by
  obtain ⟨k, rfl⟩ := Nat.exists_eq_add_of_le ha
  rw [State.bufByte_written (State.unspecify_buf s a n) (by rw [length_freeWindow]; omega), getElem_freeWindow]

/-- Only the failure for room reports BufferTooSmall. -/
theorem Answers.eq_of_tooSmall {i : Instr} {s t : State} (h : Answers s i t) (ht : t.err = .bufferTooSmall) :
    canEnd i.opcode .bufferTooSmall = true ∧
      t = (s.unspecify (spoiledWindow s i.opcode).1 (spoiledWindow s i.opcode).2).withErr .bufferTooSmall := by
  cases h with
  | tooSmall hwin hi => exact ⟨hi, by rw [← hwin]⟩
  | code he hne => exact absurd ht hne
  | rejected he => rcases he with rfl | rfl <;> cases ht
  | _ => cases ht

/-- Settles O45, by the one answer that reports BufferTooSmall. -/
theorem tooSmallSpoilsOnlyTheWindow : Obligations.TooSmallSpoilsOnlyTheWindow := by
  intro i s t h ht
  obtain ⟨hi, rfl⟩ := (exec_answers s i t h).eq_of_tooSmall ht
  refine ⟨?commands, fun a n hwin => ?window⟩
  case commands => cases i <;> simp_all [canEnd, Instr.opcode]
  case window =>
    rw [← hwin]
    exact ⟨fun x hx => s.bufByte_unspecify_outside hx, fun x ha hx => s.bufByte_unspecify_inside ha hx⟩

/-! ### Registers that commands keep -/

/-- Settles O47: no answer writes these registers. -/
theorem commandsKeepHostRegisters : Obligations.CommandsKeepHostRegisters := by
  intro i s t h
  cases exec_answers s i t h with
  | built final => cases final <;> simp [State.countBuilt]
  | _ => simp

/-- Settles O48: the one answer that writes the CRC registers is that of the four commands excepted. -/
theorem crcRegistersKept : Obligations.CrcRegistersKept := by
  intro i s t h hinit hupdate hbyte hcompute
  cases exec_answers s i t h with
  | crc hi =>
    cases i with
    | crcInit var => exact absurd rfl (hinit var)
    | crcUpdate => exact absurd rfl hupdate
    | crcByte imm => exact absurd rfl (hbyte imm)
    | crcCompute var => exact absurd rfl (hcompute var)
    | _ => cases hi
  | built final => cases final <;> simp [State.countBuilt, State.crcResult]
  | _ => simp [State.crcResult]

/-! ### The table of result codes -/

/-- R115: a well-formed command answers a code that its row marks. -/
theorem Answers.canEnd {i : Instr} {s t : State} (h : Answers s i t) (hi : i.wellFormed = true) :
    canEnd i.opcode t.err = true := by
  cases h with
  | illegal hill => rw [hill] at hi; cases hi
  | code he => exact he
  | rejected he => rcases he with rfl | rfl <;> rfl
  | tooSmall _ hcan => exact hcan
  | _ => exact canEnd_ok _

/-- The code a command ends with. -/
def codeOf : Result → Option ResultCode
  | .next t => some t.err
  | _ => none

theorem exists_next_of_codeOf {r : Result} {e : ResultCode} (h : codeOf r = some e) : ∃ t, r = .next t ∧ t.err = e := by
  cases r with
  | next t => exact ⟨t, rfl, Option.some.inj h⟩
  | _ => cases h

/-- A state of the link with a source range of `n` bytes and room for `cap` bytes of output. -/
def codeState (l : LinkState) (n cap : Word) : State :=
  { State.reset with link := l, srcAddr := 0x100, srcLen := n, dstAddr := 0x300, dstCap := cap }

/-- A Connected state with these bytes as the input at 0x100 and a reassembly region of `cap` bytes. -/
def codeInput (bs : List Byte) (cap : Word) : State :=
  { (codeState .connected (BitVec.ofNat 32 bs.length) 0).memWrite 0x100 bs with reasmBase := 0x800, reasmCap := cap }

/-- The marked cells of R115: for each, a command of the row and a state from which it ends with the code. -/
def markedCells : List (Instr × ResultCode × State) :=
  [(.nop, .ok, .reset), (.crcInit 0, .ok, .reset), (.crcByte 0, .ok, .reset), (.hdlcReset, .ok, .reset),
   (.crcUpdate, .ok, .reset), (.crcUpdate, .outOfBounds, codeState .disconnected 4096 0),
   (.crcCompute 0, .ok, .reset), (.crcCompute 0, .outOfBounds, codeState .disconnected 4096 0),
   (.crcStore, .ok, codeState .disconnected 0 2), (.crcStore, .bufferTooSmall, codeState .disconnected 0 1),
   (.crcStore, .outOfBounds, codeState .disconnected 0 4096),
   (.crcVerify 0, .ok, { codeInput [0xFF, 0xFF] 0 with srcLen := 0 }),
   (.crcVerify 0, .checksum, { codeInput [0x00, 0x00] 0 with srcLen := 0 }),
   (.crcVerify 0, .outOfBounds, codeState .disconnected 4096 0),
   (.dnp3Blocks, .ok, codeState .disconnected 0 0), (.dnp3Blocks, .bufferTooSmall, codeState .disconnected 1 2),
   (.dnp3Blocks, .outOfBounds, codeState .disconnected 4096 0),
   (.hdlcBuildSnrm, .ok, codeState .disconnected 0 9), (.hdlcBuildSnrm, .bufferTooSmall, codeState .disconnected 0 8),
   (.hdlcBuildSnrm, .outOfBounds, codeState .disconnected 0 4096),
   (.hdlcSetConnected, .ok, codeState .connecting 0 0), (.hdlcSetConnected, .invalidState, .reset),
   (.hdlcBuildIframe false, .ok, { codeInput [0xC0] 0 with dstCap := 12 }),
   (.hdlcBuildIframe false, .invalidArg, codeState .connected 0 12),
   (.hdlcBuildIframe false, .bufferTooSmall, codeState .connected 1 11),
   (.hdlcBuildIframe false, .invalidState, .reset),
   (.hdlcBuildIframe false, .outOfBounds, codeState .connected 1 4096),
   (.hdlcParse, .ok, codeInput (shortFrame Config.vectorParams 1 2 0x93) 0),
   (.hdlcParse, .incompleteData, codeInput [] 0),
   (.hdlcParse, .bufferTooSmall, codeInput (infoFrame Config.vectorParams true 1 2 0 [0xC0, 0x01]) 1),
   (.hdlcParse, .checksum, codeInput (infoFrame Config.vectorParams false 1 2 0 [0xC0]) 0),
   (.hdlcParse, .invalidFrame, codeInput [0x7E, 0x00, 0x00] 0),
   (.hdlcParse, .outOfBounds, codeState .connected 4096 0)]

theorem markedCells_end :
    ∀ c ∈ markedCells, c.1.wellFormed = true ∧ codeOf (exec c.1 c.2.2) = some c.2.1 := by decide +kernel

theorem canEnd_mem_markedCells (op : Opcode) (e : ResultCode) :
    Machine.canEnd op e = true → ∃ c ∈ markedCells, c.1.opcode = op ∧ c.2.1 = e := by
  cases op <;> cases e <;> decide

/-- Settles O46: every answer's code is marked, and each marked cell has its command and state. -/
theorem resultCodeTable : Obligations.ResultCodeTable := by
  refine ⟨fun i s t hi h => (exec_answers s i t h).canEnd hi, fun op e h => ?occurs⟩
  obtain ⟨⟨i, e, s⟩, hmem, rfl, rfl⟩ := canEnd_mem_markedCells op e h
  obtain ⟨hi, hcode⟩ := markedCells_end _ hmem
  obtain ⟨t, ht, herr⟩ := exists_next_of_codeOf hcode
  exact ⟨i, s, t, hi, rfl, ht, herr⟩

end Sys2Proof.Machine

/-! The host's window and the step (spec/10_state.md R19 to R32, spec/20_memory.md R37 to R39): what one step does
with each kind of input. -/

namespace Sys2Proof.Machine

/-! ### One step, input by input -/

/-- What the host reads does not depend on the inputs still to come. -/
@[simp] theorem State.hostRead_taken (s : State) (rest : List Input) (bits off : Nat) :
    (s.taken rest).hostRead bits off = s.hostRead bits off := by
  unfold State.hostRead
  split
  · split
    · next r _ => cases r <;> rfl
    · rfl
  · rw [State.memRead_taken]

section
variable {s : State} {rest : List Input}

/-- An access the spec refuses ends the run. -/
theorem step_of_access_refused {bits off : Nat} {w : Word} {r : Refusal}
    (hp : s.pending = .read bits off :: rest ∨ s.pending = .write bits off w :: rest)
    (h : accessRefusal s bits off = some r) : step s = .refused r := by
  have h' : accessRefusal (s.taken rest) bits off = some r := h
  rcases hp with hp | hp <;> simp only [step, hp, request, h']

/-- A read that has a meaning returns its data. -/
theorem step_of_read {bits off : Nat} (hp : s.pending = .read bits off :: rest)
    (h : accessRefusal s bits off = none) :
    step s = .next { s with pending := rest, readData := some (s.hostRead bits off) } := by
  have h' : accessRefusal (s.taken rest) bits off = none := h
  simp only [step, hp, request, h', State.hostRead_taken]
  rfl

/-- A write that has a meaning, of anything but a command word, stores its data. -/
theorem step_of_write {bits off : Nat} {w : Word} (hp : s.pending = .write bits off w :: rest)
    (h : accessRefusal s bits off = none) (hcmd : off ≠ 0) :
    step s = .next ((s.taken rest).hostWrite bits off w) := by
  have h' : accessRefusal (s.taken rest) bits off = none := h
  simp only [step, hp, request, h', show off ≠ Reg.cmd.offset from hcmd, if_false]

/-- A 32-bit write to CMD issues its word. -/
theorem step_of_command {w : Word} (hp : s.pending = .write 32 0 w :: rest) : step s = issue (s.taken rest) w := by
  simp only [step, hp]
  rfl

/-- A hardware reset. -/
theorem step_of_hardReset (hp : s.pending = .hardReset :: rest) : step s = .next (s.taken rest).hardReset := by
  simp only [step, hp, request]

/-- A second bus master is refused. -/
theorem step_of_secondMaster (hp : s.pending = .secondMaster :: rest) : step s = .refused .secondMaster := by
  simp only [step, hp, request]

end

/-! ### Commands and refused words -/

/-- Settles O7: a CMD write issues its word, and a word that decodes runs its command. -/
theorem stepRunsDecodedCommand : Obligations.StepRunsDecodedCommand := by
  refine ⟨fun s rest w i hp hdec => ?written, fun s w i hw hdec => ?placed⟩
  case written => exact (step_of_command hp).trans (issue_of_decode_ok hdec _)
  case placed =>
    have hword : decode (fetchWord 32 w) = .ok i := by
      simp only [decodeTableWord, Nat.mod_eq_of_lt hw, hw, if_true] at hdec
      rw [fetchWord, Nat.mod_eq_of_lt hw]
      split at hdec
      · next h => rw [h, Option.some.inj hdec]
      · cases hdec
    exact (step_of_command (s := s.withFetchWord 32 w) rfl).trans (issue_of_decode_ok hword _)

/-- Settles O8: a word that is no command writes its code alone. -/
theorem stepOfRejectedWord : Obligations.StepOfRejectedWord := fun s rest _ _ hp hdec =>
  (step_of_command hp).trans (issue_of_decode_error hdec (s.taken rest))

/-! ### The registers -/

/-- The map of R19 gives each register back from its offset. -/
theorem Reg.ofOffset_offset (r : Reg) : Reg.ofOffset r.offset = some r := by cases r <;> rfl

/-- Every register stands in the register area, 4-byte aligned (R37, R38). -/
theorem Reg.offset_bounds (r : Reg) : r.offset < 0x60 ∧ r.offset % 4 = 0 := by cases r <;> decide

/-- Behind the last register every offset of the area is reserved (R19, R37). -/
theorem Reg.ofOffset_of_reserved {off : Nat} (h : 0x60 ≤ off) : Reg.ofOffset off = none := by
  unfold Reg.ofOffset
  split <;> first | omega | rfl

/-- R38: a 32-bit access at a register's offset has a meaning. -/
theorem accessRefusal_register (s : State) {off : Nat} (hlt : off < 0x1000) (halign : off % 4 = 0) :
    accessRefusal s 32 off = none :=
  accessRefusal_none.mpr (.inl ⟨hlt, rfl, halign⟩)

section
variable (s : State) (w : Word)

theorem State.hostRead_register (r : Reg) : s.hostRead 32 r.offset = s.readReg r := by
  have hr := r.offset_bounds
  rw [State.hostRead, if_pos (hr.1.trans (by decide) : r.offset < bufBase), Reg.ofOffset_offset]

theorem State.hostWrite_register (r : Reg) : s.hostWrite 32 r.offset w = s.writeReg w r := by
  have hr := r.offset_bounds
  rw [State.hostWrite, if_pos (hr.1.trans (by decide) : r.offset < bufBase), Reg.ofOffset_offset]

theorem State.hostRead_reserved {off : Nat} (hlow : 0x60 ≤ off) (hhigh : off < 0x1000) : s.hostRead 32 off = 0 := by
  rw [State.hostRead, if_pos (show off < bufBase from hhigh), Reg.ofOffset_of_reserved hlow]

theorem State.hostWrite_reserved {off : Nat} (hlow : 0x60 ≤ off) (hhigh : off < 0x1000) :
    s.hostWrite 32 off w = s := by
  rw [State.hostWrite, if_pos (show off < bufBase from hhigh), Reg.ofOffset_of_reserved hlow]

theorem State.hostRead_buf (bits a : Nat) : s.hostRead bits (0x1000 + a) = wordOfBytes (s.memRead a (bits / 8)) := by
  rw [State.hostRead, if_neg (show ¬ 0x1000 + a < bufBase by unfold bufBase; omega), bufBase, Nat.add_sub_cancel_left]

theorem State.hostWrite_buf (bits a : Nat) :
    s.hostWrite bits (0x1000 + a) w = s.memWrite a (bytesOfWord (bits / 8) w) := by
  rw [State.hostWrite, if_neg (show ¬ 0x1000 + a < bufBase by unfold bufBase; omega), bufBase, Nat.add_sub_cancel_left]

end

/-- R21: ERR, LINK and REASM_DONE at their bits. -/
theorem State.toNat_statusWord (s : State) :
    s.statusWord.toNat = s.err.code.toNat + 16 * s.link.code.toNat + 64 * (if s.reasmDone then 1 else 0) := by
  unfold State.statusWord
  generalize s.err.code = e, s.link.code = l, s.reasmDone = d
  revert e l d
  decide

/-- R23: FILL_CRC and VERIFY_CRC at their bits. -/
theorem State.toNat_ctrlWord (s : State) :
    s.ctrlWord.toNat = (if s.fillCrc then 1 else 0) + 2 * (if s.verifyCrc then 1 else 0) := by
  unfold State.ctrlWord
  cases s.fillCrc <;> cases s.verifyCrc <;> rfl

/-- R29: NS and NR at their bits. -/
theorem State.toNat_seqWord (s : State) : s.seqWord.toNat = s.ns.toNat + 16 * s.nr.toNat := by
  unfold State.seqWord
  generalize s.ns = ns, s.nr = nr
  revert ns nr
  decide

/-- A field narrower than a register reads as its number. -/
theorem toNat_setWidth_word {n : Nat} (x : BitVec n) (h : n ≤ 32 := by decide) : (x.setWidth 32).toNat = x.toNat :=
  BitVec.toNat_setWidth_of_le h

/-- Settles O49: the offsets by cases, a read by the map, and the packed registers by their bits. -/
theorem registerReads : Obligations.RegisterReads := by
  refine ⟨fun r => ?offsets, fun s rest r hp => ?reads, fun s => ?values⟩
  case offsets => cases r <;> rfl
  case reads =>
    obtain ⟨hlt, halign⟩ := r.offset_bounds
    rw [step_of_read hp (accessRefusal_register s (by omega) halign), s.hostRead_register]
  case values =>
    refine ⟨rfl, ?statusValue, s.toNat_ctrlWord, ?cfgValue, toNat_setWidth_word _, toNat_setWidth_word _,
      s.toNat_seqWord,
      toNat_setWidth_word _, toNat_setWidth_word _, toNat_setWidth_word _, toNat_setWidth_word _,
      toNat_setWidth_word _, toNat_setWidth_word _, rfl, rfl, rfl, rfl, rfl, rfl, rfl, rfl, rfl, rfl, rfl⟩
    case statusValue =>
      refine s.toNat_statusWord.trans ?_
      cases s.err <;> cases s.link <;> rfl
    case cfgValue =>
      refine (toNat_setWidth_word _).trans ?_
      cases s.crcVar <;> rfl

/-- R26: a write of 3 leaves CRC_CFG.VAR as it was, and 0 to 2 name its variants. -/
theorem State.writeCrcCfg_eq (s : State) (w : Word) :
    s.writeCrcCfg w =
      { s with crcVar := if w.toNat % 4 = 0 then .modbus else if w.toNat % 4 = 1 then .ccitt
                         else if w.toNat % 4 = 2 then .dnp3 else s.crcVar } := by
  have hcode : (w.extractLsb' 0 2).toNat = w.toNat % 4 := by simp
  have hlt : w.toNat % 4 < 4 := Nat.mod_lt _ (by decide)
  rw [State.writeCrcCfg, selectVar, hcode]
  interval_cases w.toNat % 4 <;> rfl

/-- Settles O50: the write reaches its register by the map, and each register stores what its own update says. -/
theorem registerWrites : Obligations.RegisterWrites := by
  intro s u rest r w hp hu hcmd
  subst hu
  obtain ⟨hlt, halign⟩ := r.offset_bounds
  have hoff : r.offset ≠ 0 := by
    cases r with
    | cmd => exact absurd rfl hcmd
    | _ => decide
  rw [step_of_write hp (accessRefusal_register s (by omega) halign) hoff, State.hostWrite_register]
  congr 1
  cases r with
  | crcCfg => exact State.writeCrcCfg_eq (s.taken rest) w
  | _ => rfl

/-- Settles O51: an access of the register area whose offset names no register. -/
theorem reservedOffsetsReadZero : Obligations.ReservedOffsetsReadZero := by
  intro s rest off w hlow hhigh halign
  have hmeaning := accessRefusal_register s hhigh halign
  refine ⟨fun hp => ?read, fun hp => ?write⟩
  case read =>
    rw [step_of_read hp hmeaning, s.hostRead_reserved hlow hhigh]
  case write =>
    rw [step_of_write hp hmeaning (by omega), State.hostWrite_reserved _ w hlow hhigh]
    rfl

/-! ### BUF through the window -/

/-- R39: the first byte is the least significant one. -/
theorem toNat_wordOfBytes_cons (b : Byte) {bs : List Byte} (h : (wordOfBytes bs).toNat < 2 ^ 24) :
    (wordOfBytes (b :: bs)).toNat = b.toNat + 256 * (wordOfBytes bs).toNat := by
  have hshift : (wordOfBytes bs <<< 8).toNat = (wordOfBytes bs).toNat <<< 8 := by
    rw [BitVec.toNat_shiftLeft, Nat.mod_eq_of_lt]
    rw [Nat.shiftLeft_eq]
    omega
  rw [wordOfBytes, BitVec.toNat_or, hshift, toNat_setWidth_word b, Nat.or_comm,
    ← Nat.shiftLeft_add_eq_or_of_lt b.isLt, Nat.shiftLeft_eq]
  omega

/-- R39: the bytes that a write stores are the digits of its value to base 256, the lowest one first. -/
theorem toNat_getElem_bytesOfWord (n : Nat) (w : Word) {k : Nat} (h : k < (bytesOfWord n w).length) :
    ((bytesOfWord n w)[k]).toNat = w.toNat / 256 ^ k % 256 := by
  induction n generalizing w k with
  | zero => simp [bytesOfWord] at h
  | succ n ih =>
    cases k with
    | zero => simp [bytesOfWord]
    | succ k =>
      simp only [bytesOfWord, List.getElem_cons_succ, ih, BitVec.toNat_ushiftRight, Nat.shiftRight_eq_div_pow]
      rw [Nat.div_div_eq_div_mul, (Nat.pow_succ' : 256 ^ (k + 1) = 256 * 256 ^ k)]

/-- R37, R39: the accesses to BUF that have a meaning. -/
theorem accessRefusal_buf (s : State) {a n : Nat} (hn : n = 1 ∨ n = 2 ∨ n = 4) (hin : a + n ≤ s.params.bufSize)
    (halign : a % n = 0) : accessRefusal s (8 * n) (0x1000 + a) = none := by
  refine accessRefusal_none.mpr (.inr ⟨Nat.le_add_right .., by omega, ?_, ?_⟩)
  · rw [Nat.mul_div_cancel_left n (by decide), bufBase]
    omega
  · rw [Nat.mul_div_cancel_left n (by decide), bufBase, Nat.add_sub_cancel_left, halign]

/-- Two bytes, joined. -/
theorem wordOfBytes_two (b₀ b₁ : Byte) : wordOfBytes [b₀, b₁] = BitVec.ofNat 32 (b₀.toNat + 256 * b₁.toNat) := by
  have hlt₀ := b₀.isLt
  have hlt₁ := b₁.isLt
  have hnil : (wordOfBytes []).toNat = 0 := rfl
  have h₁ := toNat_wordOfBytes_cons b₁ (bs := []) (by omega)
  have h₀ := toNat_wordOfBytes_cons b₀ (bs := [b₁]) (by omega)
  apply BitVec.eq_of_toNat_eq
  rw [BitVec.toNat_ofNat]
  omega

/-- Four bytes, joined. -/
theorem wordOfBytes_four (b₀ b₁ b₂ b₃ : Byte) :
    wordOfBytes [b₀, b₁, b₂, b₃] =
      BitVec.ofNat 32 (b₀.toNat + 256 * b₁.toNat + 65536 * b₂.toNat + 16777216 * b₃.toNat) := by
  have hlt₀ := b₀.isLt
  have hlt₁ := b₁.isLt
  have hlt₂ := b₂.isLt
  have hlt₃ := b₃.isLt
  have h₂₃ : (wordOfBytes [b₂, b₃]).toNat = b₂.toNat + 256 * b₃.toNat := by
    rw [wordOfBytes_two, BitVec.toNat_ofNat]
    omega
  have h₁ := toNat_wordOfBytes_cons b₁ (bs := [b₂, b₃]) (by omega)
  have h₀ := toNat_wordOfBytes_cons b₀ (bs := [b₁, b₂, b₃]) (by omega)
  apply BitVec.eq_of_toNat_eq
  rw [BitVec.toNat_ofNat]
  omega

/-- Settles O52: the bytes read are those from the address up, joined low byte first. -/
theorem bufHostReads : Obligations.BufHostReads := by
  intro s rest a
  refine ⟨fun hp hin => ?byte, fun hp hin halign => ?half, fun hp hin halign => ?word⟩
  case byte =>
    have hone : wordOfBytes (s.memRead a 1) = (s.bufByte a).setWidth 32 := BitVec.or_zero
    rw [step_of_read hp (accessRefusal_buf s (n := 1) (.inl rfl) hin (Nat.mod_one a)), s.hostRead_buf, hone]
  case half =>
    rw [step_of_read hp (accessRefusal_buf s (n := 2) (.inr (.inl rfl)) hin halign), s.hostRead_buf]
    exact congrArg (fun w => Host.Outcome.next { s with pending := rest, readData := some w }) (wordOfBytes_two ..)
  case word =>
    rw [step_of_read hp (accessRefusal_buf s (n := 4) (.inr (.inr rfl)) hin halign), s.hostRead_buf]
    exact congrArg (fun w => Host.Outcome.next { s with pending := rest, readData := some w }) (wordOfBytes_four ..)

/-- Settles O53: the write stores the bytes of its value, and an array write changes nothing else. -/
theorem bufHostWrites : Obligations.BufHostWrites := by
  intro s rest a n w hn hp hin halign
  have hstep := step_of_write hp (accessRefusal_buf s hn hin halign) (by omega)
  rw [State.hostWrite_buf, Nat.mul_div_cancel_left n (by decide)] at hstep
  have hlen := length_bytesOfWord n w
  refine ⟨_, hstep, rfl, fun k hk => ?bytes, fun x hx => ?frame⟩
  case bytes =>
    rw [State.bufByte_written (State.memWrite_buf (s.taken rest) a _) (by rwa [hlen]), toNat_getElem_bytesOfWord]
  case frame =>
    rw [State.bufByte_unwritten (State.memWrite_buf (s.taken rest) a _) rfl (by rwa [hlen]), State.bufByte_taken]

/-- A command word is never refused: it runs, or its code is reported (R57, R119). -/
theorem issue_ne_refused (s : State) (w : Word) (r : Refusal) : issue s w ≠ .refused r := by
  cases hdec : decode w with
  | ok i =>
    obtain ⟨t, ht⟩ := everyCommandEnds.1 i s
    rw [issue_of_decode_ok hdec, ht]
    exact nofun
  | error e =>
    rw [issue_of_decode_error hdec]
    exact nofun

/-- A read or a write is refused exactly when its access is. -/
theorem step_refused_iff {s : State} {rest : List Input} {bits off : Nat} {w : Word}
    (hp : s.pending = .read bits off :: rest ∨ s.pending = .write bits off w :: rest) :
    (∃ r, step s = .refused r) ↔ accessRefusal s bits off ≠ none := by
  constructor
  · rintro ⟨r, hr⟩ hnone
    rcases hp with hp | hp
    · rw [step_of_read hp hnone] at hr
      cases hr
    · by_cases hcmd : off = 0
      · subst hcmd
        obtain rfl : bits = 32 := by
          have hmeaning := accessRefusal_none.mp hnone
          unfold bufBase at hmeaning
          omega
        rw [step_of_command hp] at hr
        exact issue_ne_refused _ w r hr
      · rw [step_of_write hp hnone hcmd] at hr
        cases hr
  · intro h
    obtain ⟨r, hr⟩ := Option.ne_none_iff_exists'.mp h
    exact ⟨r, step_of_access_refused hp hr⟩

/-- Settles O54: the accesses refused are those that have no meaning. -/
theorem refusedAccesses : Obligations.RefusedAccesses := by
  intro s rest bits off w
  refine ⟨fun hp => ?access, step_of_secondMaster⟩
  case access =>
    rw [step_refused_iff hp, ne_eq, accessRefusal_none, bufBase]
    omega

end Sys2Proof.Machine

/-! The whole machine (spec/10_state.md R36, spec/70_reset_and_hazards.md R127, R128): what a hardware reset leaves,
that every update of the state keeps the invariant, and how a step uses the draws of free values. -/

namespace Sys2Proof.Machine

/-! ### Hardware reset -/

/-- Settles O56: a byte that nothing has written since reads as the draw the reset took. -/
theorem hardResetResets : Obligations.HardResetResets := fun _ _ hp =>
  ⟨_, step_of_hardReset hp, rfl, rfl, fun _ => rfl⟩

/-- The invariant after a hardware reset, whichever draw BUF takes and whatever is still to come. -/
theorem State.resetWith_inv {P : Params} (hP : P.legal) : (State.resetWith P).Inv where
  params_legal := hP
  buf_wf := rfl
  buf_within := rfl
  err_produced := ⟨nofun, nofun⟩
  session_clear := fun _ => ⟨rfl, rfl, rfl, rfl⟩
  rx_fmt := .inl rfl
  view_within := Nat.zero_le _
  consumed_within := Nat.zero_le _
  out_within := Nat.zero_le _
  fill_within := Nat.zero_le _
  draw_fresh := Nat.zero_lt_one

/-- Settles O57: every length is 0 and BUF's list is empty. -/
theorem invAtReset : Obligations.InvAtReset :=
  ⟨fun _ => State.resetWith_inv, State.resetWith_inv (by decide)⟩

/-! ### What each update keeps -/

/-- A number stored in a 32-bit register does not grow. -/
theorem toNat_ofNat_word_le (n : Nat) : (BitVec.ofNat 32 n).toNat ≤ n := Nat.mod_le n _

/-- Writing nothing stores nothing outside BUF, wherever the empty range is. -/
theorem Memory.within_writeRange_of_fits {m : Memory} {size a : Nat} {bs : List Byte}
    (h : bs.length = 0 ∨ a + bs.length ≤ size) (hm : m.within size = true) :
    (m.writeRange a bs).within size = true := by
  rcases h with hempty | hfit
  · rw [List.length_eq_zero_iff.mp hempty]
    exact hm
  · exact Memory.within_writeRange bs hfit hm

namespace State.Inv

variable {s : State} (h : s.Inv)
include h

theorem withErr {e : ResultCode} (he : e ≠ .generic ∧ e ≠ .overflow) : (s.withErr e).Inv :=
  { h with err_produced := he }

theorem withErr_ok : (s.withErr .ok).Inv := h.withErr ⟨nofun, nofun⟩

theorem withCrc (v : CrcVar) (c : BitVec 16) : (s.withCrc v c).Inv := { h with }

theorem taken (rest : List Input) : (s.taken rest).Inv := { h with }

theorem restartLink (l : LinkState) : (s.restartLink l).Inv :=
  { h with session_clear := fun _ => ⟨rfl, rfl, rfl, rfl⟩, fill_within := Nat.zero_le _ }

theorem withConsumed {p : Nat} (hp : p ≤ s.params.bufSize) : (s.withConsumed p).Inv :=
  { h with consumed_within := (toNat_ofNat_word_le p).trans hp }

theorem emit {bs : List Byte} (hfit : s.dstAddr.toNat + bs.length ≤ s.params.bufSize) : (s.emit bs).Inv :=
  { h with
    buf_wf := Memory.wf_writeRange bs _ h.buf_wf
    buf_within := Memory.within_writeRange bs hfit h.buf_within
    out_within := (toNat_ofNat_word_le _).trans (show bs.length ≤ s.params.bufSize by omega) }

theorem unspecify {a n : Nat} (hn : n = 0 ∨ a + n ≤ s.params.bufSize) : (s.unspecify a n).Inv :=
  { h with
    buf_wf := Memory.wf_writeRange _ _ h.buf_wf
    buf_within := Memory.within_writeRange_of_fits (by rwa [length_freeWindow]) h.buf_within
    draw_fresh := h.draw_fresh.trans (Nat.lt_succ_self _) }

theorem memWrite {a : Nat} {bs : List Byte} (hfit : a + bs.length ≤ s.params.bufSize) : (s.memWrite a bs).Inv :=
  { h with
    buf_wf := Memory.wf_writeRange bs _ h.buf_wf
    buf_within := Memory.within_writeRange bs hfit h.buf_within }

/-- Only a Connected session counts frames. -/
theorem advanceNs (hlink : s.link = .connected) : s.advanceNs.Inv :=
  { h with session_clear := fun hne => absurd hlink hne }

theorem advanceNr (hlink : s.link = .connected) : s.advanceNr.Inv :=
  { h with session_clear := fun hne => absurd hlink hne }

theorem countBuilt (final : Bool) (hlink : s.link = .connected) : (s.countBuilt final).Inv := by
  cases final with
  | false => exact h
  | true => exact h.advanceNs hlink

theorem countFrame (c : Byte) (hlink : s.link = .connected) : (s.countFrame c).Inv := by
  unfold State.countFrame
  split
  · exact h.advanceNr hlink
  · exact h

theorem append {f₀ : Nat} {payload : List Byte} (done : Bool) (hlink : s.link = .connected)
    (hfit : s.reasmBase.toNat + (f₀ + payload.length) ≤ s.params.bufSize) : (s.append f₀ payload done).Inv :=
  { h with
    buf_wf := Memory.wf_writeRange payload _ h.buf_wf
    buf_within := Memory.within_writeRange payload ((Nat.add_assoc ..).trans_le hfit) h.buf_within
    session_clear := fun hne => absurd hlink hne
    fill_within := (toNat_ofNat_word_le _).trans ((Nat.le_add_left ..).trans hfit) }

/-- An accepted frame lies in the source range, so what it reports lies in BUF. -/
theorem receive {f : RxFrame} {bs : List Byte} {P : Params} {v : Bool} (hf : parseFrame P v bs = .frame f)
    (hsrc : s.srcAddr.toNat + bs.length ≤ s.params.bufSize) : (s.receive f).Inv := by
  rcases parseFrame_cases hf with hinc | ⟨p, hrej | hrej, -⟩ | ⟨g, hg, htype, hlen, hend, hpay⟩
  · cases hinc
  · cases hrej
  · cases hrej
  · cases hg
    exact { h with
      rx_fmt := .inr ⟨htype, hlen⟩
      view_within := (Nat.add_le_add (toNat_ofNat_word_le _) (toNat_ofNat_word_le _)).trans
        (show s.srcAddr.toNat + f.payOff + f.payLen ≤ s.params.bufSize by omega)
      consumed_within := (toNat_ofNat_word_le _).trans (show f.consumed ≤ s.params.bufSize by omega) }

/-- A host write to a register stores nothing the invariant speaks of. -/
theorem writeReg (w : Word) (r : Reg) : (s.writeReg w r).Inv := by
  cases r with
  | crcCfg =>
    change (s.writeCrcCfg w).Inv
    rw [s.writeCrcCfg_eq]
    exact { h with }
  | cmd | status | outLen | crcResult | seq | reasmFill => exact h
  | rxFmt | rxDst | rxSrc | rxCtrl | rxPayAddr | rxPayLen | rxConsumed => exact h
  | _ => exact { h with }

/-- A host write that has a meaning stays inside BUF. -/
theorem hostWrite {bits off : Nat} (hmeaning : accessRefusal s bits off = none) (w : Word) :
    (s.hostWrite bits off w).Inv := by
  have haccess := accessRefusal_none.mp hmeaning
  unfold State.hostWrite
  split
  · split
    · exact h.writeReg w _
    · exact h
  · exact h.memWrite (by rw [length_bytesOfWord]; omega)

theorem hardReset : s.hardReset.Inv := { State.resetWith_inv h.params_legal with draw_fresh := Nat.lt_succ_self _ }

end State.Inv

/-! ### What each step keeps -/

/-- R114: no cell of R115 marks Generic or Overflow. -/
theorem produced_of_canEnd {op : Opcode} {e : ResultCode} (h : canEnd op e = true) :
    e ≠ .generic ∧ e ≠ .overflow := by
  constructor
  · rintro rfl
    cases op <;> cases h
  · rintro rfl
    cases op <;> cases h

/-- Every answer of a command keeps the invariant. -/
theorem Answers.inv {i : Instr} {s t : State} (h : Answers s i t) (hs : s.Inv) : t.Inv := by
  cases h with
  | illegal => exact hs.withErr ⟨nofun, nofun⟩
  | code he => exact hs.withErr (produced_of_canEnd he)
  | rejected he hp =>
    refine (hs.withConsumed hp).withErr ?_
    rcases he with rfl | rfl <;> exact ⟨nofun, nofun⟩
  | tooSmall _ _ hn => exact (hs.unspecify hn).withErr ⟨nofun, nofun⟩
  | crc _ v c => exact (hs.withCrc v c).withErr_ok
  | output _ bs hfit => exact (hs.emit hfit).withErr_ok
  | disconnected => exact (hs.restartLink _).withErr_ok
  | connecting hfit => exact ((hs.emit hfit).restartLink _).withErr_ok
  | connected =>
    have hconnected : State.Inv { s with link := .connected } :=
      { hs with session_clear := fun hne => absurd rfl hne }
    exact hconnected.withErr_ok
  | built final hlink hfit => exact ((hs.emit hfit).countBuilt final hlink).withErr_ok
  | received hsrc hf => exact (hs.receive hf (by rwa [s.length_srcBytes])).withErr_ok
  | counted hsrc hf hlink =>
    exact ((hs.countFrame _ hlink).receive hf (by simpa using hsrc)).withErr_ok
  | appended hsrc hf hlink hfit =>
    exact (((hs.append _ hlink hfit).countFrame _ hlink).receive hf (by simpa using hsrc)).withErr_ok

/-- Issuing a word keeps the invariant. -/
theorem issue_inv {s t : State} {w : Word} (h : issue s w = .next t) (hs : s.Inv) : t.Inv := by
  rcases issue_next h with ⟨i, -, hexec⟩ | ⟨e, -, rfl⟩
  · exact (exec_answers s i t hexec).inv hs
  · exact hs.withErr (by cases e <;> exact ⟨nofun, nofun⟩)

/-- Settles O58: an idle step, a command, and each input that is done at once. -/
theorem stepKeepsInv : Obligations.StepKeepsInv := by
  intro s t hs h
  rcases step_next h with ⟨-, rfl⟩ | ⟨i, rest, w, -, -, hissue⟩ | ⟨i, rest, -, hdone⟩
  · exact hs
  · exact issue_inv hissue (hs.taken rest)
  · rcases request_done hdone with ⟨-, rfl⟩ | ⟨bits, off, -, -, rfl⟩ | ⟨bits, off, w, -, hmeaning, -, rfl⟩
    · exact (hs.taken rest).hardReset
    · exact { hs.taken rest with }
    · exact (hs.taken rest).hostWrite hmeaning w

/-! ### The draws of free values -/

/-- A command takes a draw exactly where it ends in BufferTooSmall, and BUF's own draw stays. -/
theorem Answers.draws {i : Instr} {s t : State} (h : Answers s i t) :
    t.bufDraw = s.bufDraw ∧ t.draws = if t.err = .bufferTooSmall then s.draws + 1 else s.draws := by
  cases h with
  | code he hne => exact ⟨rfl, (if_neg hne).symm⟩
  | rejected he => rcases he with rfl | rfl <;> simp
  | built final => cases final <;> simp [State.countBuilt]
  | _ => simp

theorem issue_draws {s t : State} {w : Word} (h : issue s w = .next t) :
    t.bufDraw = s.bufDraw ∧ t.draws = if t.err = .bufferTooSmall then s.draws + 1 else s.draws := by
  rcases issue_next h with ⟨i, -, hexec⟩ | ⟨e, -, rfl⟩
  · exact (exec_answers s i t hexec).draws
  · cases e <;> simp [decodeErrorCode]

/-- A host write to a register takes no draw. -/
theorem State.writeReg_draws (s : State) (w : Word) (r : Reg) :
    (s.writeReg w r).bufDraw = s.bufDraw ∧ (s.writeReg w r).draws = s.draws := by
  cases r with
  | crcCfg => exact ⟨s.writeCrcCfg_bufDraw w, s.writeCrcCfg_draws w⟩
  | _ => exact ⟨rfl, rfl⟩

/-- A host write takes no draw. -/
theorem State.hostWrite_draws (s : State) (bits off : Nat) (w : Word) :
    (s.hostWrite bits off w).bufDraw = s.bufDraw ∧ (s.hostWrite bits off w).draws = s.draws := by
  unfold State.hostWrite
  split
  · split
    · next r _ => exact s.writeReg_draws w r
    · exact ⟨rfl, rfl⟩
  · exact ⟨rfl, rfl⟩

/-- Settles O59, by what the input of the step is. -/
theorem drawsNeverReused : Obligations.DrawsNeverReused := by
  intro s t h
  rcases step_next h with ⟨hp, rfl⟩ | ⟨i, rest, w, hp, hreq, hissue⟩ | ⟨i, rest, hp, hdone⟩
  · simp [hp]
  · obtain rfl := request_command hreq
    obtain ⟨hbuf, hdraws⟩ := issue_draws hissue
    simp only [State.taken_bufDraw, State.taken_draws] at hbuf hdraws
    by_cases hsmall : t.err = .bufferTooSmall <;> simp [hp, hbuf, hdraws, hsmall]
  · rcases request_done hdone with ⟨rfl, rfl⟩ | ⟨bits, off, rfl, -, rfl⟩ | ⟨bits, off, w, rfl, -, hcmd, rfl⟩
    · simp [hp]
    · simp [hp]
    · obtain ⟨hbuf, hdraws⟩ := (s.taken rest).hostWrite_draws bits off w
      have hoff : off ≠ 0 := hcmd
      simp [hp, hbuf, hdraws, hoff]

end Sys2Proof.Machine

/-! The laws of the CRC (spec/41_checksum.md R77) and what they say of the checksum commands: ranges folded in parts,
a stored CRC that verifies, and the failures of DNP3_BLOCKS. -/

namespace Sys2Proof.Machine

/-! ### The laws of the CRC -/

/-- R77: folding a concatenation is folding its parts in turn. -/
theorem crcFold_append (v : CrcVar) (c : BitVec 16) (xs ys : List Byte) :
    crcFold v c (xs ++ ys) = crcFold v (crcFold v c xs) ys := by
  induction xs generalizing c with
  | nil => rfl
  | cons x xs ih => exact ih (crcStep v c x)

/-- One shift of the CRC register is linear over XOR. -/
theorem crcShift_xor (poly c d : BitVec 16) : crcShift poly (c ^^^ d) = crcShift poly c ^^^ crcShift poly d := by
  have hshift : (c ^^^ d) >>> 1 = (c >>> 1) ^^^ (d >>> 1) := BitVec.ushiftRight_xor_distrib c d 1
  have hbit : (c ^^^ d).getLsbD 0 = (c.getLsbD 0 ^^ d.getLsbD 0) := BitVec.getLsbD_xor
  rw [crcShift, crcShift, crcShift, hbit, hshift]
  cases c.getLsbD 0 <;> cases d.getLsbD 0
  case false.false => rfl
  case false.true => exact BitVec.xor_assoc _ _ _
  case true.false =>
    change (c >>> 1) ^^^ (d >>> 1) ^^^ poly = ((c >>> 1) ^^^ poly) ^^^ (d >>> 1)
    ac_rfl
  case true.true =>
    calc (c >>> 1) ^^^ (d >>> 1)
        = (c >>> 1) ^^^ (d >>> 1) ^^^ (poly ^^^ poly) := by rw [BitVec.xor_self, BitVec.xor_zero]
      _ = ((c >>> 1) ^^^ poly) ^^^ ((d >>> 1) ^^^ poly) := by ac_rfl

/-- Shifting the CRC register is linear over XOR. -/
theorem crcShifts_xor (poly : BitVec 16) (k : Nat) (c d : BitVec 16) :
    crcShifts poly k (c ^^^ d) = crcShifts poly k c ^^^ crcShifts poly k d := by
  induction k generalizing c d with
  | zero => rfl
  | succ k ih => rw [crcShifts, crcShift_xor, ih, crcShifts, crcShifts]

/-- While the low bits are 0 the polynomial is not applied. -/
theorem crcShifts_of_low_zero (poly : BitVec 16) {k : Nat} {c : BitVec 16} (h : ∀ i < k, c.getLsbD i = false) :
    crcShifts poly k c = c >>> k := by
  induction k generalizing c with
  | zero => exact (BitVec.ushiftRight_zero c).symm
  | succ k ih =>
    have hlow : crcShift poly c = c >>> 1 := by rw [crcShift, h 0 k.succ_pos]; rfl
    have hrest : ∀ i < k, (c >>> 1).getLsbD i = false := fun i hi => by
      rw [BitVec.getLsbD_ushiftRight]
      exact h (1 + i) (by omega)
    rw [crcShifts, hlow, ih hrest, Nat.add_comm, BitVec.shiftRight_add]

/-- A value, cancelled by the low byte of its sum with another one. -/
theorem xor_low_byte (c x : BitVec 16) :
    c ^^^ ((c ^^^ x).extractLsb' 0 8).setWidth 16 = (c >>> 8 <<< 8) ^^^ (x.extractLsb' 0 8).setWidth 16 := by
  ext i hi
  by_cases hlow : i < 8
  · simp [hlow, hi, ← BitVec.getLsbD_eq_getElem]
  · simp [hlow, hi, ← BitVec.getLsbD_eq_getElem, show 8 + (i - 8) = i by omega]

/-- The rest of the value, cancelled by the high byte. -/
theorem xor_high_byte (c x : BitVec 16) :
    (c >>> 8) ^^^ ((c ^^^ x).extractLsb' 8 8).setWidth 16 = (x.extractLsb' 8 8).setWidth 16 := by
  ext i hi
  by_cases hlow : i < 8
  · simp [hlow]
  · simp [hlow, BitVec.getLsbD_of_ge c (8 + i) (by omega)]

/-- R77: a value folded with the bytes of its sum with `x`, low byte first, leaves what the bytes of `x` fold to. -/
theorem crcFold_le16_xor (v : CrcVar) (c x : BitVec 16) : crcFold v c (le16 (c ^^^ x)) = crcFold v 0 (le16 x) := by
  have hhigh : crcShifts v.poly 8 (c >>> 8 <<< 8) = c >>> 8 := by
    rw [crcShifts_of_low_zero v.poly fun i hi => by simp [hi]]
    ext i hi
    simpa using fun h => BitVec.lt_of_getLsbD h
  have hfirst : crcStep v c ((c ^^^ x).extractLsb' 0 8) = (c >>> 8) ^^^ crcStep v 0 (x.extractLsb' 0 8) := by
    rw [crcStep, xor_low_byte, crcShifts_xor, hhigh, crcStep, show (0 : BitVec 16) = 0#16 from rfl, BitVec.zero_xor]
  calc crcFold v c (le16 (c ^^^ x))
      = crcStep v (crcStep v c ((c ^^^ x).extractLsb' 0 8)) ((c ^^^ x).extractLsb' 8 8) := rfl
    _ = crcStep v (crcStep v 0 (x.extractLsb' 0 8)) (x.extractLsb' 8 8) := by
      rw [hfirst, BitVec.xor_comm, crcStep, BitVec.xor_assoc, xor_high_byte]
      rfl
    _ = crcFold v 0 (le16 x) := rfl

/-- Settles O12: the residues are those of the bytes of the final XOR, whatever the data. -/
theorem crcLaws : Obligations.CrcLaws := by
  refine ⟨crcFold_append, fun P => ⟨crc_modbus P [], rfl, crc_dnp3 P []⟩, fun P xs => ?modbus,
    fun P xs hinit hxor => ?ccitt⟩
  case modbus =>
    have hself := crcFold_le16_xor .modbus (crcFold .modbus 0xFFFF xs) 0
    rw [show crcFold .modbus 0xFFFF xs ^^^ 0 = crcFold .modbus 0xFFFF xs from BitVec.xor_zero] at hself
    rw [crcFold_append, crc_modbus, hself]
    decide +kernel
  case ccitt =>
    have hcrc : crc P .ccitt xs = crcFold .ccitt 0xFFFF xs ^^^ 0xFFFF := by
      rw [crc, CrcVar.init, CrcVar.xorOut, hinit, hxor]
    rw [crcFold_append, hcrc, crcFold_le16_xor]
    decide +kernel

/-! ### Ranges folded in parts -/

/-- The source bytes of a state that holds the same BUF. -/
theorem State.srcBytes_of_buf_eq {s t : State} (h : t.buf = s.buf) (hd : t.bufDraw = s.bufDraw) :
    t.srcBytes = s.memRead t.srcAddr.toNat t.srcLen.toNat := State.memRead_of_buf_eq h hd _ _

/-- Settles O18: the second command reads on where the first one stopped, with the register it left. -/
theorem crcUpdateSplits : Obligations.CrcUpdateSplits := by
  intro s n m hnm hin hbound
  have hmid : (s.srcAddr + n).toNat = s.srcAddr.toNat + n.toNat := by
    rw [BitVec.toNat_add, Nat.mod_eq_of_lt (by omega)]
  generalize hs₁ : { s with srcLen := n } = s₁
  have hrange₁ : s₁.srcInRange := by
    subst hs₁
    exact show s.srcAddr.toNat + n.toNat ≤ s.params.bufSize by omega
  have hbytes₁ : s₁.srcBytes = s.memRead s.srcAddr.toNat n.toNat := by
    subst hs₁
    exact State.srcBytes_of_buf_eq rfl rfl
  generalize hs₂ : { (s₁.withCrc s₁.crcVar (crcFold s₁.crcVar s₁.crcState s₁.srcBytes)).withErr .ok with
    srcAddr := s.srcAddr + n, srcLen := m } = s₂
  have hrange₂ : s₂.srcInRange := by
    subst hs₂ hs₁
    exact show (s.srcAddr + n).toNat + m.toNat ≤ s.params.bufSize by omega
  have hbytes₂ : s₂.srcBytes = s.memRead (s.srcAddr.toNat + n.toNat) m.toNat := by
    subst hs₂ hs₁
    rw [← hmid]
    exact State.srcBytes_of_buf_eq rfl rfl
  have hfold : crcFold s.crcVar (crcFold s.crcVar s.crcState s₁.srcBytes) s₂.srcBytes =
      crcFold s.crcVar s.crcState s.srcBytes := by
    rw [hbytes₁, hbytes₂, ← crcFold_append, ← s.memRead_add, hnm, State.srcBytes]
  refine ⟨_, _, _, exec_crcUpdate_of_inRange s₁ hrange₁, (congrArg (exec .crcUpdate) hs₂).trans
    (exec_crcUpdate_of_inRange s₂ hrange₂), exec_crcUpdate_of_inRange s hin, ?state, ?result⟩
  case state => subst hs₂ hs₁; exact hfold
  case result => subst hs₂ hs₁; exact congrArg (· ^^^ s.crcVar.xorOut s.params) hfold

/-! ### A stored CRC verifies -/

@[simp] theorem State.srcBytes_withErr (s : State) (e : ResultCode) : (s.withErr e).srcBytes = s.srcBytes :=
  s.memRead_withErr e _ _

@[simp] theorem State.storedCrc_withErr (s : State) (e : ResultCode) : (s.withErr e).storedCrc = s.storedCrc :=
  congrArg (rdle16 · 0) (s.memRead_withErr e _ _)

/-- An output behind the source range leaves the source bytes as they were. -/
theorem State.srcBytes_emit_behind (s : State) (bs : List Byte)
    (h : s.srcAddr.toNat + s.srcLen.toNat ≤ s.dstAddr.toNat) :
    (s.emit bs).srcBytes = s.srcBytes :=
  State.memRead_congr fun i hi => s.bufByte_emit_outside (.inl (by
    rw [State.emit_srcLen] at hi
    rw [State.emit_srcAddr]
    omega))

/-- A CRC put out right behind the source range is the one CRC_VERIFY expects there. -/
theorem State.storedCrc_emit (s : State) (c : BitVec 16) (h : s.dstAddr.toNat = s.srcAddr.toNat + s.srcLen.toNat) :
    (s.emit (le16 c)).storedCrc = c := by
  have hread := s.memRead_emit (le16 c)
  rw [length_le16, h] at hread
  rw [State.storedCrc, State.emit_srcAddr, State.emit_srcLen, hread]
  exact rdle16_le16 [] [] c

/-- R85, the two bytes after the range are its CRC. -/
theorem exec_crcVerify_of_match (s : State) (v : CrcVar) (hin : s.inRange s.srcAddr.toNat (s.srcLen.toNat + 2))
    (hcrc : crc s.params v s.srcBytes = s.storedCrc) : exec (.crcVerify v.code) s = .next (s.withErr .ok) := by
  rw [exec_crcVerify_of_inRange s v hin, if_pos hcrc]

/-- CRC_VERIFY after a CRC_STORE right behind the source range, where the CRC stored is that of the range. -/
theorem exec_crcVerify_after_store (s : State) (v : CrcVar) (hdst : s.dstAddr.toNat = s.srcAddr.toNat + s.srcLen.toNat)
    (hin : s.inRange s.srcAddr.toNat (s.srcLen.toNat + 2)) (hresult : s.crcResult = crc s.params v s.srcBytes) :
    exec (.crcVerify v.code) ((s.emit (le16 s.crcResult)).withErr .ok) =
      .next ((s.emit (le16 s.crcResult)).withErr .ok) := by
  have hcrc : crc s.params v ((s.emit (le16 s.crcResult)).withErr .ok).srcBytes =
      ((s.emit (le16 s.crcResult)).withErr .ok).storedCrc := by
    rw [State.srcBytes_withErr, State.storedCrc_withErr, s.srcBytes_emit_behind _ hdst.ge, s.storedCrc_emit _ hdst,
      hresult]
  exact exec_crcVerify_of_match ((s.emit (le16 s.crcResult)).withErr .ok) v hin hcrc

/-- Settles O21: the result is stored right behind the source range, which it leaves as it was. -/
theorem storedCrcVerifies : Obligations.StoredCrcVerifies := by
  intro s v hdst hcap hin
  have hsrc : s.srcInRange := show s.srcAddr.toNat + s.srcLen.toNat ≤ s.params.bufSize by omega
  have hresult : (s.withCrc v (crcFold v (v.init s.params) s.srcBytes)).crcResult = crc s.params v s.srcBytes := rfl
  refine ⟨_, _, exec_crcCompute_of_inRange s v hsrc, exec_crcStore_of_fits _ hin hcap, ?verify, rfl⟩
  case verify =>
    refine exec_crcVerify_after_store _ v hdst ?_ ?_
    · exact show s.srcAddr.toNat + (s.srcLen.toNat + 2) ≤ s.params.bufSize by omega
    · rw [State.srcBytes_withErr]
      exact congrArg (crc s.params v) (s.memRead_withCrc v _ _ _).symm

/-! ### The failures of DNP3_BLOCKS -/

section
variable (s : State)

/-- R87, stage 3. -/
theorem exec_dnp3Blocks_of_outOfBounds (h : ¬ s.srcInRange ∨ ¬ s.dstInRange) :
    exec .dnp3Blocks s = .next (s.withErr .outOfBounds) := by
  by_cases hsrc : s.srcInRange
  · exact (if_neg (not_not.mpr hsrc)).trans (if_pos (h.resolve_left (not_not.mpr hsrc)))
  · exact if_pos hsrc

/-- R87, stage 6. -/
theorem exec_dnp3Blocks_of_tooSmall (hsrc : s.srcInRange) (hdst : s.dstInRange)
    (hcap : s.dstCap.toNat < s.srcLen.toNat + 2 * dnp3Count s.srcLen.toNat) :
    exec .dnp3Blocks s = .next ((s.unspecify s.dstAddr.toNat s.dstCap.toNat).withErr .bufferTooSmall) :=
  (if_neg (not_not.mpr hsrc)).trans ((if_neg (not_not.mpr hdst)).trans (if_pos hcap))

end

/-- Settles O23, by the two failing branches of DNP3_BLOCKS. -/
theorem dnp3BlocksFailures : Obligations.Dnp3BlocksFailures := by
  refine ⟨by decide, stageOneFails_all .dnp3Blocks, fun s => ⟨fun h => ?outOfBounds, fun hsrc hdst hcap => ?tooSmall⟩⟩
  case outOfBounds => exact exec_dnp3Blocks_of_outOfBounds s (h.imp Nat.not_le.mpr Nat.not_le.mpr)
  case tooSmall =>
    refine ⟨_, exec_dnp3Blocks_of_tooSmall s hsrc hdst hcap, rfl, fun a ha => ?_⟩
    rw [State.bufByte_withErr, s.bufByte_unspecify_outside ha]

end Sys2Proof.Machine

/-! The link commands in full (spec/42_hdlc.md R105 to R113): the failing branches of HDLC_BUILD_IFRAME, HDLC_PARSE as
its checks and its data stage, and a frame built and parsed back. -/

namespace Sys2Proof.Machine

/-! ### HDLC_BUILD_IFRAME -/

/-- R93: F is the final bit of the control byte. -/
theorem finalBit_iframeControl (nr ns : BitVec 3) (final : Bool) : finalBit (iframeControl nr ns final) = final := by
  revert nr ns final
  decide

/-- R93: the number of the control byte. -/
theorem toNat_iframeControl (nr ns : BitVec 3) (final : Bool) :
    (iframeControl nr ns final).toNat = 32 * nr.toNat + 2 * ns.toNat + if final then 1 else 0 := by
  have hnr := nr.isLt
  have hns := ns.isLt
  rw [iframeControl_eq_ofNat, BitVec.toNat_ofNat]
  split <;> omega

/-- Settles O26, by the sum of the fields and the lowest bit. -/
theorem iframeControlByte : Obligations.IframeControlByte := fun nr ns f =>
  ⟨toNat_iframeControl nr ns f, finalBit_iframeControl nr ns f⟩

section
variable (s : State) (final : Bool)

/-- R105, stage 3. -/
theorem exec_hdlcBuildIframe_of_outOfBounds (hlink : s.link = .connected) (h : ¬ s.srcInRange ∨ ¬ s.dstInRange) :
    exec (.hdlcBuildIframe final) s = .next (s.withErr .outOfBounds) := by
  refine (if_neg (not_not.mpr hlink)).trans ?_
  by_cases hsrc : s.srcInRange
  · exact (if_neg (not_not.mpr hsrc)).trans (if_pos (h.resolve_left (not_not.mpr hsrc)))
  · exact if_pos hsrc

variable (hlink : s.link = .connected) (hsrc : s.srcInRange) (hdst : s.dstInRange)
include hlink hsrc hdst

/-- R105, stage 4. -/
theorem exec_hdlcBuildIframe_of_badLength
    (h : s.srcLen.toNat = 0 ∨ 2047 < infoLen s.serverAddr s.clientAddr s.srcLen.toNat) :
    exec (.hdlcBuildIframe final) s = .next (s.withErr .invalidArg) := by
  refine (if_neg (not_not.mpr hlink)).trans ((if_neg (not_not.mpr hsrc)).trans ((if_neg (not_not.mpr hdst)).trans ?_))
  by_cases hempty : s.srcLen.toNat = 0
  · exact if_pos hempty
  · exact (if_neg hempty).trans (if_pos (h.resolve_left hempty))

/-- R105, stage 6. -/
theorem exec_hdlcBuildIframe_of_tooSmall (hempty : s.srcLen.toNat ≠ 0)
    (hlong : infoLen s.serverAddr s.clientAddr s.srcLen.toNat ≤ 2047)
    (hcap : s.dstCap.toNat < infoLen s.serverAddr s.clientAddr s.srcLen.toNat + 2) :
    exec (.hdlcBuildIframe final) s =
      .next ((s.unspecify s.dstAddr.toNat s.dstCap.toNat).withErr .bufferTooSmall) :=
  (if_neg (not_not.mpr hlink)).trans <| (if_neg (not_not.mpr hsrc)).trans <| (if_neg (not_not.mpr hdst)).trans <|
    (if_neg hempty).trans <| (if_neg (Nat.not_lt.mpr hlong)).trans <| if_pos hcap

end

/-- Settles O34, by the failing branches of HDLC_BUILD_IFRAME. -/
theorem hdlcBuildIframeFailures : Obligations.HdlcBuildIframeFailures := by
  refine ⟨by decide, stageOneFails_all .hdlcBuildIframe, fun s f L hL => ?_⟩
  change L = infoLen s.serverAddr s.clientAddr s.srcLen.toNat at hL
  subst hL
  refine ⟨exec_hdlcBuildIframe_of_not_connected s f, fun hlink h => ?outOfBounds,
    fun hlink hsrc hdst => exec_hdlcBuildIframe_of_badLength s f hlink hsrc hdst,
    fun hlink hsrc hdst hempty hlong hcap => ?tooSmall⟩
  case outOfBounds => exact exec_hdlcBuildIframe_of_outOfBounds s f hlink (h.imp Nat.not_le.mpr Nat.not_le.mpr)
  case tooSmall =>
    refine ⟨_, exec_hdlcBuildIframe_of_tooSmall s f hlink hsrc hdst hempty hlong hcap, rfl, fun a ha => ?_⟩
    rw [State.bufByte_withErr, s.bufByte_unspecify_outside ha]

/-! ### HDLC_PARSE, its checks and its data stage -/

/-- Stages 5 to 7 of R113, from what the data stage found. -/
def State.afterData (s : State) : ParseResult → Result
  | .incomplete => raise s .incompleteData
  | .invalid p => raise (s.withConsumed p) .invalidFrame
  | .badCrc p => raise (s.withConsumed p) .checksum
  | .frame f => acceptFrame s s.srcBytes f

/-- Stage 3 of R113: a reassembly region that is in use lies in BUF. -/
def State.regionChecked (s : State) : Prop :=
  s.link ≠ .connected ∨ s.reasmCap = 0 ∨ s.reasmBase.toNat + s.reasmCap.toNat ≤ s.params.bufSize

section
variable {s : State}

theorem State.reassembling_iff : s.reassembling = true ↔ s.link = .connected ∧ s.reasmCap ≠ 0 := by
  rw [State.reassembling, Bool.and_eq_true, decide_eq_true_eq, decide_eq_true_eq]

/-- R113 behind stage 3. -/
theorem exec_hdlcParse_of_ranges (hsrc : s.srcInRange) (hregion : s.regionChecked) {r : ParseResult}
    (hdata : parseFrame s.params s.verifyCrc s.srcBytes = r) : exec .hdlcParse s = s.afterData r := by
  subst hdata
  have hreasm : ¬ (s.reassembling = true ∧ ¬ s.reasmInRange) := by
    rw [State.reassembling_iff]
    rintro ⟨⟨hlink, hcap⟩, hout⟩
    rcases hregion with hno | hno | hin
    · exact hno hlink
    · exact hcap hno
    · exact hout hin
  refine (if_neg (not_not.mpr hsrc)).trans ((if_neg hreasm).trans ?_)
  cases parseFrame s.params s.verifyCrc s.srcBytes <;> rfl

/-- R113, stage 3. -/
theorem exec_hdlcParse_of_outOfBounds (h : ¬ s.srcInRange ∨ (s.reassembling = true ∧ ¬ s.reasmInRange)) :
    exec .hdlcParse s = .next (s.withErr .outOfBounds) := by
  by_cases hsrc : s.srcInRange
  · exact (if_neg (not_not.mpr hsrc)).trans (if_pos (h.resolve_left (not_not.mpr hsrc)))
  · exact if_pos hsrc

/-! ### An accepted frame -/

/-- R112: counting a frame writes NR alone. -/
theorem State.countFrame_eq (c : Byte) : s.countFrame c = { s with nr := if finalBit c then s.nr + 1 else s.nr } := by
  unfold State.countFrame
  split <;> rfl

variable {bs : List Byte} {f : RxFrame}

theorem acceptFrame_of_framing (h : ¬ (s.link = .connected ∧ f.info = true)) :
    acceptFrame s bs f = .next ((s.receive f).withErr .ok) := if_neg h

theorem acceptFrame_of_counting (hlink : s.link = .connected) (hinfo : f.info = true) (hcap : s.reasmCap = 0) :
    acceptFrame s bs f = .next (((s.countFrame f.ctrl).receive f).withErr .ok) :=
  (if_pos ⟨hlink, hinfo⟩).trans (if_neg (not_not.mpr hcap))

theorem acceptFrame_of_fits (hlink : s.link = .connected) (hinfo : f.info = true) (hcap : s.reasmCap ≠ 0)
    (hfit : s.reasmStart + f.payLen ≤ s.reasmCap.toNat) :
    acceptFrame s bs f =
      .next ((((s.append s.reasmStart (f.payload bs) (finalBit f.ctrl)).countFrame f.ctrl).receive f).withErr .ok) :=
  (if_pos ⟨hlink, hinfo⟩).trans ((if_pos hcap).trans (if_neg (Nat.not_lt.mpr hfit)))

theorem acceptFrame_of_tooSmall (hlink : s.link = .connected) (hinfo : f.info = true) (hcap : s.reasmCap ≠ 0)
    (hover : s.reasmCap.toNat < s.reasmStart + f.payLen) :
    acceptFrame s bs f = .next ((s.unspecify (s.reasmBase.toNat + s.reasmStart)
      (s.reasmCap.toNat - s.reasmStart)).withErr .bufferTooSmall) :=
  (if_pos ⟨hlink, hinfo⟩).trans ((if_pos hcap).trans (if_pos hover))

/-- What an appended frame writes beside BUF (R111 to R113). -/
theorem State.appended_registers (s : State) (f₀ : Nat) (payload : List Byte) :
    { (((s.append f₀ payload (finalBit f.ctrl)).countFrame f.ctrl).receive f).withErr .ok with buf := s.buf } =
      { s with
        nr := if finalBit f.ctrl then s.nr + 1 else s.nr, reasmFill := BitVec.ofNat 32 (f₀ + payload.length),
        reasmDone := finalBit f.ctrl, rxFmt := f.fmt, rxDst := f.dst, rxSrc := f.src, rxCtrl := f.ctrl,
        rxPayAddr := BitVec.ofNat 32 (s.srcAddr.toNat + f.payOff), rxPayLen := BitVec.ofNat 32 f.payLen,
        rxConsumed := BitVec.ofNat 32 f.consumed, err := .ok } := by
  rw [State.countFrame_eq]
  rfl

/-- The payload of an accepted frame lies in the input. -/
theorem payload_within {P : Params} {v : Bool} (hf : parseFrame P v bs = .frame f) :
    f.payOff + f.payLen < bs.length := by
  rcases parseFrame_cases hf with hinc | ⟨p, hrej | hrej, -⟩ | ⟨g, hg, -, -, hend, hpay⟩
  · cases hinc
  · cases hrej
  · cases hrej
  · cases hg
    exact hpay.trans_lt hend

theorem length_payload {P : Params} {v : Bool} (hf : parseFrame P v bs = .frame f) :
    (f.payload bs).length = f.payLen := by
  rw [RxFrame.payload, length_slice _ (payload_within hf).le, Nat.add_sub_cancel_left]

/-- R111: the appended bytes are the payload's, as they stood before. -/
theorem State.bufByte_append_inside {f₀ k : Nat} (done : Bool)
    (hf : parseFrame s.params s.verifyCrc s.srcBytes = .frame f) (hk : k < f.payLen) :
    (s.append f₀ (f.payload s.srcBytes) done).bufByte (s.reasmBase.toNat + f₀ + k) =
      s.bufByte (s.srcAddr.toNat + f.payOff + k) := by
  have hin := payload_within hf
  rw [s.length_srcBytes] at hin
  have hk' : k < (f.payload s.srcBytes).length := by rwa [length_payload hf]
  calc (s.append f₀ (f.payload s.srcBytes) done).bufByte (s.reasmBase.toNat + f₀ + k)
      = (f.payload s.srcBytes)[k] := State.bufByte_written (s.append_buf _ _ _) hk'
    _ = byteAt s.srcBytes (f.payOff + k) := getElem_slice _ _ _ _ hk'
    _ = s.bufByte (s.srcAddr.toNat + (f.payOff + k)) := s.byteAt_memRead _ _ _ (by omega)
    _ = s.bufByte (s.srcAddr.toNat + f.payOff + k) := by rw [Nat.add_assoc]

end

/-- Settles O36, by the failing branches of stage 3 and of the append. -/
theorem hdlcParseFailures : Obligations.HdlcParseFailures := by
  refine ⟨by decide, stageOneFails_all .hdlcParse, fun s =>
    ⟨fun h => ?outOfBounds, fun f hsrc hregion hf hlink hinfo hcap hover => ?tooSmall⟩⟩
  case outOfBounds =>
    exact exec_hdlcParse_of_outOfBounds (h.imp Nat.not_le.mpr fun ⟨hlink, hcap, hout⟩ =>
      ⟨State.reassembling_iff.mpr ⟨hlink, hcap⟩, Nat.not_le.mpr hout⟩)
  case tooSmall =>
    have hnext := (exec_hdlcParse_of_ranges hsrc (.inr (.inr hregion)) hf).trans
      (acceptFrame_of_tooSmall hlink hinfo hcap hover)
    refine ⟨_, hnext, rfl, fun a ha => ?frame⟩
    case frame =>
      change a < s.reasmBase.toNat + s.reasmStart ∨ _ at ha
      rw [State.bufByte_withErr, s.bufByte_unspecify_outside (by omega)]

/-- Settles O35, by the three branches of an accepted frame. -/
theorem hdlcParseAcceptsFrame : Obligations.HdlcParseAcceptsFrame := by
  intro s f hsrc hf
  refine ⟨fun hframing => ?framing, fun hlink hinfo hcap => ?counting, fun hlink hinfo hcap hregion hfit => ?fits⟩
  case framing =>
    have hno : ¬ (s.link = .connected ∧ f.info = true) := by
      rintro ⟨hlink, hinfo⟩
      rcases hframing with hne | ⟨hshort, -⟩
      · exact hne hlink
      · rw [hshort] at hinfo
        cases hinfo
    exact (exec_hdlcParse_of_ranges hsrc (hframing.imp_right And.right) hf).trans (acceptFrame_of_framing hno)
  case counting =>
    refine (exec_hdlcParse_of_ranges hsrc (.inr (.inl hcap)) hf).trans
      ((acceptFrame_of_counting hlink hinfo hcap).trans ?_)
    rw [State.countFrame_eq]
    rfl
  case fits =>
    have hlen : (f.payload s.srcBytes).length = f.payLen := length_payload hf
    have hnext := (exec_hdlcParse_of_ranges hsrc (.inr (.inr hregion)) hf).trans
      (acceptFrame_of_fits hlink hinfo hcap hfit)
    refine ⟨_, hnext, ?registers, fun k hk => ?payload, fun a ha => ?frame⟩
    case registers =>
      have hregisters := s.appended_registers (f := f) s.reasmStart (f.payload s.srcBytes)
      rwa [hlen] at hregisters
    case payload =>
      rw [State.bufByte_withErr, State.bufByte_receive, State.bufByte_countFrame]
      exact s.bufByte_append_inside _ hf hk
    case frame =>
      rw [State.bufByte_withErr, State.bufByte_receive, State.bufByte_countFrame]
      exact State.bufByte_unwritten (s.append_buf _ _ _) rfl (by rwa [hlen])

/-! ### A frame that is not accepted -/

/-- R106: the input has no flag, or no room for a format field behind its first run of flags. -/
theorem parseFrame_incomplete {P : Params} {v : Bool} {bs : List Byte}
    (h : (∀ k, k < bs.length → byteAt bs k ≠ flagByte) ∨
      (∃ i p, i < p ∧ p ≤ bs.length ∧ bs.length < p + 2 ∧ (∀ k, k < i → byteAt bs k ≠ flagByte) ∧
        (∀ k, i ≤ k → k < p → byteAt bs k = flagByte) ∧ (p < bs.length → byteAt bs p ≠ flagByte))) :
    parseFrame P v bs = .incomplete := by
  rcases h with hnone | ⟨i, p, hip, -, hshort, hbefore, hrun, hend⟩
  · simp only [parseFrame, firstFlag_of_no_flag hnone]
  · have hend' : byteAt bs p ≠ flagByte := fun hflag => hend (lt_length_of_byteAt_eq_flag hflag) hflag
    rw [parseFrame_of_start P v hip hbefore hrun hend', parseAt_of_no_format hshort]

/-- Settles O37: the bytes of the input are those of BUF from SRC_ADDR on. -/
theorem hdlcParseIncomplete : Obligations.HdlcParseIncomplete := by
  intro s hsrc hregion h
  have hbyte {k : Nat} (hk : k < s.srcLen.toNat) : byteAt s.srcBytes k = s.bufByte (s.srcAddr.toNat + k) :=
    s.byteAt_memRead _ _ _ hk
  refine exec_hdlcParse_of_ranges (r := .incomplete) hsrc hregion (parseFrame_incomplete ?_)
  rw [s.length_srcBytes]
  refine h.imp (fun hnone k hk => ?none) fun ⟨i, p, hip, hp, hshort, hbefore, hrun, hend⟩ =>
    ⟨i, p, hip, hp, hshort, fun k hk => ?before, fun k hik hkp => ?run, fun hlt => ?stop⟩
  case none => rw [hbyte hk]; exact hnone k hk
  case before => rw [hbyte (by omega)]; exact hbefore k hk
  case run => rw [hbyte (by omega)]; exact hrun k hik hkp
  case stop => rw [hbyte hlt]; exact hend hlt

/-- Settles O38: the data stage answers at the first check that fails. -/
theorem hdlcParseRejects : Obligations.HdlcParseRejects := by
  intro s bs i p L hsrc hregion hbs hip hp hbefore hrun hend hL
  change bs = s.srcBytes at hbs
  subst hbs
  have hexec {r : ParseResult} (hr : parseAt s.params s.verifyCrc s.srcBytes p = r) :
      exec .hdlcParse s = s.afterData r :=
    exec_hdlcParse_of_ranges hsrc hregion ((parseFrame_of_start _ _ hip hbefore hrun hend).trans hr)
  have hformat := parseAt_of_format (P := s.params) (v := s.verifyCrc) (bs := s.srcBytes) hp hL
  refine ⟨fun htype => hexec (r := .invalid p) ?type, fun htype hmin => hexec (r := .invalid p) ?minimum,
    fun htype hmin hcut => hexec (r := .incomplete) ?cut, fun htype hmin hlen hflag => hexec (r := .invalid p) ?closing,
    fun htype hmin hlen hflag => ?closed⟩
  case type => rw [hformat, if_pos htype]
  case minimum => rw [hformat, if_neg (not_not.mpr htype), if_pos hmin]
  case cut => rw [hformat, if_neg (not_not.mpr htype), if_neg (Nat.not_lt.mpr hmin), if_pos hcut]
  case closing =>
    have hflag' : byteAt s.srcBytes (p + L) ≠ flagByte := hflag
    rw [hformat, if_neg (not_not.mpr htype), if_neg (Nat.not_lt.mpr hmin), if_neg (Nat.not_lt.mpr hlen), if_pos hflag']
  case closed =>
    have hparse := parseAt_of_closed (P := s.params) (v := s.verifyCrc) htype hL hmin hlen hflag
    refine ⟨fun hdst => hexec (r := .invalid p) (hparse.trans (parseAddresses_of_no_dst hdst)), fun dst kd hdst =>
      ⟨fun hsrc' => hexec (r := .invalid p) (hparse.trans (parseAddresses_of_no_src hdst hsrc')),
        fun src ks h hsrc' hh => ?_⟩⟩
    have haddr := hparse.trans (parseAddresses_of_header (h := h) hdst hsrc' hh)
    have htail (hle : h + 2 ≤ L) := haddr.trans (if_neg (Nat.not_lt.mpr hle))
    refine ⟨fun hlength => hexec (r := .invalid p) ?length,
      fun hv hform hcrc => hexec (r := .badCrc p) ((htail (by omega)).trans ?header),
      fun hv hform hcrc => hexec (r := .badCrc p) ((htail (by omega)).trans ?body)⟩
    case length =>
      rcases hlength with hshort | hodd
      · exact haddr.trans (if_pos hshort)
      · exact (htail (by omega)).trans (parseTail_of_odd_length hodd)
    case header => exact parseTail_of_bad_header hv (by omega) (by omega) hcrc
    case body => exact parseTail_of_bad_body hv hform hcrc

/-! ### Built, then parsed back -/

theorem State.countBuilt_eq (s : State) (final : Bool) :
    s.countBuilt final = { s with ns := if final then s.ns + 1 else s.ns } := by
  cases final <;> rfl

/-- The state between the two commands of O41: the frame written, and SRC pointed at it. -/
def State.loopedBack (s : State) (final : Bool) : State :=
  { s with
    buf := s.buf.writeRange s.dstAddr.toNat (s.iframe final), outLen := BitVec.ofNat 32 (s.iframe final).length,
    ns := if final then s.ns + 1 else s.ns, err := .ok,
    srcAddr := s.dstAddr, srcLen := BitVec.ofNat 32 (s.iframe final).length }

theorem State.loopedBack_eq (s : State) (final : Bool) :
    { ((s.emit (s.iframe final)).countBuilt final).withErr .ok with
      srcAddr := s.dstAddr, srcLen := (((s.emit (s.iframe final)).countBuilt final).withErr .ok).outLen } =
      s.loopedBack final := by
  simp only [State.countBuilt_eq, State.loopedBack]
  generalize s.iframe final = bs
  rfl

/-- The range SRC is pointed at holds the frame. -/
theorem State.srcBytes_loopedBack (s : State) {final : Bool} (h : (s.iframe final).length < 2 ^ 32) :
    (s.loopedBack final).srcBytes = s.iframe final := by
  have hlen : (s.loopedBack final).srcLen.toNat = (s.iframe final).length := Nat.mod_eq_of_lt h
  rw [State.srcBytes, hlen]
  exact State.memRead_written (s := s) rfl

/-- What HDLC_PARSE finds in the frame that HDLC_BUILD_IFRAME built, the frame standing first in its input. -/
def State.echoedFrame (s : State) (final : Bool) : RxFrame :=
  { fmt := 0xA000 ||| BitVec.ofNat 16 ((vlq s.serverAddr).length + (vlq s.clientAddr).length + 7 + s.srcBytes.length),
    dst := s.serverAddr, src := s.clientAddr, ctrl := iframeControl s.nr s.ns final, info := true,
    payOff := 0 + 1 + ((vlq s.serverAddr).length + (vlq s.clientAddr).length + 3) + 2,
    payLen := s.srcBytes.length,
    consumed := 0 + 1 + ((vlq s.serverAddr).length + (vlq s.clientAddr).length + 7 + s.srcBytes.length) }

/-- O27 for the built frame alone, nothing before or behind it. -/
theorem State.parseFrame_iframe (s : State) (final verify : Bool) (hfill : s.fillCrc = true)
    (hlong : (vlq s.serverAddr).length + (vlq s.clientAddr).length + 7 + s.srcBytes.length ≤ 2047) :
    parseFrame s.params verify (s.iframe final) = .frame (s.echoedFrame final) := by
  have hparse := infoFrameParses s.params verify [] [] s.serverAddr s.clientAddr (iframeControl s.nr s.ns final)
    s.srcBytes (List.forall_mem_nil _) hlong
  rw [List.nil_append, List.append_nil] at hparse
  rw [State.iframe, hfill]
  exact hparse

/-- The payload stands in the built frame behind the flag, the header and the header's check sequence. -/
theorem State.payload_prefix_drop_iframe (s : State) (final : Bool) (hfill : s.fillCrc = true) :
    s.srcBytes <+: (s.iframe final).drop (s.echoedFrame final).payOff := by
  have hbytes := append_infoFrame_by_header s.params [] [] (dst := s.serverAddr) (src := s.clientAddr)
    (c := iframeControl s.nr s.ns final) (payload := s.srcBytes) rfl rfl
  rw [List.nil_append, List.append_nil] at hbytes
  rw [State.iframe, hfill, hbytes, ← List.append_assoc, List.drop_left' ?length, List.append_assoc]
  case length =>
    simp only [List.length_append, length_frameHeader, length_le16, List.length_nil, List.length_cons,
      State.echoedFrame]
  rw [List.append_assoc]
  exact List.prefix_append _ _

theorem State.memRead_loopedBack_payload (s : State) (final : Bool) (hfill : s.fillCrc = true) :
    (s.loopedBack final).memRead (s.dstAddr.toNat + (s.echoedFrame final).payOff) s.srcBytes.length = s.srcBytes :=
  State.memRead_written_part (s := s) rfl (s.payload_prefix_drop_iframe final hfill)

/-- Settles O41: HDLC_PARSE reads the built frame (O27) and takes it as R112 says (O35), and its payload stands in
BUF where the builder put it. -/
theorem iframeLoopback : Obligations.IframeLoopback := by
  intro s f hlegal hlink hfill hcap hsrc hdst hempty hlong hroom
  have hlen := s.length_iframe f
  have hpayload : s.srcBytes.length = s.srcLen.toNat := s.length_srcBytes
  have hbound : (s.iframe f).length < 2 ^ 32 := by have := s.dstCap.isLt; omega
  have hbuilt := exec_hdlcBuildIframe_of_fits s f hlink hsrc hdst hempty hlong (by rw [infoLen]; omega)
  have hbytes := s.srcBytes_loopedBack hbound
  have hparse : parseFrame (s.loopedBack f).params (s.loopedBack f).verifyCrc (s.loopedBack f).srcBytes =
      .frame (s.echoedFrame f) := by
    rw [hbytes]
    exact s.parseFrame_iframe f _ hfill (by omega)
  have hin : (s.loopedBack f).srcInRange := by
    have hl : (s.loopedBack f).srcLen.toNat = (s.iframe f).length := Nat.mod_eq_of_lt hbound
    rw [State.srcInRange, State.inRange, hl]
    exact show s.dstAddr.toNat + _ ≤ s.params.bufSize by omega
  have hparsed := (hdlcParseAcceptsFrame _ _ hin hparse).2.1 hlink rfl hcap
  have hlen32 : BitVec.ofNat 32 s.srcBytes.length = s.srcLen := by rw [hpayload, BitVec.ofNat_toNat, BitVec.setWidth_eq]
  refine ⟨_, _, hbuilt, (congrArg (exec .hdlcParse) (s.loopedBack_eq f)).trans hparsed, rfl, rfl, rfl,
    toNat_iframeControl _ _ _, hlen32, ?bytes, ?nr, rfl, hlink⟩
  case nr =>
    change (if finalBit (iframeControl s.nr s.ns f) then s.nr + 1 else s.nr) = _
    rw [finalBit_iframeControl]
  case bytes =>
    have hpay : (s.echoedFrame f).payOff = (vlq s.serverAddr).length + (vlq s.clientAddr).length + 6 := by
      simp only [State.echoedFrame]
      omega
    have hoff : (BitVec.ofNat 32 (s.dstAddr.toNat + (s.echoedFrame f).payOff)).toNat =
        s.dstAddr.toNat + (s.echoedFrame f).payOff := Nat.mod_eq_of_lt (by omega)
    change State.memRead _ (BitVec.ofNat 32 (s.dstAddr.toNat + (s.echoedFrame f).payOff)).toNat
      (BitVec.ofNat 32 s.srcBytes.length).toNat = s.srcBytes
    rw [hlen32, hoff, ← hpayload]
    exact Eq.trans (State.memRead_of_buf_eq (by rfl) (by rfl) _ _) (s.memRead_loopedBack_payload f hfill)

end Sys2Proof.Machine

/-! The assembler of the host scripts (spec/30_encoding.md R61): the forms it accepts, and the word of a command as the
sum of its fields. -/

namespace Sys2Proof.Machine

/-! ### The word as a sum -/

/-- Fields side by side: behind `k` low bits an or is a sum. -/
theorem or_shiftLeft_eq_add {x k : Nat} (h : x < 2 ^ k) (y : Nat) : x ||| y <<< k = x + y * 2 ^ k := by
  rw [Nat.or_comm, ← Nat.shiftLeft_add_eq_or_of_lt h, Nat.shiftLeft_eq, Nat.add_comm]

/-- A field moved to its place keeps its number, where the word holds it. -/
theorem toNat_setWidth_shiftLeft {n k : Nat} (x : BitVec n) (h : n + k ≤ 32) :
    (x.setWidth 32 <<< k).toNat = x.toNat <<< k := by
  have hlt : x.toNat <<< k < 2 ^ 32 := calc
    x.toNat <<< k = x.toNat * 2 ^ k := Nat.shiftLeft_eq _ _
    _ < 2 ^ n * 2 ^ k := Nat.mul_lt_mul_of_pos_right x.isLt (Nat.two_pow_pos k)
    _ = 2 ^ (n + k) := (Nat.pow_add 2 n k).symm
    _ ≤ 2 ^ 32 := Nat.pow_le_pow_right (by decide) h
  rw [BitVec.toNat_shiftLeft, BitVec.toNat_setWidth_of_le (by omega), Nat.mod_eq_of_lt hlt]

/-- R61: the word as a number. -/
theorem toNat_assembleWord (op : Opcode) (var : BitVec 2) (final : Bool) (imm : Byte) :
    (assembleWord op var final imm).toNat =
      op.code.toNat + var.toNat * 2 ^ 8 + final.toNat * 2 ^ 10 + imm.toNat * 2 ^ 16 := by
  have hop := op.code.isLt
  have hvar := var.isLt
  have hfinal := final.toNat_lt
  rw [assembleWord, BitVec.toNat_or, BitVec.toNat_or, BitVec.toNat_or, BitVec.toNat_setWidth_of_le (by decide),
    toNat_setWidth_shiftLeft var (by decide), toNat_setWidth_shiftLeft (BitVec.ofBool final) (by decide),
    toNat_setWidth_shiftLeft imm (by decide), BitVec.toNat_ofBool, or_shiftLeft_eq_add hop,
    or_shiftLeft_eq_add (k := 10) (by omega), or_shiftLeft_eq_add (k := 16) (by omega)]

/-- What the operands of a command add to its opcode. -/
def operandSum : Instr → Nat
  | .crcInit var | .crcCompute var | .crcVerify var => var.toNat * 2 ^ 8
  | .hdlcBuildIframe final => if final then 2 ^ 10 else 0
  | .crcByte imm => imm.toNat * 2 ^ 16
  | _ => 0

theorem toNat_encode (i : Instr) : (encode i).toNat = i.opcode.code.toNat + operandSum i := by
  cases i with
  | hdlcBuildIframe final => cases final <;> rfl
  | _ => simp [encode, toNat_assembleWord, Instr.opcode, operandSum]

/-! ### The forms of R61 -/

/-- A mnemonic with a variant suffix. -/
def variantForm (mk : BitVec 2 → Instr) : Option Token → Option Nat → Option Instr
  | some t, none => (variantNames.lookup t).map fun v => mk v.code
  | _, _ => none

/-- A mnemonic alone. -/
def plainForm (i : Instr) : Option Token → Option Nat → Option Instr
  | none, none => some i
  | _, _ => none

/-- The form of each mnemonic. -/
def opcodeForm : Opcode → Option Token → Option Nat → Option Instr
  | .crcInit => variantForm .crcInit
  | .crcCompute => variantForm .crcCompute
  | .crcVerify => variantForm .crcVerify
  | .nop => plainForm .nop
  | .crcUpdate => plainForm .crcUpdate
  | .crcStore => plainForm .crcStore
  | .dnp3Blocks => plainForm .dnp3Blocks
  | .hdlcReset => plainForm .hdlcReset
  | .hdlcBuildSnrm => plainForm .hdlcBuildSnrm
  | .hdlcSetConnected => plainForm .hdlcSetConnected
  | .hdlcParse => plainForm .hdlcParse
  | .crcByte => assemble .crcByte
  | .hdlcBuildIframe => assemble .hdlcBuildIframe

theorem assemble_eq_form (op : Opcode) (suffix : Option Token) (imm : Option Nat) :
    assemble op suffix imm = opcodeForm op suffix imm := by
  cases op <;> cases suffix <;> cases imm <;> rfl

section
variable {suffix : Option Token} {imm : Option Nat} {i : Instr}

theorem plainForm_eq_some_iff {j : Instr} : plainForm j suffix imm = some i ↔ suffix = none ∧ imm = none ∧ i = j := by
  cases suffix <;> cases imm <;> simp [plainForm, eq_comm]

/-- The suffixes of R61, each with the number of its variant. -/
def variantSuffixes : List (Option Token × BitVec 2) :=
  [(some "MODBUS".toList, 0), (some "CCITT".toList, 1), (some "DNP3".toList, 2)]

theorem variantNames_lookup_eq_some_iff {t : Token} {v : CrcVar} :
    variantNames.lookup t = some v ↔ (some t, v.code) ∈ variantSuffixes := by
  by_cases hmodbus : t = "MODBUS".toList
  · subst hmodbus
    cases v <;> decide
  by_cases hccitt : t = "CCITT".toList
  · subst hccitt
    cases v <;> decide
  by_cases hdnp3 : t = "DNP3".toList
  · subst hdnp3
    cases v <;> decide
  have hnone : variantNames.lookup t = none := by
    simp only [variantNames, List.lookup_cons, beq_eq_false_iff_ne.mpr hmodbus, beq_eq_false_iff_ne.mpr hccitt,
      beq_eq_false_iff_ne.mpr hdnp3, List.lookup_nil]
  simp only [hnone, variantSuffixes, List.mem_cons, Prod.mk.injEq, Option.some.injEq, hmodbus, hccitt, hdnp3,
    false_and, or_false, List.not_mem_nil, reduceCtorEq]

theorem exists_code_of_mem_variantSuffixes {var : BitVec 2} (h : (suffix, var) ∈ variantSuffixes) :
    ∃ v : CrcVar, v.code = var := by
  simp only [variantSuffixes, List.mem_cons, Prod.mk.injEq, List.not_mem_nil, or_false] at h
  rcases h with ⟨-, rfl⟩ | ⟨-, rfl⟩ | ⟨-, rfl⟩
  · exact ⟨.modbus, rfl⟩
  · exact ⟨.ccitt, rfl⟩
  · exact ⟨.dnp3, rfl⟩

theorem variantForm_eq_some_iff {mk : BitVec 2 → Instr} :
    variantForm mk suffix imm = some i ↔ imm = none ∧ ∃ var, (suffix, var) ∈ variantSuffixes ∧ i = mk var := by
  rcases suffix with _ | t
  · simp [variantForm, variantSuffixes]
  rcases imm with _ | n
  · rw [variantForm, Option.map_eq_some_iff]
    constructor
    · rintro ⟨v, hv, rfl⟩
      exact ⟨rfl, v.code, variantNames_lookup_eq_some_iff.mp hv, rfl⟩
    · rintro ⟨-, var, hvar, rfl⟩
      obtain ⟨v, rfl⟩ := exists_code_of_mem_variantSuffixes hvar
      exact ⟨v, variantNames_lookup_eq_some_iff.mpr hvar, rfl⟩
  · simp [variantForm]

theorem assemble_crcByte_eq_some_iff :
    assemble .crcByte suffix imm = some i ↔
      suffix = none ∧ ∃ n, n ≤ 255 ∧ imm = some n ∧ i = .crcByte (BitVec.ofNat 8 n) := by
  cases suffix <;> cases imm <;> simp [assemble, eq_comm]

theorem assemble_hdlcBuildIframe_eq_some_iff :
    assemble .hdlcBuildIframe suffix imm = some i ↔
      imm = none ∧ (suffix, i) ∈ [(none, .hdlcBuildIframe false), (some "F".toList, .hdlcBuildIframe true)] := by
  rcases imm with _ | n
  · rcases suffix with _ | t
    · simp [assemble, eq_comm]
    · by_cases ht : t = ['F']
      · subst ht
        simp [assemble, eq_comm]
      · simp [assemble, ht]
  · cases suffix <;> simp [assemble]

/-- R61: the accepted forms, and the command each assembles to. -/
theorem assemble_eq_some_iff (op : Opcode) (suffix : Option Token) (imm : Option Nat) (i : Instr) :
    assemble op suffix imm = some i ↔
    (imm = none ∧ ∃ var : BitVec 2, (suffix, var) ∈ variantSuffixes ∧
      (op, i) ∈ [(.crcInit, .crcInit var), (.crcCompute, .crcCompute var), (.crcVerify, .crcVerify var)]) ∨
    (op = .crcByte ∧ suffix = none ∧ ∃ n, n ≤ 255 ∧ imm = some n ∧ i = .crcByte (BitVec.ofNat 8 n)) ∨
    (op = .hdlcBuildIframe ∧ imm = none ∧
      (suffix, i) ∈ [(none, .hdlcBuildIframe false), (some "F".toList, .hdlcBuildIframe true)]) ∨
    (suffix = none ∧ imm = none ∧
      (op, i) ∈ [(.nop, .nop), (.crcUpdate, .crcUpdate), (.crcStore, .crcStore), (.dnp3Blocks, .dnp3Blocks),
        (.hdlcReset, .hdlcReset), (.hdlcBuildSnrm, .hdlcBuildSnrm), (.hdlcSetConnected, .hdlcSetConnected),
        (.hdlcParse, .hdlcParse)]) := by
  rw [assemble_eq_form]
  cases op
  case crcByte => simp [opcodeForm, assemble_crcByte_eq_some_iff]
  case hdlcBuildIframe => simp [opcodeForm, assemble_hdlcBuildIframe_eq_some_iff]
  all_goals simp [opcodeForm, plainForm_eq_some_iff, variantForm_eq_some_iff]

/-- What an accepted form assembles to is a command of its mnemonic, with a legal operand. -/
theorem opcode_of_assemble {op : Opcode} (h : assemble op suffix imm = some i) :
    i.opcode = op ∧ i.wellFormed = true := by
  rcases (assemble_eq_some_iff op suffix imm i).mp h with
    ⟨-, var, hvar, hmem⟩ | ⟨rfl, -, n, -, -, rfl⟩ | ⟨rfl, -, hmem⟩ | ⟨-, -, hmem⟩
  · have hlegal : legalVar var = true := by
      obtain ⟨v, rfl⟩ := exists_code_of_mem_variantSuffixes hvar
      cases v <;> rfl
    simp only [List.mem_cons, Prod.mk.injEq, List.not_mem_nil, or_false] at hmem
    rcases hmem with ⟨rfl, rfl⟩ | ⟨rfl, rfl⟩ | ⟨rfl, rfl⟩
    all_goals exact ⟨rfl, hlegal⟩
  · exact ⟨rfl, rfl⟩
  · simp only [List.mem_cons, Prod.mk.injEq, List.not_mem_nil, or_false] at hmem
    rcases hmem with ⟨-, rfl⟩ | ⟨-, rfl⟩
    all_goals exact ⟨rfl, rfl⟩
  · simp only [List.mem_cons, Prod.mk.injEq, List.not_mem_nil, or_false] at hmem
    rcases hmem with ⟨rfl, rfl⟩ | ⟨rfl, rfl⟩ | ⟨rfl, rfl⟩ | ⟨rfl, rfl⟩ | ⟨rfl, rfl⟩ | ⟨rfl, rfl⟩ | ⟨rfl, rfl⟩ |
      ⟨rfl, rfl⟩
    all_goals exact ⟨rfl, rfl⟩

end

/-- Settles O60: the forms mnemonic by mnemonic, and the word as the sum of its fields; the tables and the three lines
are evaluated. -/
theorem assemblerSpellsLegalWords : Obligations.AssemblerSpellsLegalWords := by
  refine ⟨assemble_eq_some_iff, fun op suffix imm i h => ?_, rfl, by decide, by decide, by decide,
    by decide, rfl, rfl, rfl⟩
  obtain ⟨hop, hwf⟩ := opcode_of_assemble h
  refine ⟨hop, encodeThenDecode i hwf, ?_⟩
  rw [toNat_encode, hop]
  cases i <;> rfl

end Sys2Proof.Machine
